-- ==== Sys2Proof/Word.lean ====
section
/-! DEFINITION. The word types of the ECHO_recorder DSP block (00_scope.md R6, 10_state.md R23). -/

namespace Sys2Proof

/-- A byte of the OUT memory (00_scope.md R6). -/
abbrev Byte := BitVec 8

/-- A 32-bit register or command word (10_state.md R23, 30_encoding.md R80). -/
abbrev Word := BitVec 32

/-- The raw 64-bit pattern of a binary64 value: sign bit 63, exponent bits 62:52, fraction bits 51:0
(00_scope.md R6). Every sample, parameter, coefficient and delay cell is one (00_scope.md R5). -/
abbrev F64 := BitVec 64

end Sys2Proof
end

