-- ==== Sys2Proof/Syntax.lean ====
section
/-! DEFINITION. The five commands of the block, one constructor per row of spec/opcode_table.json
(30_encoding.md R81). -/

namespace Sys2Proof

/-- A command (30_encoding.md R81). Only BQ_PROC has an operand in its word, the channel index
(30_encoding.md R83); all other operands are registers (30_encoding.md R84). -/
inductive Instr where
  | bqCfg
  | bqRst
  | bqProc (ch : Nat)
  | ilvRun
  | wavEnc
deriving DecidableEq, Repr

end Sys2Proof
end

