-- ==== Sys2Proof/WellFormed.lean ====
section
/-! DEFINITION. Which commands have a command word (30_encoding.md R82, R83). -/

namespace Sys2Proof

/-- CH is an unsigned 8-bit field, 0..255 (30_encoding.md R82); the other commands have no operand. -/
def Instr.wellFormed : Instr → Bool
  | .bqCfg => true
  | .bqRst => true
  | .bqProc ch => decide (ch ≤ 255)
  | .ilvRun => true
  | .wavEnc => true

end Sys2Proof
end

