-- ==== Sys2Proof/Decode.lean ====
section
/-! DEFINITION. Decoding and encoding of the command word CMD32 (30_encoding.md R80 to R86). -/

namespace Sys2Proof

/-- Why a command word is illegal (30_encoding.md R86). -/
inductive DecodeError where
  /-- RSVD ≠ 0. -/
  | reservedField
  /-- CH ≠ 0 in a command other than BQ_PROC. -/
  | channelField
  /-- OP is none of 0x01, 0x02, 0x03, 0x10, 0x20. -/
  | unassignedOpcode
deriving DecidableEq, Repr

/-- OP, bits 7:0 (30_encoding.md R82). -/
def opField (w : Word) : BitVec 8 := w.extractLsb' 0 8

/-- CH, bits 15:8 (30_encoding.md R82). -/
def chField (w : Word) : BitVec 8 := w.extractLsb' 8 8

/-- RSVD, bits 31:16 (30_encoding.md R82). -/
def rsvdField (w : Word) : BitVec 16 := w.extractLsb' 16 16

/-- The decode of 30_encoding.md R85, test for test; CH is zero-extended (R83). -/
def decode (w : Word) : Except DecodeError Instr :=
  if rsvdField w ≠ 0 then .error .reservedField
  else if opField w = 0x03#8 then .ok (.bqProc (chField w).toNat)
  else if chField w ≠ 0 then .error .channelField
  else if opField w = 0x01#8 then .ok .bqCfg
  else if opField w = 0x02#8 then .ok .bqRst
  else if opField w = 0x10#8 then .ok .ilvRun
  else if opField w = 0x20#8 then .ok .wavEnc
  else .error .unassignedOpcode

/-- A CMD32 word from its CH and OP fields, RSVD = 0 (30_encoding.md R82). -/
def commandWord (ch op : BitVec 8) : Word := 0#16 ++ (ch ++ op)

/-- The command word of a command (30_encoding.md R81, R82). -/
def encode : Instr → Word
  | .bqCfg => commandWord 0x00#8 0x01#8
  | .bqRst => commandWord 0x00#8 0x02#8
  | .bqProc ch => commandWord (BitVec.ofNat 8 ch) 0x03#8
  | .ilvRun => commandWord 0x00#8 0x10#8
  | .wavEnc => commandWord 0x00#8 0x20#8

/-- The command the decoder reads from the `nbits` low bits of `w`, the bits above them zero; a command is one
32-bit word, written whole, so there is no byte order to lay out (30_encoding.md R80). -/
def decodeTableWord (nbits w : Nat) : Option Instr :=
  if 32 < nbits then none
  else
    match decode (BitVec.ofNat 32 (w % 2 ^ nbits)) with
    | .ok i => some i
    | .error _ => none

end Sys2Proof
end

