-- ==== Sys2Proof/Config.lean ====
section
/-! DEFINITION. What an implementation fixes (00_scope.md R5) and the free values of the model.
Nothing in Lean can evaluate an opaque constant of this file. -/

namespace Sys2Proof

/-- Which standard bandpass formula gives b0 (00_scope.md R5, 40_biquad.md R102): `peak0dB` is b0 = α,
`skirt` is b0 = Q·α. -/
inductive BpVariant where
  | peak0dB
  | skirt
deriving DecidableEq, Repr, Inhabited

/-- How `round` resolves an exact .5 (00_scope.md R5, 42_wav_encoder.md R155). -/
inductive TieMode where
  | away
  | posInf
  | even
deriving DecidableEq, Repr, Inhabited

/-- One known point of the implementation's sine and cosine: `SIN arg = sin` and `COS arg = cos`. -/
structure TrigPoint where
  arg : F64
  sin : F64
  cos : F64
deriving DecidableEq, Repr, Inhabited

/-- The OPEN parameters of 00_scope.md R5 as plain data, constant during a run (log 1).
Every value of this type stands for a legal choice, and every legal choice has a value (log 2). -/
structure Params where
  /-- NCH_MAX - 1. -/
  nchCode : Fin 256
  /-- FRAMES_MAX - 1, before the bound of `Params.framesMax`. -/
  framesCode : Nat
  bpVariant : BpVariant
  tieMode : TieMode
  /-- The points of SIN and COS that are known; elsewhere they are `Config.sinRest` and
  `Config.cosRest` (log 3). -/
  trig : List TrigPoint
deriving DecidableEq, Repr, Inhabited

/-- NCH_MAX, 1 to 256 (00_scope.md R5). -/
def Params.nchMax (P : Params) : Nat := P.nchCode.val + 1

/-- FRAMES_MAX, at least 1, with NCH_MAX × FRAMES_MAX ≤ 2147483629 (00_scope.md R5). -/
def Params.framesMax (P : Params) : Nat := min (P.framesCode + 1) (2147483629 / P.nchMax)

/-- ILV_MAX = NCH_MAX × FRAMES_MAX (00_scope.md R5). -/
def Params.ilvMax (P : Params) : Nat := P.nchMax * P.framesMax

/-- OUT_MAX = 44 + 2 × ILV_MAX (00_scope.md R5). -/
def Params.outMax (P : Params) : Nat := 44 + 2 * P.ilvMax

/-- The binary64 operations whose NaN result `NAN_OF` names (00_scope.md R5, R8). -/
inductive FloatOp where
  | add
  | sub
  | mul
  | div
deriving DecidableEq, Repr, Inhabited

/-- FREE VALUE (log 1): the parameters of the implementation. -/
opaque Config.params : Params

/-- FREE VALUE (log 3): the implementation's SIN away from the points of `Params.trig`. -/
opaque Config.sinRest : F64 → F64

/-- FREE VALUE (log 3): the implementation's COS away from the points of `Params.trig`. -/
opaque Config.cosRest : F64 → F64

/-- FREE VALUE (log 4): the sign (bit 52) and the fraction (bits 51:0) of the NaN that an operation
gives for its operands (00_scope.md R5 NAN_OF). -/
opaque Config.nanChoice : FloatOp → F64 → F64 → BitVec 53

/-- FREE VALUE (log 5): how many STATUS reads return BUSY = 1 in the window that draw `n` opens
(10_state.md R26, 70_reset_and_hazards.md R208). -/
opaque Config.busyReads : Nat → Nat

/-- FREE VALUE (log 6): the ERR field of a STATUS read that returns BUSY = 1, at draw `n`
(10_state.md R26). -/
opaque Config.errDraw : Nat → BitVec 8

/-- FREE VALUE (log 7): OUT_LEN after a WAV_ENC whose length does not fit 32 bits, at draw `n`
(42_wav_encoder.md R157). -/
opaque Config.outLenDraw : Nat → Word

end Sys2Proof
end

