-- ==== Sys2Proof/Machine/Float.lean ====
section
/-! DEFINITION. The binary64 primitives of 00_scope.md R8: IEEE 754 arithmetic rounding to nearest, ties to even, no
fused multiply-add, subnormals kept, no flags. Every finite value is a whole number of units of 2^-1074, so an
operation computes its exact result in units and rounds it once (log 13). -/

namespace Sys2Proof.Machine

/-- Bits 62:0 as a number: it orders the absolute values (00_scope.md R6). -/
def magnitude (x : F64) : Nat := x.toNat % 2 ^ 63

/-- Bit 63 (00_scope.md R6). -/
def signBit (x : F64) : Bool := decide (2 ^ 63 ≤ x.toNat)

/-- The magnitude of ±∞. -/
def infMagnitude : Nat := 0x7FF0000000000000

/-- The pattern with the given sign and magnitude. -/
def pack (neg : Bool) (mag : Nat) : F64 := BitVec.ofNat 64 (mag + if neg then 2 ^ 63 else 0)

/-- 1.0. -/
def oneF : F64 := 0x3FF0000000000000#64

/-- `isnan(a)` (00_scope.md R8). -/
def isNan (x : F64) : Bool := decide (infMagnitude < magnitude x)

/-- Whether `x` is +∞ or -∞. -/
def isInf (x : F64) : Bool := decide (magnitude x = infMagnitude)

/-- `isfinite(a)` (00_scope.md R8). -/
def isFinite (x : F64) : Bool := decide (magnitude x < infMagnitude)

/-- Whether `x` is +0.0 or -0.0. -/
def isZero (x : F64) : Bool := decide (magnitude x = 0)

/-- The absolute value of a finite `x` in units of 2^-1074: exponent bits 62:52 biased by 1023, fraction bits 51:0
(00_scope.md R6). -/
def unitsMag (x : F64) : Nat :=
  let e := magnitude x / 2 ^ 52
  let f := magnitude x % 2 ^ 52
  if e = 0 then f else (2 ^ 52 + f) * 2 ^ (e - 1)

/-- The value of a finite `x` in units of 2^-1074. -/
def units (x : F64) : Int := if signBit x then -(unitsMag x : Int) else (unitsMag x : Int)

/-- The pattern nearest to `num / den` units of 2^-1074, ties to even, ±∞ beyond the largest finite value
(00_scope.md R8). The significand `m` has its lowest bit worth `2 ^ sh` units, and `sh * 2 ^ 52 + m` is the magnitude
field whether or not the value is subnormal. -/
def roundUnits (neg : Bool) (num den : Nat) : F64 :=
  let sh := (num / den).log2 - 52
  let d := den * 2 ^ sh
  let m := num / d
  let r := num % d
  let m' := if 2 * r < d then m else if d < 2 * r then m + 1 else m + m % 2
  pack neg (min (sh * 2 ^ 52 + m') infMagnitude)

/-- `NAN_OF(op, operands)`: a NaN, its sign and fraction free (00_scope.md R5, R8; log 4). -/
def nanOf (op : FloatOp) (a b : F64) : F64 :=
  let c := Config.nanChoice op a b
  let frac := c.toNat % 2 ^ 52
  pack (decide (2 ^ 52 ≤ c.toNat)) (infMagnitude + if frac = 0 then 1 else frac)

/-- `fneg(a)`: flips the sign bit only, also of a NaN (00_scope.md R8). -/
def fneg (a : F64) : F64 := a ^^^ 0x8000000000000000#64

/-- The IEEE sum of `a` and `b`, with `nan` as the NaN result; an exact zero sum of non-zero or opposite-signed
operands is +0.0 (log 13). -/
def addWith (nan a b : F64) : F64 :=
  if isNan a || isNan b then nan
  else if isInf a then (if isInf b && (signBit a != signBit b) then nan else a)
  else if isInf b then b
  else
    let n := units a + units b
    if n = 0 then pack (signBit a && signBit b) 0 else roundUnits (decide (n < 0)) n.natAbs 1

/-- `fadd(a, b)` (00_scope.md R8). -/
def fadd (a b : F64) : F64 := addWith (nanOf .add a b) a b

/-- `fsub(a, b)` (00_scope.md R8). -/
def fsub (a b : F64) : F64 := addWith (nanOf .sub a b) a (fneg b)

/-- `fmul(a, b)` (00_scope.md R8). -/
def fmul (a b : F64) : F64 :=
  let neg := signBit a != signBit b
  if isNan a || isNan b then nanOf .mul a b
  else if isInf a || isInf b then (if isZero a || isZero b then nanOf .mul a b else pack neg infMagnitude)
  else roundUnits neg (unitsMag a * unitsMag b) (2 ^ 1074)

/-- `fdiv(a, b)` (00_scope.md R8). -/
def fdiv (a b : F64) : F64 :=
  let neg := signBit a != signBit b
  if isNan a || isNan b then nanOf .div a b
  else if isInf a then (if isInf b then nanOf .div a b else pack neg infMagnitude)
  else if isInf b then pack neg 0
  else if isZero b then (if isZero a then nanOf .div a b else pack neg infMagnitude)
  else roundUnits neg (unitsMag a * 2 ^ 1074) (unitsMag b)

/-- A whole number in the order of the values of non-NaN patterns, the two zeros equal. -/
def orderKey (x : F64) : Int := if signBit x then -(magnitude x : Int) else (magnitude x : Int)

/-- `flt(a, b)`: a < b, false when either is NaN (00_scope.md R8). -/
def flt (a b : F64) : Bool := !isNan a && !isNan b && decide (orderKey a < orderKey b)

/-- `fgt(a, b)`: a > b, false when either is NaN (00_scope.md R8). -/
def fgt (a b : F64) : Bool := flt b a

/-- The point of the list whose argument is `w`, if any (log 3). -/
def trigPoint (P : Params) (w : F64) : Option TrigPoint := P.trig.find? (fun p => decide (p.arg = w))

/-- `SIN(w)` (00_scope.md R5, R8; log 3). -/
def sinOf (P : Params) (w : F64) : F64 :=
  match trigPoint P w with
  | some p => p.sin
  | none => Config.sinRest w

/-- `COS(w)` (00_scope.md R5, R8; log 3). -/
def cosOf (P : Params) (w : F64) : F64 :=
  match trigPoint P w with
  | some p => p.cos
  | none => Config.cosRest w

end Sys2Proof.Machine
end

