-- ==== Sys2Proof/Machine/State.lean ====
section
/-! DEFINITION. The state of the block, its faults, what the outside world can do to it, and the state after
power-on reset (10_state.md R20 to R43, 20_memory.md R50 to R53, 60_exceptions.md R181, R187). -/

namespace Sys2Proof.Machine

/-- The result codes of STATUS.ERR; no other code is ever written (60_exceptions.md R181). -/
inductive ErrCode where
  | ok
  | invalidFilterParameters
  | invalidAudioFormat
  | notConfigured
  | channelRange
  | capacity
  | invalidSample
  | illegalCommand
deriving DecidableEq, Repr

/-- The coefficient cells C[0] to C[4] (10_state.md R38). -/
structure Coeffs where
  c0 : F64
  c1 : F64
  c2 : F64
  c3 : F64
  c4 : F64
deriving DecidableEq, Repr

/-- The delay line of one channel: x[n-1], x[n-2], y[n-1], y[n-2] (10_state.md R40). -/
structure DelayLine where
  x1 : F64
  x2 : F64
  y1 : F64
  y2 : F64
deriving DecidableEq, Repr

/-- +0.0. -/
def zeroF : F64 := 0x0000000000000000#64

/-- A cleared delay line (10_state.md R34, 40_biquad.md R107). -/
def DelayLine.zero : DelayLine := ⟨zeroF, zeroF, zeroF, zeroF⟩

/-- A memory of cells: (index, value) pairs, indices strictly rising (`Memory.wf`); an index that is not listed
is a cell that holds no value (20_memory.md R61). A `Memory Byte` is a list of `Host.Cell`. -/
abbrev Memory (α : Type) := List (Nat × α)

/-- A host access (20_memory.md R57 to R60). -/
inductive HostAccess where
  | regRead32 (o : Nat)
  | regWrite32 (o : Nat) (v : Word)
  | regRead64 (o : Nat)
  | regWrite64 (o : Nat) (v : F64)
  /-- A register read or write of a width other than 32 or 64 bits (20_memory.md R57). -/
  | regOther (write : Bool) (bits o : Nat)
  | planeWrite (j i : Nat) (v : F64)
  | planeRead (j i : Nat)
  | ilvWrite (k : Nat) (v : F64)
  | ilvRead (k : Nat)
  | outRead (b : Nat)
deriving DecidableEq, Repr

/-- What the outside world does next (log 8). -/
inductive Event where
  /-- One host access. -/
  | access (a : HostAccess)
  /-- The `poll` of 30_encoding.md R90: read STATUS until BUSY = 0 (log 9). -/
  | poll
  /-- Power-on reset, from the environment (70_reset_and_hazards.md R200, R202; log 17). -/
  | powerOn
deriving DecidableEq, Repr

/-- What a host read returns (20_memory.md R59, R60). -/
inductive Datum where
  | word (v : Word)
  | cell (v : F64)
  | byte (v : Byte)
deriving DecidableEq, Repr

/-- The state: everything 10_state.md R20 and R34 list, then the model's own fields. -/
structure State where
  argF0 : F64
  argQ : F64
  argFs : F64
  argX : F64
  resY : F64
  argNframes : Word
  argNch : Word
  argRate : Word
  ilvLen : Word
  outLen : Word
  coef : Coeffs
  configured : Bool
  err : ErrCode
  /-- The BUSY window (10_state.md R26): none when closed; `some n` when open, with `n` more STATUS reads that
  return BUSY = 1 before the one that returns BUSY = 0 (log 5). -/
  busy : Option Nat
  /-- The delay lines, channel 0 first (10_state.md R40); NCH_MAX of them (log 16). -/
  delay : List DelayLine
  /-- PLANE: cell (j, i) at index `planeIndex j i` (20_memory.md R51, log 12). -/
  plane : Memory F64
  /-- ILV (20_memory.md R52). -/
  ilv : Memory F64
  /-- OUT (20_memory.md R53). -/
  out : Memory Byte
  /-- The parameters of 00_scope.md R5 (log 1): the model's own field. -/
  params : Params
  /-- What the outside world still does, oldest first (log 8): the model's own field. -/
  pending : List Event
  /-- What host reads returned, newest first (log 10): the model's own field. -/
  returned : List Datum
  /-- How many free values have been drawn (log 19): the model's own field. -/
  draws : Nat
deriving DecidableEq, Repr

/-- The model faults (60_exceptions.md R186, R187): the run stops where the spec assigns the hardware no meaning. -/
inductive Fault where
  /-- Raised by a host register access of a width, alignment or offset that 20_memory.md R57 does not admit, and by
  a host memory primitive with an index out of range (20_memory.md R60). Safe. -/
  | badAccess
  /-- Raised by a read, by the host, ILV_RUN or WAV_ENC, of a cell that holds no value (20_memory.md R62). Safe. -/
  | uninitRead
  /-- Raised by a host access other than a STATUS read in the BUSY window (70_reset_and_hazards.md R207). Safe. -/
  | hostHazard
deriving DecidableEq, Repr

/-- Why a command has no meaning. -/
inductive Refusal where
  /-- Raised by `exec` for a command that is not modelled yet; no arm does. Safe. -/
  | notModelled (mnemonic : String)
deriving DecidableEq, Repr

/-- The outcome of a step of this machine. -/
abbrev Result := Host.Outcome State Fault Refusal

/-- The power-on state of 10_state.md R34 for given parameters, with nothing pending. -/
def State.resetWith (P : Params) : State where
  argF0 := 0x409F400000000000#64
  argQ := 0x3FF0000000000000#64
  argFs := 0x40CF400000000000#64
  argX := zeroF
  resY := zeroF
  argNframes := 0#32
  argNch := 1#32
  argRate := 0x00003E80#32
  ilvLen := 0#32
  outLen := 0#32
  coef := ⟨zeroF, zeroF, zeroF, zeroF, zeroF⟩
  configured := false
  err := .ok
  busy := none
  delay := List.replicate P.nchMax DelayLine.zero
  plane := []
  ilv := []
  out := []
  params := P
  pending := []
  returned := []
  draws := 0

/-- The machine after power-on reset (10_state.md R34, 70_reset_and_hazards.md R200), its parameters free (log 1). -/
def State.reset : State := State.resetWith Config.params

end Sys2Proof.Machine
end

