-- ==== Sys2Proof/Machine/Ops.lean ====
section
/-! DEFINITION. The named operations over memories, delay lines and the outcome of a command (00_scope.md R10 to R12,
20_memory.md R50 to R63, 60_exceptions.md R180 to R184). -/

namespace Sys2Proof.Machine

/-- The canonical form of a memory: indices strictly rising. A listed cell always holds a value, so no entry equals
what an unlisted index reads as. -/
abbrev Memory.wf {α : Type} (m : Memory α) : Prop := m.Pairwise (fun a b => a.1 < b.1)

/-- The cell at index `a`, none where it holds no value (20_memory.md R61). -/
def Memory.read {α : Type} : Memory α → Nat → Option α
  | [], _ => none
  | (k, v) :: m, a => if k = a then some v else Memory.read m a

/-- Writes `v` to the cell at index `a` and no other (20_memory.md R61). -/
def Memory.write {α : Type} : Memory α → Nat → α → Memory α
  | [], a, v => [(a, v)]
  | (k, w) :: m, a, v =>
    if a < k then (a, v) :: (k, w) :: m
    else if a = k then (a, v) :: m
    else (k, w) :: Memory.write m a v

/-- Writes a list of cells, first to last. -/
def Memory.writeAll {α : Type} (m : Memory α) (cells : List (Nat × α)) : Memory α :=
  cells.foldl (fun m c => Memory.write m c.1 c.2) m

/-- Where cell (j, i) of PLANE stands in `State.plane`; a channel index is below 256 (20_memory.md R51, log 12). -/
def planeIndex (j i : Nat) : Nat := i * 256 + j

/-- The cells that `MemWrite(OUT, b, n, v)` writes: byte b + m receives bits 8m+7 to 8m of v (00_scope.md R10,
20_memory.md R54). -/
def outCells (b n v : Nat) : List (Nat × Byte) :=
  (List.range n).map (fun m => (b + m, BitVec.ofNat 8 (v / 2 ^ (8 * m))))

/-- The delay line of a channel (10_state.md R40, log 16). -/
def readDelay (s : State) (ch : Nat) : DelayLine := s.delay.getD ch DelayLine.zero

/-- Writes the delay line of a channel and no other (10_state.md R40). -/
def writeDelay (s : State) (ch : Nat) (d : DelayLine) : State := { s with delay := s.delay.set ch d }

/-- `raise Error(CODE)`, the one way a command fails: it writes STATUS.ERR and nothing else (00_scope.md R11,
60_exceptions.md R180, R183). There is no return from an error (60_exceptions.md R184). -/
def raiseError (s : State) (e : ErrCode) : State := { s with err := e }

/-- `succeed`: STATUS.ERR ← 0 after the writes of the command (00_scope.md R11, 10_state.md R27). -/
def succeed (s : State) : State := { s with err := .ok }

/-- A CMD write opens the BUSY window, its length free (10_state.md R24, R26; log 5). -/
def startCommand (s : State) : State :=
  { s with busy := some (Config.busyReads s.draws), draws := s.draws + 1 }

/-- A host read returns `d` to the host. -/
def returnDatum (s : State) (d : Datum) : State := { s with returned := d :: s.returned }

/-- Power-on reset at any time: the power-on state of 10_state.md R34, the parameters and what lies outside the block
(log 17) kept. -/
def powerOnReset (s : State) : State :=
  { State.resetWith s.params with pending := s.pending, returned := s.returned, draws := s.draws }

end Sys2Proof.Machine
end

