-- ==== Sys2Proof/Machine/Biquad.lean ====
section
/-! DEFINITION. The biquad stage: BQ_CFG, BQ_RST, BQ_PROC (40_biquad.md R100 to R113). -/

namespace Sys2Proof.Machine

/-- 2.0. -/
def twoF : F64 := 0x4000000000000000#64

/-- -2.0. -/
def negTwoF : F64 := 0xC000000000000000#64

/-- PI, the binary64 value nearest π (40_biquad.md R101). -/
def piF : F64 := 0x400921FB54442D18#64

/-- ω, sin ω, cos ω and α (40_biquad.md R101). -/
structure Design where
  w : F64
  s : F64
  c : F64
  alpha : F64
deriving DecidableEq, Repr

/-- b0, b1, b2, a0, a1, a2: intermediate values of BQ_CFG, not state (10_state.md R38, 40_biquad.md R102). -/
structure Unnormalised where
  b0 : F64
  b1 : F64
  b2 : F64
  a0 : F64
  a1 : F64
  a2 : F64
deriving DecidableEq, Repr

/-- The design quantities in the order of 40_biquad.md R101. -/
def design (P : Params) (f0 q fs : F64) : Design :=
  let w := fdiv (fmul (fmul twoF piF) f0) fs
  let s := sinOf P w
  { w := w, s := s, c := cosOf P w, alpha := fdiv s (fmul twoF q) }

/-- The unnormalised coefficients (40_biquad.md R102). -/
def unnormalised (P : Params) (q alpha c : F64) : Unnormalised :=
  let b0 :=
    match P.bpVariant with
    | .peak0dB => alpha
    | .skirt => fmul q alpha
  { b0 := b0, b1 := zeroF, b2 := fneg b0, a0 := fadd oneF alpha, a1 := fmul negTwoF c, a2 := fsub oneF alpha }

/-- The five quotients (40_biquad.md R103). -/
def normalised (u : Unnormalised) : Coeffs where
  c0 := fdiv u.b0 u.a0
  c1 := fdiv u.b1 u.a0
  c2 := fdiv u.b2 u.a0
  c3 := fdiv u.a1 u.a0
  c4 := fdiv u.a2 u.a0

/-- Whether all five coefficients are finite (40_biquad.md R105 (f)). -/
def coeffsFinite (n : Coeffs) : Bool :=
  isFinite n.c0 && isFinite n.c1 && isFinite n.c2 && isFinite n.c3 && isFinite n.c4

/-- Checks (a) to (d) of 40_biquad.md R105 pass. -/
def paramsPass (f0 q fs : F64) : Bool :=
  isFinite f0 && isFinite q && isFinite fs && fgt q zeroF && fgt f0 zeroF && fgt fs (fmul twoF f0)

/-- The coefficients of `configure(f0, q, fs)`, none where a check of 40_biquad.md R105 fails. -/
def configureCoeffs (P : Params) (f0 q fs : F64) : Option Coeffs :=
  if paramsPass f0 q fs then
    let d := design P f0 q fs
    if fgt d.alpha zeroF then
      let n := normalised (unnormalised P q d.alpha d.c)
      if coeffsFinite n then some n else none
    else none
  else none

/-- BQ_CFG (40_biquad.md R104): on success C[0..4] and CONFIGURED; else INVALID_FILTER_PARAMETERS and no other effect. -/
def execBqCfg (s : State) : Result :=
  .next
    (match configureCoeffs s.params s.argF0 s.argQ s.argFs with
    | some n => succeed { s with coef := n, configured := true }
    | none => raiseError s .invalidFilterParameters)

/-- BQ_RST (40_biquad.md R107): every delay cell of every channel to +0.0. -/
def execBqRst (s : State) : Result :=
  .next (succeed { s with delay := List.replicate s.params.nchMax DelayLine.zero })

/-- The difference equation, one rounding per operation, in the order of 40_biquad.md R109. -/
def biquadEval (n : Coeffs) (x x1 x2 y1 y2 : F64) : F64 :=
  let p0 := fmul n.c0 x
  let p1 := fmul n.c1 x1
  let p2 := fmul n.c2 x2
  let p3 := fmul n.c3 y1
  let p4 := fmul n.c4 y2
  fsub (fsub (fadd (fadd p0 p1) p2) p3) p4

/-- The delay line after one sample (40_biquad.md R110). -/
def delayUpdate (d : DelayLine) (x y : F64) : DelayLine where
  x1 := x
  x2 := d.x1
  y1 := y
  y2 := d.y1

/-- The effect of BQ_PROC once its checks have passed (40_biquad.md R108). -/
def processSample (s : State) (ch : Nat) : State :=
  let d := readDelay s ch
  let y := biquadEval s.coef s.argX d.x1 d.x2 d.y1 d.y2
  succeed { writeDelay s ch (delayUpdate d s.argX y) with resY := y }

/-- BQ_PROC (40_biquad.md R108): CHANNEL_RANGE, then NOT_CONFIGURED, then the sample. -/
def execBqProc (ch : Nat) (s : State) : Result :=
  .next
    (if s.params.nchMax ≤ ch then raiseError s .channelRange
    else if s.configured = false then raiseError s .notConfigured
    else processSample s ch)

end Sys2Proof.Machine
end

