-- ==== Sys2Proof/Machine/Interleaver.lean ====
section
/-! DEFINITION. The channel interleaver: ILV_RUN (41_interleaver.md R140 to R143). -/

namespace Sys2Proof.Machine

/-- The first failing check of ILV_RUN, if any (41_interleaver.md R141). -/
def ilvChecks (P : Params) (F Cn : Nat) : Option ErrCode :=
  if Cn = 0 then some .invalidAudioFormat
  else if P.nchMax < Cn then some .capacity
  else if P.framesMax < F then some .capacity
  else none

/-- The (channel, frame) pairs of the nested loops of 41_interleaver.md R140, in that order. -/
def frameMajor (F Cn : Nat) : List (Nat × Nat) :=
  (List.range F).flatMap (fun i => (List.range Cn).map (fun j => (j, i)))

/-- One turn of the loop of 41_interleaver.md R140: the ILV cell (i × Cn + j, PLANE (j, i)), none where that PLANE cell
holds no value. -/
def interleaveCell (plane : Memory F64) (Cn : Nat) (p : Nat × Nat) : Option (Nat × F64) :=
  (Memory.read plane (planeIndex p.1 p.2)).map (fun v => (p.2 * Cn + p.1, v))

/-- All the ILV cells that ILV_RUN writes, none where it reads a PLANE cell that holds no value. -/
def interleaveCells (plane : Memory F64) (F Cn : Nat) : Option (List (Nat × F64)) :=
  (frameMajor F Cn).mapM (interleaveCell plane Cn)

/-- ILV_RUN (41_interleaver.md R140). `u32(F * Cn)` is defined once the checks pass (41_interleaver.md R141). -/
def execIlvRun (s : State) : Result :=
  let F := s.argNframes.toNat
  let Cn := s.argNch.toNat
  match ilvChecks s.params F Cn with
  | some e => .next (raiseError s e)
  | none =>
    match interleaveCells s.plane F Cn with
    | none => .fault .uninitRead
    | some cells =>
      .next (succeed { s with ilv := Memory.writeAll s.ilv cells, ilvLen := BitVec.ofNat 32 (F * Cn) })

end Sys2Proof.Machine
end

