-- ==== Sys2Proof/Machine/WavEncoder.lean ====
section
/-! DEFINITION. The WAV PCM encoder: WAV_ENC (42_wav_encoder.md R150 to R161). -/

namespace Sys2Proof.Machine

/-- Checks 1 to 5 of 42_wav_encoder.md R151: the first that fails, if any. -/
def wavChecks (P : Params) (N Cn Rate : Nat) : Option ErrCode :=
  if Cn = 0 ∨ Rate = 0 then some .invalidAudioFormat
  else if 32767 < Cn then some .invalidAudioFormat
  else if 2 ^ 32 - 1 < Rate * Cn * 2 then some .invalidAudioFormat
  else if N % Cn ≠ 0 then some .invalidAudioFormat
  else if P.ilvMax < N then some .capacity
  else none

/-- The header writes of 42_wav_encoder.md R153 as (offset, bytes, value). -/
def headerFields (N Cn Rate : Nat) : List (Nat × Nat × Nat) :=
  [ (0, 4, 0x46464952),
    (4, 4, 36 + 2 * N),
    (8, 4, 0x45564157),
    (12, 4, 0x20746D66),
    (16, 4, 16),
    (20, 2, 1),
    (22, 2, Cn),
    (24, 4, Rate),
    (28, 4, Rate * Cn * 2),
    (32, 2, Cn * 2),
    (34, 2, 16),
    (36, 4, 0x61746164),
    (40, 4, 2 * N) ]

/-- The OUT cells that `write_header` writes (42_wav_encoder.md R152, R153). -/
def headerCells (N Cn Rate : Nat) : List (Nat × Byte) :=
  (headerFields N Cn Rate).flatMap (fun f => outCells f.1 f.2.1 f.2.2)

/-- -1.0. -/
def negOneF : F64 := 0xBFF0000000000000#64

/-- 32767.0 (42_wav_encoder.md R155). -/
def scaleF : F64 := 0x40DFFFC000000000#64

/-- The clamp to [-1.0, 1.0] (42_wav_encoder.md R154). -/
def clamp (s : F64) : F64 :=
  if fgt s oneF then oneF
  else if flt s negOneF then negOneF
  else s

/-- The nearest integer to `t` units of 2^-1074, ties by the mode (42_wav_encoder.md R155). -/
def roundInt (mode : TieMode) (t : Int) : Int :=
  let m := t / 2 ^ 1074
  let d := t % 2 ^ 1074
  if 2 * d < 2 ^ 1074 then m
  else if 2 ^ 1074 < 2 * d then m + 1
  else
    match mode with
    | .away => if 0 < t then m + 1 else m
    | .posInf => m + 1
    | .even => if m % 2 = 0 then m else m + 1

/-- `quantize(s)` (42_wav_encoder.md R155). -/
def quantize (P : Params) (s : F64) : Int := roundInt P.tieMode (units (fmul (clamp s) scaleF))

/-- `s16(q)`: the 16-bit two's-complement pattern (00_scope.md R7). -/
def s16 (q : Int) : BitVec 16 := BitVec.ofInt 16 q

/-- The OUT cells that `write_samples` writes: sample k at 44 + 2k, in ILV index order (42_wav_encoder.md R156). -/
def sampleCells (P : Params) (S : List F64) : List (Nat × Byte) :=
  S.zipIdx.flatMap (fun p => outCells (44 + 2 * p.2) 2 (s16 (quantize P p.1)).toNat)

/-- ILV[0 .. N-1], none where a cell holds no value (42_wav_encoder.md R151 check 6). -/
def ilvSamples (ilv : Memory F64) (N : Nat) : Option (List F64) := (List.range N).mapM (Memory.read ilv)

/-- `u32(44 + 2*N)` (42_wav_encoder.md R157); a free value where the length does not fit 32 bits (log 7). -/
def outLength (s : State) (N : Nat) : Word :=
  if 44 + 2 * N < 2 ^ 32 then BitVec.ofNat 32 (44 + 2 * N) else Config.outLenDraw s.draws

/-- WAV_ENC (42_wav_encoder.md R158). -/
def execWavEnc (s : State) : Result :=
  let N := s.ilvLen.toNat
  let Rate := s.argRate.toNat
  let Cn := s.argNch.toNat
  match wavChecks s.params N Cn Rate with
  | some e => .next (raiseError s e)
  | none =>
    match ilvSamples s.ilv N with
    | none => .fault .uninitRead
    | some S =>
      .next
        (if S.any isNan then raiseError s .invalidSample
        else
          succeed
            { s with
              out := Memory.writeAll s.out (headerCells N Cn Rate ++ sampleCells s.params S)
              outLen := outLength s N })

end Sys2Proof.Machine
end

