-- ==== Sys2Proof/Machine/Dispatch.lean ====
section
/-! DEFINITION. The meaning of each command (30_encoding.md R81). -/

namespace Sys2Proof.Machine

def exec (i : Instr) (s : State) : Host.Outcome State Fault Refusal :=
  match i with
  | .bqCfg => Sys2Proof.Machine.execBqCfg s
  | .bqRst => Sys2Proof.Machine.execBqRst s
  | .bqProc ch => Sys2Proof.Machine.execBqProc ch s
  | .ilvRun => Sys2Proof.Machine.execIlvRun s
  | .wavEnc => Sys2Proof.Machine.execWavEnc s

end Sys2Proof.Machine
end

