-- ==== Sys2Proof/Machine/Flags.lean ====
section
/-! DEFINITION. The STATUS register: its fields and the effect of reading it (10_state.md R25 to R28). The block has no
condition codes (10_state.md R42). -/

namespace Sys2Proof.Machine

/-- The ERR code (60_exceptions.md R181). -/
def ErrCode.code : ErrCode → BitVec 8
  | .ok => 0
  | .invalidFilterParameters => 1
  | .invalidAudioFormat => 2
  | .notConfigured => 3
  | .channelRange => 4
  | .capacity => 5
  | .invalidSample => 6
  | .illegalCommand => 7

/-- One bit. -/
def bit (b : Bool) : BitVec 1 := if b then 1 else 0

/-- The STATUS word: BUSY bit 0, CONFIGURED bit 1, ERR bits 15:8, the reserved bits 0 (10_state.md R25, R28). -/
def statusWord (busy configured : Bool) (err : BitVec 8) : Word :=
  0#16 ++ (err ++ (0#6 ++ (bit configured ++ bit busy)))

/-- A read of STATUS (10_state.md R26, 20_memory.md R59): BUSY = 1 with a free ERR while the drawn reads last, then
BUSY = 0, which ends the window. -/
def statusRead (s : State) : Word × State :=
  match s.busy with
  | some (n + 1) =>
    (statusWord true s.configured (Config.errDraw s.draws), { s with busy := some n, draws := s.draws + 1 })
  | some 0 => (statusWord false s.configured s.err.code, { s with busy := none })
  | none => (statusWord false s.configured s.err.code, s)

end Sys2Proof.Machine
end

