-- ==== Sys2Proof/Machine/Operands.lean ====
section
/-! DEFINITION. The host register map and the halves of 64-bit registers (10_state.md R23, R37; 20_memory.md R55, R57
to R59). -/

namespace Sys2Proof.Machine

/-- The 32-bit registers that hold state (10_state.md R23). -/
inductive Reg32 where
  | argNframes
  | argNch
  | argRate
  | ilvLen
  | outLen
deriving DecidableEq, Repr

/-- The 64-bit registers (10_state.md R23). -/
inductive Reg64 where
  | argF0
  | argQ
  | argFs
  | argX
  | resY
  | coefC0
  | coefC1
  | coefC2
  | coefC3
  | coefC4
deriving DecidableEq, Repr

/-- What a 32-bit access reaches (20_memory.md R58, R59). -/
inductive Slot32 where
  | cmd
  | status
  | reg (r : Reg32)
  | low (r : Reg64)
  | high (r : Reg64)
  | reserved
deriving DecidableEq, Repr

/-- The 64-bit register at an offset (10_state.md R23). -/
def reg64At : Nat → Option Reg64
  | 0x08 => some .argF0
  | 0x10 => some .argQ
  | 0x18 => some .argFs
  | 0x20 => some .argX
  | 0x28 => some .resY
  | 0x48 => some .coefC0
  | 0x50 => some .coefC1
  | 0x58 => some .coefC2
  | 0x60 => some .coefC3
  | 0x68 => some .coefC4
  | _ => none

/-- What the 32-bit access at an aligned offset below 0x100 reaches: a 32-bit register of 10_state.md R23, a half of a
64-bit one (20_memory.md R55), or a reserved offset (10_state.md R37). -/
def slotAligned : Nat → Slot32
  | 0x00 => .cmd
  | 0x04 => .status
  | 0x30 => .reg .argNframes
  | 0x34 => .reg .argNch
  | 0x38 => .reg .argRate
  | 0x3C => .reg .ilvLen
  | 0x40 => .reg .outLen
  | o =>
    match reg64At o with
    | some r => .low r
    | none =>
      match reg64At (o - 4) with
      | some r => .high r
      | none => .reserved

/-- What a 32-bit access at offset `o` reaches; none is the model fault BAD_ACCESS (20_memory.md R57). -/
def slot32At (o : Nat) : Option Slot32 :=
  if o % 4 = 0 ∧ o < 0x100 then some (slotAligned o) else none

/-- Reads a 32-bit register. -/
def readReg32 (s : State) : Reg32 → Word
  | .argNframes => s.argNframes
  | .argNch => s.argNch
  | .argRate => s.argRate
  | .ilvLen => s.ilvLen
  | .outLen => s.outLen

/-- A host write to a 32-bit register; OUT_LEN is read-only, so ignored (20_memory.md R58). -/
def writeReg32 (s : State) : Reg32 → Word → State
  | .argNframes, v => { s with argNframes := v }
  | .argNch, v => { s with argNch := v }
  | .argRate, v => { s with argRate := v }
  | .ilvLen, v => { s with ilvLen := v }
  | .outLen, _ => s

/-- Reads a 64-bit register. -/
def readReg64 (s : State) : Reg64 → F64
  | .argF0 => s.argF0
  | .argQ => s.argQ
  | .argFs => s.argFs
  | .argX => s.argX
  | .resY => s.resY
  | .coefC0 => s.coef.c0
  | .coefC1 => s.coef.c1
  | .coefC2 => s.coef.c2
  | .coefC3 => s.coef.c3
  | .coefC4 => s.coef.c4

/-- A host write to a 64-bit register; RES_Y and COEF_C0 to COEF_C4 are read-only, so ignored (20_memory.md R58). -/
def writeReg64 (s : State) : Reg64 → F64 → State
  | .argF0, v => { s with argF0 := v }
  | .argQ, v => { s with argQ := v }
  | .argFs, v => { s with argFs := v }
  | .argX, v => { s with argX := v }
  | .resY, _ => s
  | .coefC0, _ => s
  | .coefC1, _ => s
  | .coefC2, _ => s
  | .coefC3, _ => s
  | .coefC4, _ => s

/-- Bits 31:0 of a 64-bit register (20_memory.md R55). -/
def lowHalf (x : F64) : Word := x.extractLsb' 0 32

/-- Bits 63:32 of a 64-bit register (20_memory.md R55). -/
def highHalf (x : F64) : Word := x.extractLsb' 32 32

/-- `cat(hi, lo)` (00_scope.md R6). -/
def catHalves (hi lo : Word) : F64 := hi ++ lo

end Sys2Proof.Machine
end

