-- ==== Sys2Proof/Machine/HostPort.lean ====
section
/-! DEFINITION. The host interface: register accesses, memory primitives, the BUSY hazard and how a command word is
taken from CMD (20_memory.md R57 to R62, 70_reset_and_hazards.md R207, 30_encoding.md R85, R86). -/

namespace Sys2Proof.Machine

/-- A host write of `w` to CMD (10_state.md R24): the BUSY window opens, and the word runs as the command it decodes to
or raises ILLEGAL_COMMAND (30_encoding.md R85, R86). -/
def commandWrite (w : Word) (s : State) : Result :=
  match decode w with
  | .ok i => exec i (startCommand s)
  | .error _ => .next (raiseError (startCommand s) .illegalCommand)

/-- `RegRead32(o)` at a slot (20_memory.md R59). -/
def slotRead (s : State) : Slot32 → State
  | .cmd => returnDatum s (.word 0#32)
  | .status => returnDatum (statusRead s).2 (.word (statusRead s).1)
  | .reg r => returnDatum s (.word (readReg32 s r))
  | .low r => returnDatum s (.word (lowHalf (readReg64 s r)))
  | .high r => returnDatum s (.word (highHalf (readReg64 s r)))
  | .reserved => returnDatum s (.word 0#32)

/-- `RegWrite32(o, v)` at a slot (20_memory.md R58). -/
def slotWrite (s : State) (v : Word) : Slot32 → Result
  | .cmd => commandWrite v s
  | .status => .next s
  | .reg r => .next (writeReg32 s r v)
  | .low r => .next (writeReg64 s r (catHalves (highHalf (readReg64 s r)) v))
  | .high r => .next (writeReg64 s r (catHalves v (lowHalf (readReg64 s r))))
  | .reserved => .next s

/-- A read of a memory cell: BAD_ACCESS out of range (20_memory.md R60), UNINIT_READ where it holds no value (R62). -/
def cellRead (s : State) (inRange : Bool) (d : Option Datum) : Result :=
  if inRange then
    match d with
    | some d => .next (returnDatum s d)
    | none => .fault .uninitRead
  else .fault .badAccess

/-- (j, i) is a cell of PLANE (20_memory.md R60). -/
def planeInRange (s : State) (j i : Nat) : Bool :=
  decide (j < s.params.nchMax) && decide (i < s.params.framesMax)

/-- What a host access does outside the BUSY window (20_memory.md R57 to R60). -/
def accessEffect (a : HostAccess) (s : State) : Result :=
  match a with
  | .regRead32 o =>
    match slot32At o with
    | some r => .next (slotRead s r)
    | none => .fault .badAccess
  | .regWrite32 o v =>
    match slot32At o with
    | some r => slotWrite s v r
    | none => .fault .badAccess
  | .regRead64 o =>
    match reg64At o with
    | some r => .next (returnDatum s (.cell (readReg64 s r)))
    | none => .fault .badAccess
  | .regWrite64 o v =>
    match reg64At o with
    | some r => .next (writeReg64 s r v)
    | none => .fault .badAccess
  | .regOther _ _ _ => .fault .badAccess
  | .planeWrite j i v =>
    if planeInRange s j i then .next { s with plane := Memory.write s.plane (planeIndex j i) v }
    else .fault .badAccess
  | .planeRead j i => cellRead s (planeInRange s j i) ((Memory.read s.plane (planeIndex j i)).map Datum.cell)
  | .ilvWrite k v =>
    if k < s.params.ilvMax then .next { s with ilv := Memory.write s.ilv k v }
    else .fault .badAccess
  | .ilvRead k => cellRead s (decide (k < s.params.ilvMax)) ((Memory.read s.ilv k).map Datum.cell)
  | .outRead b => cellRead s (decide (b < s.params.outMax)) ((Memory.read s.out b).map Datum.byte)

/-- A STATUS read is the 32-bit read at 0x04 (10_state.md R25). -/
def isStatusRead : HostAccess → Bool
  | .regRead32 o => decide (o = 0x04)
  | _ => false

/-- One host access: HOST_HAZARD in the BUSY window unless it is a STATUS read (70_reset_and_hazards.md R207;
log 11). -/
def hostAccess (a : HostAccess) (s : State) : Result :=
  if s.busy.isSome && !isStatusRead a then .fault .hostHazard
  else accessEffect a s

/-- One turn of `poll` (30_encoding.md R90): a STATUS read, and again while it returns BUSY = 1. -/
def pollTurn (s : State) : State :=
  let t := slotRead s .status
  if (statusRead s).1.getLsbD 0 then { t with pending := .poll :: t.pending } else t

/-- What the outside world does next (log 8). -/
def eventEffect (e : Event) (s : State) : Result :=
  match e with
  | .access a => hostAccess a s
  | .poll => .next (pollTurn s)
  | .powerOn => .next (powerOnReset s)

/-- Takes the oldest pending event; with none, the block waits (70_reset_and_hazards.md R200). -/
def takeEvent (s : State) : Result :=
  match s.pending with
  | [] => .next s
  | e :: rest => eventEffect e { s with pending := rest }

/-- Puts the write of a command word to CMD first among the pending events, with no BUSY window open (log 8). -/
def placeCommand (s : State) (w : Word) : State :=
  { s with pending := .access (.regWrite32 0x00 w) :: s.pending, busy := none }

end Sys2Proof.Machine
end

