-- ==== Sys2Proof/Machine/Step.lean ====
section
/-! DEFINITION. One step of the machine: the next thing the outside world does to the block. -/

namespace Sys2Proof.Machine

/-- One step (20_memory.md R69: one host access or command at a time, in the host's order). -/
def step (s : State) : Host.Outcome State Fault Refusal := takeEvent s

/-- `s` with the command of word `w` as the next thing to run: the block fetches nothing (10_state.md R21), so it is
the write of `w` to CMD that is placed (log 8). -/
def State.withFetchWord (s : State) (nbits w : Nat) : State :=
  placeCommand s (BitVec.ofNat 32 (w % 2 ^ nbits))

end Sys2Proof.Machine
end

