-- ==== Sys2Proof/Machine/Pseudo.lean ====
section
/-! DEFINITION. The pseudo-instructions of the host-program notation and their expansions (30_encoding.md R89, R90). -/

namespace Sys2Proof.Machine

/-- `wr32 NAME, v` for the register at offset `o` (30_encoding.md R89). -/
def wr32 (o : Nat) (v : Word) : Event := .access (.regWrite32 o v)

/-- `wr64 NAME, v` for the register at offset `o` (30_encoding.md R89). -/
def wr64 (o : Nat) (v : F64) : Event := .access (.regWrite64 o v)

/-- `bq.cfg`. -/
def pseudoBqCfg : Event := wr32 0x00 0x00000001#32

/-- `bq.rst`. -/
def pseudoBqRst : Event := wr32 0x00 0x00000002#32

/-- `bq.proc ch`: `wr32 CMD, (ch << 8) | 0x03`. -/
def pseudoBqProc (ch : Nat) : Event := wr32 0x00 ((BitVec.ofNat 32 ch <<< 8) ||| 0x03#32)

/-- `ilv.run`. -/
def pseudoIlvRun : Event := wr32 0x00 0x00000010#32

/-- `wav.enc`. -/
def pseudoWavEnc : Event := wr32 0x00 0x00000020#32

/-- `CFG f0, q, fs`. -/
def pseudoCfg (f0 q fs : F64) : List Event := [wr64 0x08 f0, wr64 0x10 q, wr64 0x18 fs, pseudoBqCfg, .poll]

/-- `RST`. -/
def pseudoRst : List Event := [pseudoBqRst, .poll]

/-- `PROC ch, x`. -/
def pseudoProc (ch : Nat) (x : F64) : List Event :=
  [wr64 0x20 x, pseudoBqProc ch, .poll, .access (.regRead64 0x28)]

/-- `ILV f, c`. -/
def pseudoIlv (f c : Word) : List Event := [wr32 0x30 f, wr32 0x34 c, pseudoIlvRun, .poll]

/-- `ENC rate, c`. -/
def pseudoEnc (rate c : Word) : List Event := [wr32 0x38 rate, wr32 0x34 c, pseudoWavEnc, .poll]

end Sys2Proof.Machine
end

