-- ==== Sys2Proof/Safety.lean ====
section
/-! DEFINITION. What counts as a sound state and a safe step, and the terms the statements use. -/

namespace Sys2Proof.Machine

/-- The step completes: no model fault and no refusal. -/
def StepSafe (s : State) : Prop := ∃ t, step s = .next t

/-- The memories are in canonical form and hold values only at cells that exist (20_memory.md R50 to R53). -/
structure MemoryInv (s : State) : Prop where
  planeWf : Memory.wf s.plane
  ilvWf : Memory.wf s.ilv
  outWf : Memory.wf s.out
  planeCells : ∀ c ∈ s.plane, c.1 % 256 < s.params.nchMax ∧ c.1 / 256 < s.params.framesMax
  ilvCells : ∀ c ∈ s.ilv, c.1 < s.params.ilvMax
  outCells : ∀ c ∈ s.out, c.1 < s.params.outMax

/-- The filter state: one delay line for each channel (10_state.md R40); finite coefficients, all +0.0 until a BQ_CFG
succeeds (70_reset_and_hazards.md R201) and of the shape of 40_biquad.md R103 from then on. -/
structure FilterInv (s : State) : Prop where
  delayCount : s.delay.length = s.params.nchMax
  coefFinite : coeffsFinite s.coef = true
  unconfigured : s.configured = false → s.coef = ⟨zeroF, zeroF, zeroF, zeroF, zeroF⟩
  centreZero : s.coef.c1 = zeroF
  antisymmetric : s.configured = true → s.coef.c2 = fneg s.coef.c0

/-- The invariant of the machine. -/
structure Inv (s : State) : Prop where
  memory : MemoryInv s
  filter : FilterInv s

/-- OUT holds every byte of the current WavByteStream (10_state.md R33, 20_memory.md R53). -/
def StreamHeld (s : State) : Prop := ∀ b, b < s.outLen.toNat → (Memory.read s.out b).isSome = true

/-- `r` is a value nearest to `num / den` units of 2^-1074 among all finite binary64 values, and where another is as
near, `r` is the one with the even significand (00_scope.md R8). -/
def NearestEven (r : F64) (num : Int) (den : Nat) : Prop :=
  ∀ c : F64, isFinite c = true →
    (units r * den - num).natAbs ≤ (units c * den - num).natAbs ∧
    ((units r * den - num).natAbs = (units c * den - num).natAbs → units c = units r ∨ magnitude r % 2 = 0)

/-- Half a last place above the largest finite value, in units of 2^-1074: from here on rounding to nearest gives ±∞. -/
def overflowUnits : Nat := (2 ^ 54 - 1) * 2 ^ 2044

/-- `r` is the correctly rounded `num / den` units of 2^-1074 (00_scope.md R8). -/
def CorrectlyRounded (r : F64) (num : Int) (den : Nat) : Prop :=
  if num.natAbs < overflowUnits * den then isFinite r = true ∧ NearestEven r num den
  else isInf r = true ∧ signBit r = decide (num < 0)

/-- The unsigned little-endian value of the `n` bytes of `m` from `b` (20_memory.md R54), none where a byte holds no
value. -/
def readLE (m : Memory Byte) (b : Nat) : Nat → Option Nat
  | 0 => some 0
  | n + 1 =>
    match Memory.read m b, readLE m (b + 1) n with
    | some v, some rest => some (v.toNat + 256 * rest)
    | _, _ => none

/-- One sample of a pass: ARG_X ← x, then BQ_PROC on channel `ch` (70_reset_and_hazards.md R206). -/
def feedSample (s : State) (p : Nat × F64) : State :=
  match exec (.bqProc p.1) { s with argX := p.2 } with
  | .next t => t
  | .fault _ => s
  | .refused _ => s

/-- The outputs that channel `ch` gives while the samples `l` are fed, oldest first. -/
def outputsOn (ch : Nat) : List (Nat × F64) → State → List F64
  | [], _ => []
  | p :: l, s =>
    let t := feedSample s p
    if p.1 = ch then t.resY :: outputsOn ch l t else outputsOn ch l t

/-- The host access is the start of a command. -/
def isCommandWrite : HostAccess → Bool
  | .regWrite32 o _ => decide (o = 0x00)
  | _ => false

end Sys2Proof.Machine
end

