-- ==== Sys2Proof/Certificates/Slice0/Obligations.lean ====
section
/-! DEFINITION. The statements for the provers. -/

open Sys2Proof Sys2Proof.Machine

/-! ### Command words -/

/-- Every well-formed command is what its word decodes to (30_encoding.md R81 to R83, R85). -/
def Obligations.DecodeOfEncodeIsTheCommand : Prop :=
  ∀ i : Instr, i.wellFormed = true → decode (encode i) = .ok i

/-- A word that decodes is the word of exactly the command it decodes to (30_encoding.md R82, R85, R88). -/
def Obligations.DecodedWordIsTheCommandsOwnWord : Prop :=
  ∀ (w : Word) (i : Instr), decode w = .ok i → i.wellFormed = true ∧ encode i = w

/-- The words of 30_encoding.md R81 and of 95_test_vectors.md section 2.7. -/
def Obligations.WrittenOutWordsDecode : Prop :=
  decode 0x00000001#32 = .ok .bqCfg ∧ decode 0x00000002#32 = .ok .bqRst ∧
  decode 0x00000103#32 = .ok (.bqProc 1) ∧ decode 0x0000FF03#32 = .ok (.bqProc 255) ∧
  decode 0x00000010#32 = .ok .ilvRun ∧ decode 0x00000020#32 = .ok .wavEnc ∧
  decode 0x00010003#32 = .error .reservedField ∧ decode 0x00000101#32 = .error .channelField ∧
  decode 0x00000004#32 = .error .unassignedOpcode

/-- 30_encoding.md R85: a write of any word to CMD, outside the BUSY window, performs the command that the tests on its
fields, in their order, select, or raises ILLEGAL_COMMAND; `s0` is `s` with the BUSY window open. -/
def Obligations.CmdWritePerformsTheDecodedCommand : Prop :=
  ∀ (s : State) (w : Word), s.busy = none →
    let op := w.toNat % 256
    let ch := w.toNat / 256 % 256
    ∃ s0 : State, s0.busy.isSome = true ∧ { s0 with busy := s.busy, draws := s.draws } = s ∧
    hostAccess (.regWrite32 0x00 w) s =
      if w.toNat / 65536 ≠ 0 then .next { s0 with err := .illegalCommand }
      else if op = 0x03 then exec (.bqProc ch) s0
      else if ch ≠ 0 then .next { s0 with err := .illegalCommand }
      else if op = 0x01 then exec .bqCfg s0
      else if op = 0x02 then exec .bqRst s0
      else if op = 0x10 then exec .ilvRun s0
      else if op = 0x20 then exec .wavEnc s0
      else .next { s0 with err := .illegalCommand }

/-- 30_encoding.md R86: each illegal encoding sets STATUS.ERR to 7, changes nothing else, and the BUSY window follows;
the word 0 is one. -/
def Obligations.IllegalWordOnlySetsErrSeven : Prop :=
  ErrCode.illegalCommand.code = 7#8 ∧ (∃ e, decode 0x00000000#32 = .error e) ∧
  ∀ (s : State) (w : Word), s.busy = none →
    (w.toNat / 65536 ≠ 0 ∨ w.toNat % 256 ∉ [0x01, 0x02, 0x03, 0x10, 0x20] ∨
      (w.toNat % 256 ≠ 0x03 ∧ w.toNat / 256 % 256 ≠ 0)) →
    ∃ t : State, hostAccess (.regWrite32 0x00 w) s = .next t ∧ t.err = .illegalCommand ∧ t.busy.isSome = true ∧
      { t with err := s.err, busy := s.busy, draws := s.draws } = s

/-! ### Steps, the BUSY window and STATUS -/

/-- A step at a pending write of a command's word to CMD is `exec` of that command: the step takes the access off the
pending events (log 8), opens the BUSY window with a free length (log 5) and counts the draw (log 19); these three are
the model's. -/
def Obligations.StepRunsThePendingCommand : Prop :=
  ∀ (s : State) (w : Word) (i : Instr) (rest : List Event),
    s.pending = .access (.regWrite32 0x00 w) :: rest → s.busy = none → decode w = .ok i →
    step s = exec i { s with pending := rest, busy := some (Config.busyReads s.draws), draws := s.draws + 1 }

/-- A command that is placed with `withFetchWord` (log 8, the model's) is what the next step runs. -/
def Obligations.StepRunsThePlacedCommand : Prop :=
  ∀ (s : State) (i : Instr), i.wellFormed = true →
    step (s.withFetchWord 32 (encode i).toNat) =
      exec i { s with busy := some (Config.busyReads s.draws), draws := s.draws + 1 }

/-- 70_reset_and_hazards.md R207: a command takes effect at its CMD write, which opens the BUSY window; a STATUS read is
allowed in it, and any other host access is HOST_HAZARD; only a STATUS read that returns BUSY = 0 closes it. That an
access which 20_memory.md R57 or R60 calls BAD_ACCESS is HOST_HAZARD too in the window is the model's choice (log 11). -/
def Obligations.BusyWindowAdmitsOnlyStatusReads : Prop :=
  (∀ (s : State) (w : Word), s.busy = none →
    (∀ i, decode w = .ok i → ∃ s0 : State, { s0 with busy := s.busy, draws := s.draws } = s ∧
      hostAccess (.regWrite32 0x00 w) s = exec i s0) ∧
    (∀ t, hostAccess (.regWrite32 0x00 w) s = .next t → t.busy.isSome = true)) ∧
  (∀ (s : State) (a : HostAccess), s.busy.isSome = true → a ≠ .regRead32 0x04 → hostAccess a s = .fault .hostHazard) ∧
  (∀ s : State, ∃ (t : State) (v : Word), hostAccess (.regRead32 0x04) s = .next t ∧
    t.returned = .word v :: s.returned ∧ (t.busy = none ↔ v.toNat % 2 = 0))

/-- 10_state.md R25 and R28: STATUS is BUSY in bit 0, CONFIGURED in bit 1, ERR in bits 15:8, all other bits 0; in the BUSY
window bit 0 is 1 unless the read ends the window, and ERR is given only then; a host write is ignored; it reads 0 after
reset. -/
def Obligations.StatusFieldsReadAsTheirState : Prop :=
  (∀ s : State, s.busy = none →
    ∃ v : Word, hostAccess (.regRead32 0x04) s = .next { s with returned := .word v :: s.returned } ∧
      v.toNat = (if s.configured then 2 else 0) + 256 * s.err.code.toNat) ∧
  (∀ s : State, s.busy.isSome = true →
    ∃ (v : Word) (t : State), hostAccess (.regRead32 0x04) s = .next t ∧ t.returned = .word v :: s.returned ∧
      v.toNat % 256 = (if t.busy.isSome then 1 else 0) + (if s.configured then 2 else 0) ∧ v.toNat < 65536 ∧
      (t.busy = none → v.toNat / 256 = s.err.code.toNat)) ∧
  (∀ (s : State) (v : Word), s.busy = none → hostAccess (.regWrite32 0x04 v) s = .next s) ∧
  (∀ P : Params, hostAccess (.regRead32 0x04) (State.resetWith P) =
    .next { State.resetWith P with returned := [.word 0#32] })

/-- 10_state.md R26 and 70_reset_and_hazards.md R208, with the window's length drawn at the CMD write (log 5) and `poll` as
an event (log 9), which are the model's: `poll` ends the window after its `n` reads of BUSY = 1 and one of BUSY = 0, and
nothing else of the block changes. -/
def Obligations.PollEndsTheBusyWindow : Prop :=
  ∀ (s : State) (n : Nat) (rest : List Event), s.pending = .poll :: rest → s.busy = some n →
    ∃ t : State, Host.Core.run Sys2Proof.core (n + 1) s = .next t ∧ t.pending = rest ∧ t.busy = none ∧
      t.returned.length = s.returned.length + n + 1 ∧
      { t with pending := s.pending, busy := s.busy, returned := s.returned, draws := s.draws } = s

/-! ### The register map -/

/-- 20_memory.md R57: which register accesses are BAD_ACCESS, outside the BUSY window. -/
def Obligations.BadAccessOutsideTheRegisterRules : Prop :=
  ∀ (s : State) (o : Nat), s.busy = none →
    (hostAccess (.regRead32 o) s = .fault .badAccess ↔ ¬ (o % 4 = 0 ∧ o < 0x100)) ∧
    (∀ v : Word, ¬ (o % 4 = 0 ∧ o < 0x100) → hostAccess (.regWrite32 o v) s = .fault .badAccess) ∧
    (∀ v : Word, o % 4 = 0 ∧ o < 0x100 → hostAccess (.regWrite32 o v) s ≠ .fault .badAccess) ∧
    (hostAccess (.regRead64 o) s = .fault .badAccess ↔
      ¬ (o % 8 = 0 ∧ (0x08 ≤ o ∧ o ≤ 0x28 ∨ 0x48 ≤ o ∧ o ≤ 0x68))) ∧
    (∀ v : F64, hostAccess (.regWrite64 o v) s = .fault .badAccess ↔
      ¬ (o % 8 = 0 ∧ (0x08 ≤ o ∧ o ≤ 0x28 ∨ 0x48 ≤ o ∧ o ≤ 0x68))) ∧
    (∀ (write : Bool) (bits : Nat), bits ≠ 32 → bits ≠ 64 →
      hostAccess (.regOther write bits o) s = .fault .badAccess)

/-- 10_state.md R37: the reserved offsets read 0 and ignore writes. -/
def Obligations.ReservedOffsetsReadZeroIgnoreWrites : Prop :=
  ∀ (s : State) (o : Nat) (v : Word), s.busy = none → o % 4 = 0 → (o = 0x44 ∨ 0x70 ≤ o ∧ o < 0x100) →
    hostAccess (.regRead32 o) s = .next { s with returned := .word 0#32 :: s.returned } ∧
    hostAccess (.regWrite32 o v) s = .next s

/-- 20_memory.md R58: what each 32-bit and 64-bit register write does, outside the BUSY window; a half write replaces
that half only. What `commandWrite` does is `CmdWritePerformsTheDecodedCommand`. -/
def Obligations.RegisterWritesReachTheirRegister : Prop :=
  ∀ s : State, s.busy = none →
    (∀ v : Word, hostAccess (.regWrite32 0x00 v) s = commandWrite v s) ∧
    (∀ v : F64,
      hostAccess (.regWrite64 0x08 v) s = .next { s with argF0 := v } ∧
      hostAccess (.regWrite64 0x10 v) s = .next { s with argQ := v } ∧
      hostAccess (.regWrite64 0x18 v) s = .next { s with argFs := v } ∧
      hostAccess (.regWrite64 0x20 v) s = .next { s with argX := v } ∧
      ∀ o ∈ [0x28, 0x48, 0x50, 0x58, 0x60, 0x68], hostAccess (.regWrite64 o v) s = .next s) ∧
    (∀ v : Word,
      hostAccess (.regWrite32 0x30 v) s = .next { s with argNframes := v } ∧
      hostAccess (.regWrite32 0x34 v) s = .next { s with argNch := v } ∧
      hostAccess (.regWrite32 0x38 v) s = .next { s with argRate := v } ∧
      hostAccess (.regWrite32 0x3C v) s = .next { s with ilvLen := v } ∧
      (∀ o ∈ [0x04, 0x40, 0x44, 0x28, 0x2C, 0x48, 0x4C, 0x50, 0x54, 0x58, 0x5C, 0x60, 0x64, 0x68, 0x6C],
        hostAccess (.regWrite32 o v) s = .next s) ∧
      (∀ o : Nat, 0x70 ≤ o → o < 0x100 → o % 4 = 0 → hostAccess (.regWrite32 o v) s = .next s) ∧
      (∃ r : F64, hostAccess (.regWrite32 0x08 v) s = .next { s with argF0 := r } ∧
        r.toNat = s.argF0.toNat / 2 ^ 32 * 2 ^ 32 + v.toNat) ∧
      (∃ r : F64, hostAccess (.regWrite32 0x0C v) s = .next { s with argF0 := r } ∧
        r.toNat = v.toNat * 2 ^ 32 + s.argF0.toNat % 2 ^ 32) ∧
      (∃ r : F64, hostAccess (.regWrite32 0x10 v) s = .next { s with argQ := r } ∧
        r.toNat = s.argQ.toNat / 2 ^ 32 * 2 ^ 32 + v.toNat) ∧
      (∃ r : F64, hostAccess (.regWrite32 0x14 v) s = .next { s with argQ := r } ∧
        r.toNat = v.toNat * 2 ^ 32 + s.argQ.toNat % 2 ^ 32) ∧
      (∃ r : F64, hostAccess (.regWrite32 0x18 v) s = .next { s with argFs := r } ∧
        r.toNat = s.argFs.toNat / 2 ^ 32 * 2 ^ 32 + v.toNat) ∧
      (∃ r : F64, hostAccess (.regWrite32 0x1C v) s = .next { s with argFs := r } ∧
        r.toNat = v.toNat * 2 ^ 32 + s.argFs.toNat % 2 ^ 32) ∧
      (∃ r : F64, hostAccess (.regWrite32 0x20 v) s = .next { s with argX := r } ∧
        r.toNat = s.argX.toNat / 2 ^ 32 * 2 ^ 32 + v.toNat) ∧
      (∃ r : F64, hostAccess (.regWrite32 0x24 v) s = .next { s with argX := r } ∧
        r.toNat = v.toNat * 2 ^ 32 + s.argX.toNat % 2 ^ 32))

/-- 20_memory.md R59: what each register read returns, outside the BUSY window, with no side effect; in any state a STATUS
read ends the BUSY window exactly when it returns BUSY = 0, and has no other side effect. -/
def Obligations.RegisterReadsReturnTheirRegister : Prop :=
  (∀ s : State, ∃ (t : State) (v : Word), hostAccess (.regRead32 0x04) s = .next t ∧
    t.returned = .word v :: s.returned ∧ (t.busy = none ↔ v.toNat % 2 = 0) ∧
    (v.toNat % 2 = 0 → v.toNat = (if s.configured then 2 else 0) + 256 * s.err.code.toNat) ∧
    { t with busy := s.busy, returned := s.returned, draws := s.draws } = s) ∧
  ∀ s : State, s.busy = none →
    (∀ p ∈ [(0x08, s.argF0), (0x10, s.argQ), (0x18, s.argFs), (0x20, s.argX), (0x28, s.resY), (0x48, s.coef.c0),
        (0x50, s.coef.c1), (0x58, s.coef.c2), (0x60, s.coef.c3), (0x68, s.coef.c4)],
      hostAccess (.regRead64 p.1) s = .next { s with returned := .cell p.2 :: s.returned } ∧
      (∃ v : Word, hostAccess (.regRead32 p.1) s = .next { s with returned := .word v :: s.returned } ∧
        v.toNat = p.2.toNat % 2 ^ 32) ∧
      (∃ v : Word, hostAccess (.regRead32 (p.1 + 4)) s = .next { s with returned := .word v :: s.returned } ∧
        v.toNat = p.2.toNat / 2 ^ 32)) ∧
    (∀ p ∈ [(0x00, 0#32), (0x30, s.argNframes), (0x34, s.argNch), (0x38, s.argRate), (0x3C, s.ilvLen),
        (0x40, s.outLen), (0x44, 0#32)],
      hostAccess (.regRead32 p.1) s = .next { s with returned := .word p.2 :: s.returned }) ∧
    (∀ o : Nat, 0x70 ≤ o → o < 0x100 → o % 4 = 0 →
      hostAccess (.regRead32 o) s = .next { s with returned := .word 0#32 :: s.returned })

/-! ### The memories -/

/-- 20_memory.md R60: what each host memory primitive does in its index range, and BAD_ACCESS exactly out of it, outside
the BUSY window; no host access but a CMD write writes OUT, the delay lines or the coefficients. -/
def Obligations.MemoryPrimitivesAccessTheirCell : Prop :=
  ∀ (s : State) (j i k b : Nat) (v : F64) (y : Byte), s.busy = none →
    (hostAccess (.planeWrite j i v) s =
      if j < s.params.nchMax ∧ i < s.params.framesMax then
        .next { s with plane := Memory.write s.plane (planeIndex j i) v }
      else .fault .badAccess) ∧
    (hostAccess (.ilvWrite k v) s =
      if k < s.params.nchMax * s.params.framesMax then .next { s with ilv := Memory.write s.ilv k v }
      else .fault .badAccess) ∧
    (hostAccess (.planeRead j i) s = .fault .badAccess ↔ ¬ (j < s.params.nchMax ∧ i < s.params.framesMax)) ∧
    (hostAccess (.ilvRead k) s = .fault .badAccess ↔ ¬ k < s.params.nchMax * s.params.framesMax) ∧
    (hostAccess (.outRead b) s = .fault .badAccess ↔ ¬ b < 44 + 2 * (s.params.nchMax * s.params.framesMax)) ∧
    (j < s.params.nchMax → i < s.params.framesMax → Memory.read s.plane (planeIndex j i) = some v →
      hostAccess (.planeRead j i) s = .next { s with returned := .cell v :: s.returned }) ∧
    (k < s.params.nchMax * s.params.framesMax → Memory.read s.ilv k = some v →
      hostAccess (.ilvRead k) s = .next { s with returned := .cell v :: s.returned }) ∧
    (b < 44 + 2 * (s.params.nchMax * s.params.framesMax) → Memory.read s.out b = some y →
      hostAccess (.outRead b) s = .next { s with returned := .byte y :: s.returned }) ∧
    (∀ (a : HostAccess) (t : State), isCommandWrite a = false → hostAccess a s = .next t →
      t.out = s.out ∧ t.delay = s.delay ∧ t.coef = s.coef)

/-- 20_memory.md R60 and R69: a cell the host writes reads back as written, and every other cell as before. -/
def Obligations.HostCellWriteThenReads : Prop :=
  (∀ (s : State) (j i : Nat) (v : F64), s.busy = none → j < s.params.nchMax → i < s.params.framesMax →
    ∃ t : State, hostAccess (.planeWrite j i v) s = .next t ∧ { t with plane := s.plane } = s ∧
      hostAccess (.planeRead j i) t = .next { t with returned := .cell v :: t.returned } ∧
      ∀ j' i' : Nat, j' < s.params.nchMax → (j' ≠ j ∨ i' ≠ i) →
        Memory.read t.plane (planeIndex j' i') = Memory.read s.plane (planeIndex j' i')) ∧
  (∀ (s : State) (k : Nat) (v : F64), s.busy = none → k < s.params.nchMax * s.params.framesMax →
    ∃ t : State, hostAccess (.ilvWrite k v) s = .next t ∧ { t with ilv := s.ilv } = s ∧
      hostAccess (.ilvRead k) t = .next { t with returned := .cell v :: t.returned } ∧
      ∀ k' : Nat, k' ≠ k → Memory.read t.ilv k' = Memory.read s.ilv k')

/-- 20_memory.md R62: a read of a cell that holds no value is UNINIT_READ: by the host, by ILV_RUN, by WAV_ENC. -/
def Obligations.UnwrittenCellReadFaults : Prop :=
  (∀ (s : State) (j i : Nat), s.busy = none → j < s.params.nchMax → i < s.params.framesMax →
    Memory.read s.plane (planeIndex j i) = none → hostAccess (.planeRead j i) s = .fault .uninitRead) ∧
  (∀ (s : State) (k : Nat), s.busy = none → k < s.params.ilvMax → Memory.read s.ilv k = none →
    hostAccess (.ilvRead k) s = .fault .uninitRead) ∧
  (∀ (s : State) (b : Nat), s.busy = none → b < s.params.outMax → Memory.read s.out b = none →
    hostAccess (.outRead b) s = .fault .uninitRead) ∧
  (∀ (s : State) (j i : Nat), s.argNch.toNat ≤ s.params.nchMax → s.argNframes.toNat ≤ s.params.framesMax →
    j < s.argNch.toNat → i < s.argNframes.toNat → Memory.read s.plane (planeIndex j i) = none →
    exec .ilvRun s = .fault .uninitRead) ∧
  (∀ (s : State) (k : Nat), 0 < s.argNch.toNat → 0 < s.argRate.toNat → s.argNch.toNat ≤ 32767 →
    s.argRate.toNat * s.argNch.toNat * 2 ≤ 2 ^ 32 - 1 → s.ilvLen.toNat % s.argNch.toNat = 0 →
    s.ilvLen.toNat ≤ s.params.ilvMax → k < s.ilvLen.toNat → Memory.read s.ilv k = none →
    exec .wavEnc s = .fault .uninitRead)

/-! ### binary64 arithmetic -/

/-- 00_scope.md R8, with IEEE 754 from general knowledge (log 13): the sum and the difference of finite values are
correctly rounded. -/
def Obligations.SumAndDifferenceCorrectlyRounded : Prop :=
  ∀ a b : F64, isFinite a = true → isFinite b = true →
    CorrectlyRounded (fadd a b) (units a + units b) 1 ∧ CorrectlyRounded (fsub a b) (units a - units b) 1

/-- 00_scope.md R8, with IEEE 754 from general knowledge (log 13): the product of finite values is correctly rounded. -/
def Obligations.ProductCorrectlyRounded : Prop :=
  ∀ a b : F64, isFinite a = true → isFinite b = true →
    CorrectlyRounded (fmul a b) (units a * units b) (2 ^ 1074)

/-- 00_scope.md R8, with IEEE 754 from general knowledge (log 13): the quotient of finite values by a non-zero one is
correctly rounded. -/
def Obligations.QuotientCorrectlyRounded : Prop :=
  ∀ a b : F64, isFinite a = true → isFinite b = true → units b ≠ 0 →
    CorrectlyRounded (fdiv a b) (units a * 2 ^ 1074 * (units b).sign) (units b).natAbs

/-- 00_scope.md R8: `flt` and `fgt` order finite values by their value, the infinities beyond them, and are false when
an operand is NaN; `fneg` flips bit 63 only and negates a finite value exactly. -/
def Obligations.ComparisonsOrderValues : Prop :=
  (∀ a b : F64, isFinite a = true → isFinite b = true → (flt a b = true ↔ units a < units b)) ∧
  (∀ a b : F64, fgt a b = flt b a) ∧
  (∀ a b : F64, isNan a = true ∨ isNan b = true → flt a b = false ∧ fgt a b = false) ∧
  (∀ a : F64, isFinite a = true → flt a 0x7FF0000000000000#64 = true ∧ fgt a 0xFFF0000000000000#64 = true) ∧
  (∀ a : F64, magnitude (fneg a) = magnitude a ∧ signBit (fneg a) = !signBit a ∧ units (fneg a) = -units a)

/-! ### BQ_CFG -/

/-- 40_biquad.md R104 with R101 to R103 written out: when every check of R105 passes, BQ_CFG holds the five quotients,
sets CONFIGURED and leaves all else but STATUS.ERR. -/
def Obligations.BqCfgHoldsTheNormalisedCoefficients : Prop :=
  ∀ s : State,
    let f0 := s.argF0
    let q := s.argQ
    let fs := s.argFs
    let w := fdiv (fmul (fmul 0x4000000000000000#64 0x400921FB54442D18#64) f0) fs
    let c := cosOf s.params w
    let alpha := fdiv (sinOf s.params w) (fmul 0x4000000000000000#64 q)
    let b0 := if s.params.bpVariant = .peak0dB then alpha else fmul q alpha
    let a0 := fadd 0x3FF0000000000000#64 alpha
    let a1 := fmul 0xC000000000000000#64 c
    let a2 := fsub 0x3FF0000000000000#64 alpha
    let n : Coeffs := ⟨fdiv b0 a0, fdiv 0x0000000000000000#64 a0, fdiv (fneg b0) a0, fdiv a1 a0, fdiv a2 a0⟩
    isFinite f0 = true → isFinite q = true → isFinite fs = true → fgt q 0x0000000000000000#64 = true →
    fgt f0 0x0000000000000000#64 = true → fgt fs (fmul 0x4000000000000000#64 f0) = true →
    fgt alpha 0x0000000000000000#64 = true →
    isFinite n.c0 = true → isFinite n.c1 = true → isFinite n.c2 = true → isFinite n.c3 = true → isFinite n.c4 = true →
    exec .bqCfg s = .next { s with coef := n, configured := true, err := .ok }

/-- 40_biquad.md R105: BQ_CFG raises INVALID_FILTER_PARAMETERS (code 1) when any of (a) to (f) holds, with no other
effect, and when none holds it succeeds; the checks (c) and (d) make fs > 0. -/
def Obligations.BqCfgRejectsExactlyTheBadParameters : Prop :=
  ErrCode.invalidFilterParameters.code = 1#8 ∧
  (∀ s : State,
    let f0 := s.argF0
    let q := s.argQ
    let fs := s.argFs
    let d := design s.params f0 q fs
    let n := normalised (unnormalised s.params q d.alpha d.c)
    let bad := isFinite f0 = false ∨ isFinite q = false ∨ isFinite fs = false ∨ fgt q 0x0000000000000000#64 = false ∨
      fgt f0 0x0000000000000000#64 = false ∨ fgt fs (fmul 0x4000000000000000#64 f0) = false ∨
      fgt d.alpha 0x0000000000000000#64 = false ∨ isFinite n.c0 = false ∨ isFinite n.c1 = false ∨
      isFinite n.c2 = false ∨ isFinite n.c3 = false ∨ isFinite n.c4 = false
    (bad → exec .bqCfg s = .next { s with err := .invalidFilterParameters }) ∧
    (¬ bad → ∃ t, exec .bqCfg s = .next t ∧ t.err = .ok ∧ t.configured = true)) ∧
  (∀ f0 fs : F64, isFinite f0 = true → isFinite fs = true → fgt f0 0x0000000000000000#64 = true →
    fgt fs (fmul 0x4000000000000000#64 f0) = true → fgt fs 0x0000000000000000#64 = true)

/-- 40_biquad.md R103: after a successful BQ_CFG, C[1] is +0.0 and C[2] is C[0] with its sign flipped, bit for bit. -/
def Obligations.ConfiguredCoefficientsAreAntisymmetric : Prop :=
  ∀ s t : State, exec .bqCfg s = .next t → t.err = .ok →
    t.coef.c1 = 0x0000000000000000#64 ∧ t.coef.c2 = fneg t.coef.c0

/-- 40_biquad.md R102: when Q is 1.0 the result of BQ_CFG does not depend on BP_VARIANT. -/
def Obligations.UnitQMakesTheVariantsAgree : Prop :=
  ∀ (s t u : State), s.argQ = 0x3FF0000000000000#64 →
    exec .bqCfg { s with params := { s.params with bpVariant := .peak0dB } } = .next t →
    exec .bqCfg { s with params := { s.params with bpVariant := .skirt } } = .next u →
    t.coef = u.coef ∧ t.configured = u.configured ∧ t.err = u.err

/-! ### BQ_RST and BQ_PROC -/

/-- 40_biquad.md R107: BQ_RST completes in every state, every delay cell of every channel becomes +0.0, and nothing
else but STATUS.ERR changes. -/
def Obligations.BqRstClearsEveryDelayLine : Prop :=
  ∀ s : State, ∃ t : State, exec .bqRst s = .next t ∧ t.err = .ok ∧
    (∀ ch : Nat, ch < s.params.nchMax → t.delay[ch]? = some ⟨0x0#64, 0x0#64, 0x0#64, 0x0#64⟩) ∧
    { t with delay := s.delay, err := s.err } = s

/-- 40_biquad.md R109 and R110: on a configured stage, BQ_PROC on an existing channel writes y, in the order of R109, to
RES_Y and shifts that channel's delay line; nothing else but STATUS.ERR changes. -/
def Obligations.BqProcComputesTheDifferenceEquation : Prop :=
  ∀ (s : State) (ch : Nat) (d : DelayLine), ch < s.params.nchMax → s.configured = true → s.delay[ch]? = some d →
    let y := fsub (fsub (fadd (fadd (fmul s.coef.c0 s.argX) (fmul s.coef.c1 d.x1)) (fmul s.coef.c2 d.x2))
      (fmul s.coef.c3 d.y1)) (fmul s.coef.c4 d.y2)
    ∃ t : State, exec (.bqProc ch) s = .next t ∧ t.resY = y ∧ t.err = .ok ∧
      t.delay[ch]? = some ⟨s.argX, d.x1, y, d.y1⟩ ∧ (∀ c : Nat, c ≠ ch → t.delay[c]? = s.delay[c]?) ∧
      { t with resY := s.resY, delay := s.delay, err := s.err } = s

/-- 40_biquad.md R108, 60_exceptions.md R182: BQ_PROC raises CHANNEL_RANGE (4) for a channel that does not exist, whether
configured or not, then NOT_CONFIGURED (3), and changes nothing else. -/
def Obligations.BqProcErrorsInOrder : Prop :=
  ErrCode.channelRange.code = 4#8 ∧ ErrCode.notConfigured.code = 3#8 ∧
  ∀ (s : State) (ch : Nat),
    (s.params.nchMax ≤ ch → exec (.bqProc ch) s = .next { s with err := .channelRange }) ∧
    (ch < s.params.nchMax → s.configured = false → exec (.bqProc ch) s = .next { s with err := .notConfigured })

/-- 40_biquad.md R111: a NaN in the input or in any cell of the channel's delay line gives a NaN output, which Y1 then
holds, so the next output is NaN again. -/
def Obligations.NanPoisonsItsChannel : Prop :=
  ∀ (s : State) (ch : Nat) (d : DelayLine), ch < s.params.nchMax → s.configured = true → s.delay[ch]? = some d →
    (isNan s.argX = true ∨ isNan d.x1 = true ∨ isNan d.x2 = true ∨ isNan d.y1 = true ∨ isNan d.y2 = true) →
    ∃ (t : State) (d' : DelayLine), exec (.bqProc ch) s = .next t ∧ isNan t.resY = true ∧
      t.delay[ch]? = some d' ∧ isNan d'.y1 = true ∧
      ∀ x : F64, ∃ u : State, exec (.bqProc ch) { t with argX := x } = .next u ∧ isNan u.resY = true

/-- 40_biquad.md R113: the outputs of a channel depend only on the samples given to that channel, however the samples
of other channels are interleaved with them. -/
def Obligations.ChannelOutputsIgnoreOtherChannels : Prop :=
  ∀ (s : State) (ch : Nat) (l : List (Nat × F64)), s.delay.length = s.params.nchMax → s.configured = true →
    ch < s.params.nchMax →
    outputsOn ch l s = outputsOn ch (l.filter (fun p => decide (p.1 = ch))) s

/-- 40_biquad.md R112: the error and coefficients of BQ_CFG depend only on its operand registers, SIN, COS, NAN_OF and
BP_VARIANT; the RES_Y and delay cells of a BQ_PROC that succeeds only on ARG_X, the coefficients, the delay cells of the
channel and NAN_OF. Whether BQ_PROC succeeds depends on CONFIGURED and NCH_MAX only (40_biquad.md R108,
60_exceptions.md R182). -/
def Obligations.FilterResultsHaveNoHiddenState : Prop :=
  (∀ s s' t t' : State, s.argF0 = s'.argF0 → s.argQ = s'.argQ → s.argFs = s'.argFs →
    s.params.bpVariant = s'.params.bpVariant → s.params.trig = s'.params.trig →
    exec .bqCfg s = .next t → exec .bqCfg s' = .next t' → t.err = t'.err ∧ (t.err = .ok → t.coef = t'.coef)) ∧
  (∀ (s s' : State) (ch : Nat) (t t' : State), s.argX = s'.argX → s.coef = s'.coef → s.delay[ch]? = s'.delay[ch]? →
    exec (.bqProc ch) s = .next t → exec (.bqProc ch) s' = .next t' → t.err = .ok → t'.err = .ok →
    t.resY = t'.resY ∧ t.delay[ch]? = t'.delay[ch]?) ∧
  (∀ (s s' : State) (ch : Nat) (t t' : State), s.configured = s'.configured → s.params.nchMax = s'.params.nchMax →
    exec (.bqProc ch) s = .next t → exec (.bqProc ch) s' = .next t' → t.err = t'.err)

/-- 40_biquad.md R107, worked example, for any sample: after BQ_RST the same sample gives the same output again. -/
def Obligations.RstMakesThePassRepeat : Prop :=
  ∀ (s : State) (ch : Nat), ch < s.params.nchMax → s.configured = true →
    ∃ s1 s2 s3 s4 : State, exec .bqRst s = .next s1 ∧ exec (.bqProc ch) s1 = .next s2 ∧ exec .bqRst s2 = .next s3 ∧
      exec (.bqProc ch) s3 = .next s4 ∧ s4.resY = s2.resY ∧ s4.delay = s2.delay

/-! ### ILV_RUN -/

/-- 41_interleaver.md R142, with the frame of R140 and R143: when the checks of R141 pass and the PLANE cells hold values,
ILV[i × Cn + j] becomes PLANE (j, i), ILV_LEN becomes F × Cn, later ILV cells and all else but STATUS.ERR are kept. -/
def Obligations.IlvRunInterleavesThePlanes : Prop :=
  ∀ s : State,
    let F := s.argNframes.toNat
    let Cn := s.argNch.toNat
    0 < Cn → Cn ≤ s.params.nchMax → F ≤ s.params.framesMax →
    (∀ j i : Nat, j < Cn → i < F → Memory.read s.plane (planeIndex j i) ≠ none) →
    ∃ t : State, exec .ilvRun s = .next t ∧ t.err = .ok ∧ t.ilvLen.toNat = F * Cn ∧
      (∀ i j : Nat, i < F → j < Cn → Memory.read t.ilv (i * Cn + j) = Memory.read s.plane (planeIndex j i)) ∧
      (∀ k : Nat, F * Cn ≤ k → Memory.read t.ilv k = Memory.read s.ilv k) ∧
      { t with ilv := s.ilv, ilvLen := s.ilvLen, err := s.err } = s

/-- 41_interleaver.md R141: the checks of ILV_RUN in their order, with no other effect; F = 0 is no error; u32(F × Cn) is
defined when they pass. -/
def Obligations.IlvRunChecksInOrder : Prop :=
  ErrCode.invalidAudioFormat.code = 2#8 ∧ ErrCode.capacity.code = 5#8 ∧
  ∀ s : State,
    let F := s.argNframes.toNat
    let Cn := s.argNch.toNat
    (Cn = 0 → exec .ilvRun s = .next { s with err := .invalidAudioFormat }) ∧
    (0 < Cn → s.params.nchMax < Cn → exec .ilvRun s = .next { s with err := .capacity }) ∧
    (0 < Cn → Cn ≤ s.params.nchMax → s.params.framesMax < F → exec .ilvRun s = .next { s with err := .capacity }) ∧
    (0 < Cn → Cn ≤ s.params.nchMax → F = 0 → exec .ilvRun s = .next { s with ilvLen := 0#32, err := .ok }) ∧
    (0 < Cn → Cn ≤ s.params.nchMax → F ≤ s.params.framesMax →
      F * Cn ≤ s.params.ilvMax ∧ s.params.ilvMax ≤ 2147483629 ∧
      ∀ t : State, exec .ilvRun s = .next t → t.err = .ok)

/-! ### WAV_ENC -/

/-- 42_wav_encoder.md R151: the checks of WAV_ENC in their order; a failing WAV_ENC writes no OUT byte and keeps OUT_LEN;
N = 0 passes checks 4 to 7. -/
def Obligations.WavEncChecksInOrder : Prop :=
  ErrCode.invalidAudioFormat.code = 2#8 ∧ ErrCode.capacity.code = 5#8 ∧ ErrCode.invalidSample.code = 6#8 ∧
  ∀ s : State,
    let N := s.ilvLen.toNat
    let Cn := s.argNch.toNat
    let Rate := s.argRate.toNat
    let format := 0 < Cn ∧ 0 < Rate ∧ Cn ≤ 32767 ∧ Rate * Cn * 2 ≤ 2 ^ 32 - 1 ∧ N % Cn = 0
    (¬ format → exec .wavEnc s = .next { s with err := .invalidAudioFormat }) ∧
    (format → s.params.ilvMax < N → exec .wavEnc s = .next { s with err := .capacity }) ∧
    (format → N ≤ s.params.ilvMax → (∃ k, k < N ∧ Memory.read s.ilv k = none) →
      exec .wavEnc s = .fault .uninitRead) ∧
    (format → N ≤ s.params.ilvMax → (∀ k, k < N → Memory.read s.ilv k ≠ none) →
      (∃ k v, k < N ∧ Memory.read s.ilv k = some v ∧ isNan v = true) →
      exec .wavEnc s = .next { s with err := .invalidSample }) ∧
    (0 < Cn → 0 < Rate → Cn ≤ 32767 → Rate * Cn * 2 ≤ 2 ^ 32 - 1 → N = 0 → ∃ t, exec .wavEnc s = .next t ∧ t.err = .ok)

/-- 42_wav_encoder.md R152 and R153 (header), R156 (samples), R157 (length), R158 (what it leaves): what a WAV_ENC whose
checks pass writes. OUT_LEN is stated where 44 + 2N fits 32 bits (log 7). -/
def Obligations.WavEncWritesTheStream : Prop :=
  ∀ s : State,
    let N := s.ilvLen.toNat
    let Cn := s.argNch.toNat
    let Rate := s.argRate.toNat
    0 < Cn → 0 < Rate → Cn ≤ 32767 → Rate * Cn * 2 ≤ 2 ^ 32 - 1 → N % Cn = 0 → N ≤ s.params.ilvMax →
    (∀ k : Nat, k < N → ∃ v, Memory.read s.ilv k = some v ∧ isNan v = false) →
    ∃ t : State, exec .wavEnc s = .next t ∧ t.err = .ok ∧
      [Memory.read t.out 0, Memory.read t.out 1, Memory.read t.out 2, Memory.read t.out 3] =
        [some 0x52#8, some 0x49#8, some 0x46#8, some 0x46#8] ∧
      readLE t.out 4 4 = some (36 + 2 * N) ∧
      [Memory.read t.out 8, Memory.read t.out 9, Memory.read t.out 10, Memory.read t.out 11] =
        [some 0x57#8, some 0x41#8, some 0x56#8, some 0x45#8] ∧
      [Memory.read t.out 12, Memory.read t.out 13, Memory.read t.out 14, Memory.read t.out 15] =
        [some 0x66#8, some 0x6D#8, some 0x74#8, some 0x20#8] ∧
      readLE t.out 16 4 = some 16 ∧ readLE t.out 20 2 = some 1 ∧ readLE t.out 22 2 = some Cn ∧
      readLE t.out 24 4 = some Rate ∧ readLE t.out 28 4 = some (Rate * Cn * 2) ∧ readLE t.out 32 2 = some (Cn * 2) ∧
      readLE t.out 34 2 = some 16 ∧
      [Memory.read t.out 36, Memory.read t.out 37, Memory.read t.out 38, Memory.read t.out 39] =
        [some 0x64#8, some 0x61#8, some 0x74#8, some 0x61#8] ∧
      readLE t.out 40 4 = some (2 * N) ∧
      (∀ (k : Nat) (v : F64), k < N → Memory.read s.ilv k = some v →
        readLE t.out (44 + 2 * k) 2 = some ((quantize s.params v) % 2 ^ 16).toNat) ∧
      (∀ b : Nat, 44 + 2 * N ≤ b → Memory.read t.out b = Memory.read s.out b) ∧
      (44 + 2 * N < 2 ^ 32 → t.outLen.toNat = 44 + 2 * N) ∧
      { t with out := s.out, outLen := s.outLen, err := s.err } = s

/-- 42_wav_encoder.md R159: ChunkSize is OUT_LEN - 8 and Subchunk2Size is OUT_LEN - 44 after every successful WAV_ENC
whose length fits 32 bits (log 7). -/
def Obligations.HeaderSizesMatchTheStreamLength : Prop :=
  ∀ s t : State, exec .wavEnc s = .next t → t.err = .ok → 44 + 2 * s.ilvLen.toNat < 2 ^ 32 →
    readLE t.out 4 4 = some (t.outLen.toNat - 8) ∧ readLE t.out 40 4 = some (t.outLen.toNat - 44) ∧
    44 ≤ t.outLen.toNat

/-- 42_wav_encoder.md R160: a repeated WAV_ENC on the same ILV and registers writes the same bytes. -/
def Obligations.RepeatedWavEncWritesTheSameBytes : Prop :=
  ∀ s t : State, exec .wavEnc s = .next t → t.err = .ok →
    ∃ u : State, exec .wavEnc t = .next u ∧ u.err = .ok ∧ ∀ b : Nat, Memory.read u.out b = Memory.read t.out b

/-- 42_wav_encoder.md R154: the clamp, on a value that is not NaN. -/
def Obligations.ClampBringsSamplesIntoRange : Prop :=
  (∀ s : F64, isNan s = false →
    (fgt s 0x3FF0000000000000#64 = true → clamp s = 0x3FF0000000000000#64) ∧
    (flt s 0xBFF0000000000000#64 = true → clamp s = 0xBFF0000000000000#64) ∧
    (fgt s 0x3FF0000000000000#64 = false → flt s 0xBFF0000000000000#64 = false → clamp s = s)) ∧
  clamp 0x7FF0000000000000#64 = 0x3FF0000000000000#64 ∧ clamp 0xFFF0000000000000#64 = 0xBFF0000000000000#64 ∧
  clamp 0x0000000000000000#64 = 0x0000000000000000#64 ∧ clamp 0x8000000000000000#64 = 0x8000000000000000#64 ∧
  (∀ s : F64, isNan s = false → isFinite (clamp s) = true ∧ -(2 : Int) ^ 1074 ≤ units (clamp s) ∧
    units (clamp s) ≤ 2 ^ 1074)

/-- 42_wav_encoder.md R155: `quantize` takes t = fmul(clamp(s), 32767.0) to the nearest integer, ties by TIE_MODE; the
result is from -32767 to 32767 and both zeros give 0. -/
def Obligations.QuantizeRoundsToNearestByTieMode : Prop :=
  ∀ (P : Params) (s : F64), isNan s = false →
    let t := units (fmul (clamp s) 0x40DFFFC000000000#64)
    let q := quantize P s
    (-32767 ≤ q ∧ q ≤ 32767) ∧
    (2 * (q * 2 ^ 1074 - t).natAbs ≤ 2 ^ 1074) ∧
    (2 * (q * 2 ^ 1074 - t).natAbs = 2 ^ 1074 →
      match P.tieMode with
      | .away => t.natAbs < (q * 2 ^ 1074).natAbs
      | .posInf => t < q * 2 ^ 1074
      | .even => q % 2 = 0) ∧
    quantize P 0x0000000000000000#64 = 0 ∧ quantize P 0x8000000000000000#64 = 0

/-- 42_wav_encoder.md R161: |quantize(s) / 32767 - s| ≤ 0.5 / 32767 + 2^-53 for s in [-1.0, 1.0], and against clamp(s)
for every s that is not NaN; both sides are multiplied by 32767 × 2^1074. -/
def Obligations.QuantizationErrorIsBounded : Prop :=
  ∀ (P : Params) (s : F64), isNan s = false →
    ((quantize P s * 2 ^ 1074 - 32767 * units (clamp s)).natAbs ≤ 2 ^ 1073 + 32767 * 2 ^ 1021) ∧
    (isFinite s = true → -(2 : Int) ^ 1074 ≤ units s → units s ≤ 2 ^ 1074 →
      (quantize P s * 2 ^ 1074 - 32767 * units s).natAbs ≤ 2 ^ 1073 + 32767 * 2 ^ 1021)

/-! ### Errors and frames over all commands -/

/-- 60_exceptions.md R183: the state after an error equals the state before the command except for STATUS.ERR. -/
def Obligations.ErrorsChangeOnlyStatusErr : Prop :=
  ∀ (i : Instr) (s t : State), exec i s = .next t → t.err ≠ .ok → t = { s with err := t.err }

/-- 10_state.md R27: every command that completes writes ERR, whatever it was; a host access that is no CMD write never
changes it. -/
def Obligations.ErrIsRewrittenByEveryCommand : Prop :=
  (∀ (i : Instr) (s t : State) (e : ErrCode), exec i s = .next t → exec i { s with err := e } = .next t) ∧
  (∀ (a : HostAccess) (s t : State), isCommandWrite a = false → hostAccess a s = .next t → t.err = s.err)

/-- 60_exceptions.md R181: the codes, and which of them each command can write. -/
def Obligations.EachCommandRaisesOnlyItsCodes : Prop :=
  ([ErrCode.ok, .invalidFilterParameters, .invalidAudioFormat, .notConfigured, .channelRange, .capacity, .invalidSample,
    .illegalCommand].map ErrCode.code = [0#8, 1#8, 2#8, 3#8, 4#8, 5#8, 6#8, 7#8]) ∧
  ∀ s t : State,
    (exec .bqCfg s = .next t → t.err ∈ [ErrCode.ok, .invalidFilterParameters]) ∧
    (exec .bqRst s = .next t → t.err = .ok) ∧
    (∀ ch : Nat, exec (.bqProc ch) s = .next t → t.err ∈ [ErrCode.ok, .notConfigured, .channelRange]) ∧
    (exec .ilvRun s = .next t → t.err ∈ [ErrCode.ok, .invalidAudioFormat, .capacity]) ∧
    (exec .wavEnc s = .next t → t.err ∈ [ErrCode.ok, .invalidAudioFormat, .capacity, .invalidSample])

/-- 10_state.md R35: no command writes an argument register. -/
def Obligations.CommandsKeepTheArguments : Prop :=
  ∀ (i : Instr) (s t : State), exec i s = .next t →
    t.argF0 = s.argF0 ∧ t.argQ = s.argQ ∧ t.argFs = s.argFs ∧ t.argX = s.argX ∧ t.argNframes = s.argNframes ∧
    t.argNch = s.argNch ∧ t.argRate = s.argRate

/-- 10_state.md R36: who writes each piece of state: the frame of every command and of every host access that is no CMD
write; a command that fails writes STATUS.ERR only. No command touches PLANE, the argument registers, the BUSY window or
the model's own fields. -/
def Obligations.EachPieceOfStateHasItsWriters : Prop :=
  (∀ (i : Instr) (s t : State), exec i s = .next t →
    (t.err ≠ .ok → { t with err := s.err } = s) ∧
    (i ≠ .bqCfg → t.configured = s.configured ∧ t.coef = s.coef) ∧
    (i ≠ .bqRst → (∀ ch, i ≠ .bqProc ch) → t.delay = s.delay) ∧
    (∀ ch, i = .bqProc ch → ∀ c, c ≠ ch → t.delay[c]? = s.delay[c]?) ∧
    ((∀ ch, i ≠ .bqProc ch) → t.resY = s.resY) ∧
    (i ≠ .ilvRun → t.ilv = s.ilv ∧ t.ilvLen = s.ilvLen) ∧
    (i = .ilvRun → ∀ k, s.argNframes.toNat * s.argNch.toNat ≤ k → Memory.read t.ilv k = Memory.read s.ilv k) ∧
    (i ≠ .wavEnc → t.out = s.out ∧ t.outLen = s.outLen) ∧
    (i = .wavEnc → ∀ b, 44 + 2 * s.ilvLen.toNat ≤ b → Memory.read t.out b = Memory.read s.out b) ∧
    (t.argF0 = s.argF0 ∧ t.argQ = s.argQ ∧ t.argFs = s.argFs ∧ t.argX = s.argX ∧ t.argNframes = s.argNframes ∧
      t.argNch = s.argNch ∧ t.argRate = s.argRate) ∧
    t.plane = s.plane ∧ t.busy = s.busy ∧ t.params = s.params ∧ t.pending = s.pending ∧ t.returned = s.returned ∧
    t.draws = s.draws) ∧
  (∀ (a : HostAccess) (s t : State), isCommandWrite a = false → hostAccess a s = .next t →
    t.err = s.err ∧ t.configured = s.configured ∧ t.coef = s.coef ∧ t.delay = s.delay ∧ t.resY = s.resY ∧
    t.out = s.out ∧ t.outLen = s.outLen)

/-- 10_state.md R31: CONFIGURED reads as bit 1 of STATUS, is 0 after reset, set by a successful BQ_CFG, unchanged by a
failing one and by every other command, and never cleared by a step other than power-on reset. -/
def Obligations.ConfiguredIsClearedOnlyByPowerOn : Prop :=
  (∀ s : State, ∃ (t : State) (v : Word), hostAccess (.regRead32 0x04) s = .next t ∧
    t.returned = .word v :: s.returned ∧ v.toNat / 2 % 2 = (if s.configured then 1 else 0)) ∧
  (∀ P : Params, (State.resetWith P).configured = false) ∧
  (∀ s t : State, exec .bqCfg s = .next t → t.configured = (s.configured || decide (t.err = .ok))) ∧
  (∀ (i : Instr) (s t : State), i ≠ .bqCfg → exec i s = .next t → t.configured = s.configured) ∧
  (∀ s t : State, step s = .next t → s.pending.head? ≠ some .powerOn → s.configured = true → t.configured = true)

/-- 10_state.md R41: no host access but a CMD write reads or writes the delay lines, and of what a command leaves, only
the delay lines and the RES_Y of BQ_PROC depend on them. -/
def Obligations.DelayLinesAreHiddenFromTheHost : Prop :=
  (∀ (a : HostAccess) (s t : State) (d : List DelayLine), isCommandWrite a = false → hostAccess a s = .next t →
    t.delay = s.delay ∧ hostAccess a { s with delay := d } = .next { t with delay := d }) ∧
  (∀ (i : Instr) (s t : State) (d : List DelayLine), exec i s = .next t →
    ∃ u : State, exec i { s with delay := d } = .next u ∧ { u with delay := t.delay, resY := t.resY } = t ∧
      ((∀ ch, i ≠ .bqProc ch) → u.resY = t.resY))

/-- 60_exceptions.md R186 and R187, and 30_encoding.md R85: no command is refused, and the only model fault a command can
reach is UNINIT_READ, by ILV_RUN or WAV_ENC. -/
def Obligations.CommandsFaultOnlyOnUnwrittenCells : Prop :=
  ∀ (i : Instr) (s : State),
    (∀ r, exec i s ≠ .refused r) ∧
    (∀ f, exec i s = .fault f → f = .uninitRead ∧ (i = .ilvRun ∨ i = .wavEnc))

/-! ### Reset, invariants -/

/-- 10_state.md R34: the reset value of every register, flag, delay cell and memory cell. -/
def Obligations.ResetHoldsTheStatedValues : Prop :=
  State.reset = State.resetWith State.reset.params ∧
  ∀ P : Params,
    let t := State.resetWith P
    t.busy = none ∧ t.err = .ok ∧ ErrCode.ok.code = 0#8 ∧ t.configured = false ∧
    t.argF0 = 0x409F400000000000#64 ∧ t.argQ = 0x3FF0000000000000#64 ∧ t.argFs = 0x40CF400000000000#64 ∧
    t.argX = 0x0#64 ∧ t.resY = 0x0#64 ∧ t.argNframes = 0#32 ∧ t.argNch = 1#32 ∧ t.argRate = 16000#32 ∧
    t.ilvLen = 0#32 ∧ t.outLen = 0#32 ∧ t.coef = ⟨0x0#64, 0x0#64, 0x0#64, 0x0#64, 0x0#64⟩ ∧
    t.delay.length = P.nchMax ∧ (∀ d ∈ t.delay, d = ⟨0x0#64, 0x0#64, 0x0#64, 0x0#64⟩) ∧
    (∀ k : Nat, Memory.read t.plane k = none ∧ Memory.read t.ilv k = none ∧ Memory.read t.out k = none)

/-- 70_reset_and_hazards.md R200, with power-on as an event that keeps the parameters and what lies outside the block,
which are the pending events, the data returned and the draw counter (log 8, log 17), which is the model's: power-on reset puts every register, flag, delay cell and memory cell at its reset
value, from any state; then the block waits. -/
def Obligations.PowerOnResetSetsEveryValue : Prop :=
  (∀ (s : State) (rest : List Event), s.pending = .powerOn :: rest →
    ∃ t : State, step s = .next t ∧ t.busy = none ∧ t.err = .ok ∧ t.configured = false ∧
      t.argF0 = 0x409F400000000000#64 ∧ t.argQ = 0x3FF0000000000000#64 ∧ t.argFs = 0x40CF400000000000#64 ∧
      t.argX = 0x0#64 ∧ t.resY = 0x0#64 ∧ t.argNframes = 0#32 ∧ t.argNch = 1#32 ∧ t.argRate = 16000#32 ∧
      t.ilvLen = 0#32 ∧ t.outLen = 0#32 ∧ t.coef = ⟨0x0#64, 0x0#64, 0x0#64, 0x0#64, 0x0#64⟩ ∧
      t.delay.length = s.params.nchMax ∧ (∀ d ∈ t.delay, d = ⟨0x0#64, 0x0#64, 0x0#64, 0x0#64⟩) ∧
      (∀ k : Nat, Memory.read t.plane k = none ∧ Memory.read t.ilv k = none ∧ Memory.read t.out k = none) ∧
      t.params = s.params ∧ t.pending = rest ∧ t.returned = s.returned ∧ t.draws = s.draws) ∧
  (∀ s : State, s.pending = [] → step s = .next s) ∧
  step { State.reset with pending := [.powerOn] } = .next State.reset

/-- 70_reset_and_hazards.md R201 and R203: a BQ_PROC straight after reset raises NOT_CONFIGURED, and the reset operands pass
the checks (a) to (d) of 40_biquad.md R105. -/
def Obligations.ResetLeavesTheFilterUnconfigured : Prop :=
  ∀ (P : Params) (ch : Nat),
    (ch < P.nchMax → exec (.bqProc ch) (State.resetWith P) =
      .next { State.resetWith P with err := .notConfigured }) ∧
    isFinite (State.resetWith P).argF0 = true ∧ isFinite (State.resetWith P).argQ = true ∧
    isFinite (State.resetWith P).argFs = true ∧ fgt (State.resetWith P).argQ 0x0#64 = true ∧
    fgt (State.resetWith P).argF0 0x0#64 = true ∧
    fgt (State.resetWith P).argFs (fmul 0x4000000000000000#64 (State.resetWith P).argF0) = true

/-- Every step keeps the invariant: memories canonical and within their sizes, one delay line a channel, finite
coefficients of the right shape (20_memory.md R50 to R53; 10_state.md R40; 40_biquad.md R103, R105). -/
def Obligations.StepKeepsTheInvariant : Prop :=
  ∀ s t : State, Inv s → step s = .next t → Inv t

/-- The invariant holds at reset, whatever the parameters. -/
def Obligations.ResetMeetsTheInvariant : Prop :=
  Inv State.reset ∧ StreamHeld State.reset ∧ ∀ P : Params, Inv (State.resetWith P) ∧ StreamHeld (State.resetWith P)

/-- 20_memory.md R53, 10_state.md R33: OUT always holds every byte of the current stream, in an implementation whose
longest stream length fits OUT_LEN (log 7). -/
def Obligations.StepKeepsTheStreamHeld : Prop :=
  ∀ s t : State, s.params.outMax < 2 ^ 32 → StreamHeld s → step s = .next t → StreamHeld t

/-- 00_scope.md R5, 10_state.md R20, with the parameters held as data (log 1, log 2), which is the model's: no step changes
the parameters, and every parameter value is within R5's bounds. -/
def Obligations.ParametersAreConstantAndLegal : Prop :=
  (∀ s t : State, step s = .next t → t.params = s.params) ∧
  (∀ P : Params, 1 ≤ P.nchMax ∧ P.nchMax ≤ 256 ∧ 1 ≤ P.framesMax ∧ P.ilvMax = P.nchMax * P.framesMax ∧
    P.outMax = 44 + 2 * P.ilvMax ∧ 36 + 2 * P.ilvMax ≤ 2 ^ 32 - 1) ∧
  (∀ c f : Nat, 1 ≤ c → c ≤ 256 → 1 ≤ f → c * f ≤ 2147483629 → ∃ P : Params, P.nchMax = c ∧ P.framesMax = f)

/-- 30_encoding.md R90: the pseudo-instructions that issue a command: the five short ones are the write of their command's
word to CMD, and the five long ones write their operands, then that word, then poll (as one event, log 9), and PROC then
reads RES_Y. -/
def Obligations.PseudoInstructionsWriteTheirCommandWord : Prop :=
  pseudoBqCfg = wr32 0x00 (encode .bqCfg) ∧ pseudoBqRst = wr32 0x00 (encode .bqRst) ∧
  pseudoIlvRun = wr32 0x00 (encode .ilvRun) ∧ pseudoWavEnc = wr32 0x00 (encode .wavEnc) ∧
  (∀ ch : Nat, ch ≤ 255 → pseudoBqProc ch = wr32 0x00 (encode (.bqProc ch))) ∧
  (∀ f0 q fs : F64,
    pseudoCfg f0 q fs = [wr64 0x08 f0, wr64 0x10 q, wr64 0x18 fs, wr32 0x00 (encode .bqCfg), .poll]) ∧
  pseudoRst = [wr32 0x00 (encode .bqRst), .poll] ∧
  (∀ (ch : Nat) (x : F64), ch ≤ 255 →
    pseudoProc ch x = [wr64 0x20 x, wr32 0x00 (encode (.bqProc ch)), .poll, .access (.regRead64 0x28)]) ∧
  (∀ f c : Word, pseudoIlv f c = [wr32 0x30 f, wr32 0x34 c, wr32 0x00 (encode .ilvRun), .poll]) ∧
  (∀ rate c : Word, pseudoEnc rate c = [wr32 0x38 rate, wr32 0x34 c, wr32 0x00 (encode .wavEnc), .poll])

/-! ### binary64 arithmetic at zeros and infinities -/

/-- 00_scope.md R8, with IEEE 754 from general knowledge (log 13): what `fadd` and `fsub` give on NaN, the sign of every
result of finite operands, the exact zero results, and the infinities. -/
def Obligations.SumsAtZerosAndInfinities : Prop :=
  (∀ a b : F64, isNan a = true ∨ isNan b = true → isNan (fadd a b) = true ∧ isNan (fsub a b) = true) ∧
  (∀ a b : F64, isFinite a = true → isFinite b = true →
    (units a + units b = 0 →
      fadd a b = if signBit a && signBit b then 0x8000000000000000#64 else 0x0000000000000000#64) ∧
    (units a + units b ≠ 0 → signBit (fadd a b) = decide (units a + units b < 0)) ∧
    (units a - units b = 0 →
      fsub a b = if signBit a && !signBit b then 0x8000000000000000#64 else 0x0000000000000000#64) ∧
    (units a - units b ≠ 0 → signBit (fsub a b) = decide (units a - units b < 0))) ∧
  (∀ a b : F64, isInf a = true → isFinite b = true →
    fadd a b = a ∧ fadd b a = a ∧ fsub a b = a ∧ fsub b a = fneg a) ∧
  (∀ a b : F64, isInf a = true → isInf b = true →
    (signBit a = signBit b → fadd a b = a ∧ isNan (fsub a b) = true) ∧
    (signBit a ≠ signBit b → isNan (fadd a b) = true ∧ fsub a b = a))

/-- 00_scope.md R8, with IEEE 754 from general knowledge (log 13): when `fmul` and `fdiv` give NaN, the sign of every
other result, and what they give on zeros, infinities and a zero divisor. -/
def Obligations.ProductsAndQuotientsAtZerosAndInfinities : Prop :=
  ∀ a b : F64,
    (isNan (fmul a b) = true ↔ isNan a = true ∨ isNan b = true ∨ (isInf a = true ∧ isZero b = true) ∨
      (isZero a = true ∧ isInf b = true)) ∧
    (isNan (fdiv a b) = true ↔ isNan a = true ∨ isNan b = true ∨ (isInf a = true ∧ isInf b = true) ∨
      (isZero a = true ∧ isZero b = true)) ∧
    (isNan (fmul a b) = false →
      signBit (fmul a b) = (signBit a != signBit b) ∧
      (isInf a = true ∨ isInf b = true → isInf (fmul a b) = true) ∧
      (isZero a = true ∨ isZero b = true → isZero (fmul a b) = true)) ∧
    (isNan (fdiv a b) = false →
      signBit (fdiv a b) = (signBit a != signBit b) ∧
      (isInf a = true ∨ isZero b = true → isInf (fdiv a b) = true) ∧
      (isZero a = true ∨ isInf b = true → isZero (fdiv a b) = true))

/-- 40_biquad.md R111, signed zero and infinite input, for all finite coefficients of the shape that R103 gives and not
the default ones only (log 13): on a clear channel an input of either zero gives +0.0, and an infinite input with
C[0] > 0 gives that infinity and then NaN, whatever comes next. -/
def Obligations.SignedZeroAndInfiniteInputs : Prop :=
  ∀ (s : State) (ch : Nat), ch < s.params.nchMax → s.configured = true →
    s.delay[ch]? = some ⟨0x0#64, 0x0#64, 0x0#64, 0x0#64⟩ → coeffsFinite s.coef = true → s.coef.c1 = 0x0#64 →
    (isZero s.argX = true → ∃ t : State, exec (.bqProc ch) s = .next t ∧ t.resY = 0x0#64) ∧
    (isInf s.argX = true → fgt s.coef.c0 0x0#64 = true →
      ∃ t : State, exec (.bqProc ch) s = .next t ∧ t.resY = s.argX ∧
        ∀ x : F64, ∃ u : State, exec (.bqProc ch) { t with argX := x } = .next u ∧ isNan u.resY = true)
end

