-- ==== Sys2Proof/Laws/Memory.lean ====
section
/-! SUPPORT. What the memory operations do: read after write, locality, the canonical form, the indices listed. -/

namespace Sys2Proof.Machine

variable {α : Type}

@[simp] theorem Memory.read_nil (a : Nat) : Memory.read ([] : Memory α) a = none := rfl

@[simp] theorem Memory.read_cons (c : Nat × α) (m : Memory α) (a : Nat) :
    Memory.read (c :: m) a = if c.1 = a then some c.2 else Memory.read m a := rfl

/-- A read returns the value of the last write to the same cell (20_memory.md R69). -/
theorem Memory.read_write_same (m : Memory α) (a : Nat) (v : α) : Memory.read (Memory.write m a v) a = some v := by
  induction m with
  | nil => simp [Memory.write]
  | cons c m ih =>
    obtain ⟨k, w⟩ := c
    simp only [Memory.write]
    split
    · simp
    · split
      · simp
      · have : k ≠ a := by omega
        simp [this, ih]

/-- A write leaves every other cell alone (20_memory.md R61). -/
theorem Memory.read_write_other (m : Memory α) (a b : Nat) (v : α) (h : b ≠ a) :
    Memory.read (Memory.write m a v) b = Memory.read m b := by
  have h' : a ≠ b := Ne.symm h
  induction m with
  | nil => simp [Memory.write, h']
  | cons c m ih =>
    obtain ⟨k, w⟩ := c
    simp only [Memory.write]
    split
    · simp [h']
    · split
      · rename_i hk
        simp [h', show k ≠ b by omega]
      · simp [ih]

theorem Memory.read_write (m : Memory α) (a b : Nat) (v : α) :
    Memory.read (Memory.write m a v) b = if b = a then some v else Memory.read m b := by
  split
  · subst b; exact Memory.read_write_same m a v
  · exact Memory.read_write_other m a b v ‹_›

/-- The entries after a write: the written one, or one that was there. -/
theorem Memory.mem_write {m : Memory α} {a : Nat} {v : α} {c : Nat × α} (h : c ∈ Memory.write m a v) :
    c = (a, v) ∨ c ∈ m := by
  induction m with
  | nil => simpa [Memory.write] using h
  | cons d m ih =>
    obtain ⟨k, w⟩ := d
    simp only [Memory.write] at h
    split at h
    · simpa using h
    · split at h
      · rcases List.mem_cons.1 h with h | h
        · exact .inl h
        · exact .inr (List.mem_cons_of_mem _ h)
      · rcases List.mem_cons.1 h with h | h
        · exact .inr (by simp [h])
        · exact (ih h).imp id (List.mem_cons_of_mem _)

/-- A write keeps the canonical form. -/
theorem Memory.write_wf {m : Memory α} (a : Nat) (v : α) (h : Memory.wf m) : Memory.wf (Memory.write m a v) := by
  induction m with
  | nil => simp [Memory.write, Memory.wf]
  | cons d m ih =>
    obtain ⟨k, w⟩ := d
    obtain ⟨hk, hm⟩ := List.pairwise_cons.1 h
    simp only [Memory.write]
    split
    · rename_i hak
      refine List.pairwise_cons.2 ⟨fun c hc => ?_, h⟩
      rcases List.mem_cons.1 hc with rfl | hc
      · exact hak
      · exact Nat.lt_trans hak (hk c hc)
    · split
      · subst a; exact List.pairwise_cons.2 ⟨hk, hm⟩
      · refine List.pairwise_cons.2 ⟨fun c hc => ?_, ih hm⟩
        rcases Memory.mem_write hc with rfl | hc
        · simp only; omega
        · exact hk c hc

@[simp] theorem Memory.writeAll_nil (m : Memory α) : Memory.writeAll m [] = m := rfl

@[simp] theorem Memory.writeAll_cons (m : Memory α) (c : Nat × α) (l : List (Nat × α)) :
    Memory.writeAll m (c :: l) = Memory.writeAll (Memory.write m c.1 c.2) l := rfl

theorem Memory.writeAll_append (m : Memory α) (l l' : List (Nat × α)) :
    Memory.writeAll m (l ++ l') = Memory.writeAll (Memory.writeAll m l) l' := by
  simp [Memory.writeAll, List.foldl_append]

theorem Memory.writeAll_wf {m : Memory α} (l : List (Nat × α)) (h : Memory.wf m) :
    Memory.wf (Memory.writeAll m l) := by
  induction l generalizing m with
  | nil => exact h
  | cons c l ih => exact ih (Memory.write_wf _ _ h)

theorem Memory.mem_writeAll {m : Memory α} {l : List (Nat × α)} {c : Nat × α} (h : c ∈ Memory.writeAll m l) :
    c ∈ l ∨ c ∈ m := by
  induction l generalizing m with
  | nil => exact .inr h
  | cons d l ih =>
    rcases ih h with h | h
    · exact .inl (List.mem_cons_of_mem _ h)
    · rcases Memory.mem_write h with rfl | h
      · exact .inl (by simp)
      · exact .inr h

/-- A cell that no listed write names reads as before. -/
theorem Memory.read_writeAll_other (m : Memory α) (l : List (Nat × α)) (a : Nat) (h : ∀ c ∈ l, c.1 ≠ a) :
    Memory.read (Memory.writeAll m l) a = Memory.read m a := by
  induction l generalizing m with
  | nil => rfl
  | cons c l ih =>
    rw [Memory.writeAll_cons, ih _ (fun d hd => h d (List.mem_cons_of_mem _ hd))]
    exact Memory.read_write_other _ _ _ _ (Ne.symm (h c (by simp)))

/-- Where the listed writes name no index twice, each written cell reads as its own write. -/
theorem Memory.read_writeAll_mem (m : Memory α) (l : List (Nat × α)) (a : Nat) (v : α)
    (hnd : (l.map Prod.fst).Nodup) (h : (a, v) ∈ l) : Memory.read (Memory.writeAll m l) a = some v := by
  induction l generalizing m with
  | nil => simp at h
  | cons c l ih =>
    rw [List.map_cons, List.nodup_cons] at hnd
    rw [Memory.writeAll_cons]
    rcases List.mem_cons.1 h with rfl | h
    · rw [Memory.read_writeAll_other, Memory.read_write_same]
      intro d hd hda
      have hmem := List.mem_map_of_mem (f := Prod.fst) hd
      rw [hda] at hmem
      exact hnd.1 hmem
    · exact ih _ hnd.2 h

/-- Whatever was there before, a write list that names a cell decides what it reads. -/
theorem Memory.read_writeAll_congr (m m' : Memory α) (l : List (Nat × α)) (a : Nat) (h : ∃ c ∈ l, c.1 = a) :
    Memory.read (Memory.writeAll m l) a = Memory.read (Memory.writeAll m' l) a := by
  induction l generalizing m m' with
  | nil => simp at h
  | cons c l ih =>
    rw [Memory.writeAll_cons, Memory.writeAll_cons]
    by_cases hl : ∃ d ∈ l, d.1 = a
    · exact ih _ _ hl
    · have hl' : ∀ d ∈ l, d.1 ≠ a := fun d hd hda => hl ⟨d, hd, hda⟩
      obtain ⟨d, hd, hda⟩ := h
      rcases List.mem_cons.1 hd with rfl | hd
      · rw [Memory.read_writeAll_other _ _ _ hl', Memory.read_writeAll_other _ _ _ hl', ← hda,
          Memory.read_write_same, Memory.read_write_same]
      · exact absurd hda (hl' d hd)

/-- A listed write makes its cell hold a value. -/
theorem Memory.read_writeAll_isSome (m : Memory α) (l : List (Nat × α)) (a : Nat) (h : ∃ c ∈ l, c.1 = a) :
    (Memory.read (Memory.writeAll m l) a).isSome = true := by
  induction l generalizing m with
  | nil => simp at h
  | cons c l ih =>
    rw [Memory.writeAll_cons]
    by_cases hl : ∃ d ∈ l, d.1 = a
    · exact ih _ hl
    · have hl' : ∀ d ∈ l, d.1 ≠ a := fun d hd hda => hl ⟨d, hd, hda⟩
      obtain ⟨d, hd, hda⟩ := h
      rcases List.mem_cons.1 hd with rfl | hd
      · rw [Memory.read_writeAll_other _ _ _ hl', ← hda, Memory.read_write_same]; rfl
      · exact absurd hda (hl' d hd)

/-- A PLANE index determines its channel and frame (20_memory.md R51). -/
theorem planeIndex_inj {j i j' i' : Nat} (hj : j < 256) (hj' : j' < 256) (h : planeIndex j i = planeIndex j' i') :
    j = j' ∧ i = i' := by
  unfold planeIndex at h; omega

theorem planeIndex_mod {j i : Nat} (hj : j < 256) : planeIndex j i % 256 = j := by
  unfold planeIndex; omega

theorem planeIndex_div {j i : Nat} (hj : j < 256) : planeIndex j i / 256 = i := by
  unfold planeIndex; omega

/-- The cells of a multi-byte write lie in its bytes (20_memory.md R54). -/
theorem mem_outCells {b n v : Nat} {c : Nat × Byte} (h : c ∈ outCells b n v) : b ≤ c.1 ∧ c.1 < b + n := by
  simp only [outCells, List.mem_map, List.mem_range] at h
  obtain ⟨m, hm, rfl⟩ := h
  exact ⟨by simp, by simpa using hm⟩

theorem outCells_covers {b n v a : Nat} (h1 : b ≤ a) (h2 : a < b + n) :
    (a, BitVec.ofNat 8 (v / 2 ^ (8 * (a - b)))) ∈ outCells b n v := by
  simp only [outCells, List.mem_map, List.mem_range]
  exact ⟨a - b, by omega, by simp [Nat.add_sub_cancel' h1]⟩

end Sys2Proof.Machine
end

