-- ==== Sys2Proof/Laws/Decode.lean ====
section
/-! SUPPORT. The fields of a command word as numbers (30_encoding.md R82). -/

namespace Sys2Proof

theorem toNat_append_add {m n : Nat} (x : BitVec m) (y : BitVec n) : (x ++ y).toNat = x.toNat * 2 ^ n + y.toNat := by
  rw [BitVec.toNat_append, ← Nat.shiftLeft_add_eq_or_of_lt y.isLt, Nat.shiftLeft_eq]

theorem commandWord_toNat (ch op : BitVec 8) : (commandWord ch op).toNat = ch.toNat * 256 + op.toNat := by
  rw [commandWord, toNat_append_add, toNat_append_add]
  simp

theorem opField_toNat (w : Word) : (opField w).toNat = w.toNat % 256 := by
  simp [opField, BitVec.extractLsb'_toNat]

theorem chField_toNat (w : Word) : (chField w).toNat = w.toNat / 256 % 256 := by
  simp [chField, BitVec.extractLsb'_toNat, Nat.shiftRight_eq_div_pow]

theorem rsvdField_toNat (w : Word) : (rsvdField w).toNat = w.toNat / 65536 := by
  have := w.isLt
  simp only [rsvdField, BitVec.extractLsb'_toNat, Nat.shiftRight_eq_div_pow]
  omega

@[simp] theorem opField_commandWord (ch op : BitVec 8) : opField (commandWord ch op) = op := by
  apply BitVec.eq_of_toNat_eq
  have := op.isLt
  rw [opField_toNat, commandWord_toNat]
  omega

@[simp] theorem chField_commandWord (ch op : BitVec 8) : chField (commandWord ch op) = ch := by
  apply BitVec.eq_of_toNat_eq
  have := op.isLt
  have := ch.isLt
  rw [chField_toNat, commandWord_toNat]
  omega

@[simp] theorem rsvdField_commandWord (ch op : BitVec 8) : rsvdField (commandWord ch op) = 0 := by
  apply BitVec.eq_of_toNat_eq
  have := op.isLt
  have := ch.isLt
  rw [rsvdField_toNat, commandWord_toNat]
  simp
  omega

/-- The decode of 30_encoding.md R85 on the fields as numbers. -/
theorem decode_eq_numeric (w : Word) : decode w =
    if w.toNat / 65536 ≠ 0 then .error .reservedField
    else if w.toNat % 256 = 0x03 then .ok (.bqProc (w.toNat / 256 % 256))
    else if w.toNat / 256 % 256 ≠ 0 then .error .channelField
    else if w.toNat % 256 = 0x01 then .ok .bqCfg
    else if w.toNat % 256 = 0x02 then .ok .bqRst
    else if w.toNat % 256 = 0x10 then .ok .ilvRun
    else if w.toNat % 256 = 0x20 then .ok .wavEnc
    else .error .unassignedOpcode := by
  simp only [decode, ← opField_toNat, ← chField_toNat, ← rsvdField_toNat, ne_eq, ← BitVec.toNat_inj]
  rfl

end Sys2Proof
end

