-- ==== Sys2Proof/Laws/State.lean ====
section
/-! SUPPORT. One lemma for each field of each named update of the state, and what the updates of the host port keep. -/

namespace Sys2Proof.Machine

/-! raiseError -/

@[simp] theorem raiseError_argF0 (s : State) (e : ErrCode) : (raiseError s e).argF0 = s.argF0 := rfl
@[simp] theorem raiseError_argQ (s : State) (e : ErrCode) : (raiseError s e).argQ = s.argQ := rfl
@[simp] theorem raiseError_argFs (s : State) (e : ErrCode) : (raiseError s e).argFs = s.argFs := rfl
@[simp] theorem raiseError_argX (s : State) (e : ErrCode) : (raiseError s e).argX = s.argX := rfl
@[simp] theorem raiseError_resY (s : State) (e : ErrCode) : (raiseError s e).resY = s.resY := rfl
@[simp] theorem raiseError_argNframes (s : State) (e : ErrCode) : (raiseError s e).argNframes = s.argNframes := rfl
@[simp] theorem raiseError_argNch (s : State) (e : ErrCode) : (raiseError s e).argNch = s.argNch := rfl
@[simp] theorem raiseError_argRate (s : State) (e : ErrCode) : (raiseError s e).argRate = s.argRate := rfl
@[simp] theorem raiseError_ilvLen (s : State) (e : ErrCode) : (raiseError s e).ilvLen = s.ilvLen := rfl
@[simp] theorem raiseError_outLen (s : State) (e : ErrCode) : (raiseError s e).outLen = s.outLen := rfl
@[simp] theorem raiseError_coef (s : State) (e : ErrCode) : (raiseError s e).coef = s.coef := rfl
@[simp] theorem raiseError_configured (s : State) (e : ErrCode) : (raiseError s e).configured = s.configured := rfl
@[simp] theorem raiseError_err (s : State) (e : ErrCode) : (raiseError s e).err = e := rfl
@[simp] theorem raiseError_busy (s : State) (e : ErrCode) : (raiseError s e).busy = s.busy := rfl
@[simp] theorem raiseError_delay (s : State) (e : ErrCode) : (raiseError s e).delay = s.delay := rfl
@[simp] theorem raiseError_plane (s : State) (e : ErrCode) : (raiseError s e).plane = s.plane := rfl
@[simp] theorem raiseError_ilv (s : State) (e : ErrCode) : (raiseError s e).ilv = s.ilv := rfl
@[simp] theorem raiseError_out (s : State) (e : ErrCode) : (raiseError s e).out = s.out := rfl
@[simp] theorem raiseError_params (s : State) (e : ErrCode) : (raiseError s e).params = s.params := rfl
@[simp] theorem raiseError_pending (s : State) (e : ErrCode) : (raiseError s e).pending = s.pending := rfl
@[simp] theorem raiseError_returned (s : State) (e : ErrCode) : (raiseError s e).returned = s.returned := rfl
@[simp] theorem raiseError_draws (s : State) (e : ErrCode) : (raiseError s e).draws = s.draws := rfl

/-! succeed -/

@[simp] theorem succeed_argF0 (s : State) : (succeed s).argF0 = s.argF0 := rfl
@[simp] theorem succeed_argQ (s : State) : (succeed s).argQ = s.argQ := rfl
@[simp] theorem succeed_argFs (s : State) : (succeed s).argFs = s.argFs := rfl
@[simp] theorem succeed_argX (s : State) : (succeed s).argX = s.argX := rfl
@[simp] theorem succeed_resY (s : State) : (succeed s).resY = s.resY := rfl
@[simp] theorem succeed_argNframes (s : State) : (succeed s).argNframes = s.argNframes := rfl
@[simp] theorem succeed_argNch (s : State) : (succeed s).argNch = s.argNch := rfl
@[simp] theorem succeed_argRate (s : State) : (succeed s).argRate = s.argRate := rfl
@[simp] theorem succeed_ilvLen (s : State) : (succeed s).ilvLen = s.ilvLen := rfl
@[simp] theorem succeed_outLen (s : State) : (succeed s).outLen = s.outLen := rfl
@[simp] theorem succeed_coef (s : State) : (succeed s).coef = s.coef := rfl
@[simp] theorem succeed_configured (s : State) : (succeed s).configured = s.configured := rfl
@[simp] theorem succeed_err (s : State) : (succeed s).err = .ok := rfl
@[simp] theorem succeed_busy (s : State) : (succeed s).busy = s.busy := rfl
@[simp] theorem succeed_delay (s : State) : (succeed s).delay = s.delay := rfl
@[simp] theorem succeed_plane (s : State) : (succeed s).plane = s.plane := rfl
@[simp] theorem succeed_ilv (s : State) : (succeed s).ilv = s.ilv := rfl
@[simp] theorem succeed_out (s : State) : (succeed s).out = s.out := rfl
@[simp] theorem succeed_params (s : State) : (succeed s).params = s.params := rfl
@[simp] theorem succeed_pending (s : State) : (succeed s).pending = s.pending := rfl
@[simp] theorem succeed_returned (s : State) : (succeed s).returned = s.returned := rfl
@[simp] theorem succeed_draws (s : State) : (succeed s).draws = s.draws := rfl

/-! startCommand -/

@[simp] theorem startCommand_argF0 (s : State) : (startCommand s).argF0 = s.argF0 := rfl
@[simp] theorem startCommand_argQ (s : State) : (startCommand s).argQ = s.argQ := rfl
@[simp] theorem startCommand_argFs (s : State) : (startCommand s).argFs = s.argFs := rfl
@[simp] theorem startCommand_argX (s : State) : (startCommand s).argX = s.argX := rfl
@[simp] theorem startCommand_resY (s : State) : (startCommand s).resY = s.resY := rfl
@[simp] theorem startCommand_argNframes (s : State) : (startCommand s).argNframes = s.argNframes := rfl
@[simp] theorem startCommand_argNch (s : State) : (startCommand s).argNch = s.argNch := rfl
@[simp] theorem startCommand_argRate (s : State) : (startCommand s).argRate = s.argRate := rfl
@[simp] theorem startCommand_ilvLen (s : State) : (startCommand s).ilvLen = s.ilvLen := rfl
@[simp] theorem startCommand_outLen (s : State) : (startCommand s).outLen = s.outLen := rfl
@[simp] theorem startCommand_coef (s : State) : (startCommand s).coef = s.coef := rfl
@[simp] theorem startCommand_configured (s : State) : (startCommand s).configured = s.configured := rfl
@[simp] theorem startCommand_err (s : State) : (startCommand s).err = s.err := rfl
@[simp] theorem startCommand_busy (s : State) : (startCommand s).busy = some (Config.busyReads s.draws) := rfl
@[simp] theorem startCommand_delay (s : State) : (startCommand s).delay = s.delay := rfl
@[simp] theorem startCommand_plane (s : State) : (startCommand s).plane = s.plane := rfl
@[simp] theorem startCommand_ilv (s : State) : (startCommand s).ilv = s.ilv := rfl
@[simp] theorem startCommand_out (s : State) : (startCommand s).out = s.out := rfl
@[simp] theorem startCommand_params (s : State) : (startCommand s).params = s.params := rfl
@[simp] theorem startCommand_pending (s : State) : (startCommand s).pending = s.pending := rfl
@[simp] theorem startCommand_returned (s : State) : (startCommand s).returned = s.returned := rfl
@[simp] theorem startCommand_draws (s : State) : (startCommand s).draws = s.draws + 1 := rfl

/-! returnDatum -/

@[simp] theorem returnDatum_argF0 (s : State) (d : Datum) : (returnDatum s d).argF0 = s.argF0 := rfl
@[simp] theorem returnDatum_argQ (s : State) (d : Datum) : (returnDatum s d).argQ = s.argQ := rfl
@[simp] theorem returnDatum_argFs (s : State) (d : Datum) : (returnDatum s d).argFs = s.argFs := rfl
@[simp] theorem returnDatum_argX (s : State) (d : Datum) : (returnDatum s d).argX = s.argX := rfl
@[simp] theorem returnDatum_resY (s : State) (d : Datum) : (returnDatum s d).resY = s.resY := rfl
@[simp] theorem returnDatum_argNframes (s : State) (d : Datum) : (returnDatum s d).argNframes = s.argNframes := rfl
@[simp] theorem returnDatum_argNch (s : State) (d : Datum) : (returnDatum s d).argNch = s.argNch := rfl
@[simp] theorem returnDatum_argRate (s : State) (d : Datum) : (returnDatum s d).argRate = s.argRate := rfl
@[simp] theorem returnDatum_ilvLen (s : State) (d : Datum) : (returnDatum s d).ilvLen = s.ilvLen := rfl
@[simp] theorem returnDatum_outLen (s : State) (d : Datum) : (returnDatum s d).outLen = s.outLen := rfl
@[simp] theorem returnDatum_coef (s : State) (d : Datum) : (returnDatum s d).coef = s.coef := rfl
@[simp] theorem returnDatum_configured (s : State) (d : Datum) : (returnDatum s d).configured = s.configured := rfl
@[simp] theorem returnDatum_err (s : State) (d : Datum) : (returnDatum s d).err = s.err := rfl
@[simp] theorem returnDatum_busy (s : State) (d : Datum) : (returnDatum s d).busy = s.busy := rfl
@[simp] theorem returnDatum_delay (s : State) (d : Datum) : (returnDatum s d).delay = s.delay := rfl
@[simp] theorem returnDatum_plane (s : State) (d : Datum) : (returnDatum s d).plane = s.plane := rfl
@[simp] theorem returnDatum_ilv (s : State) (d : Datum) : (returnDatum s d).ilv = s.ilv := rfl
@[simp] theorem returnDatum_out (s : State) (d : Datum) : (returnDatum s d).out = s.out := rfl
@[simp] theorem returnDatum_params (s : State) (d : Datum) : (returnDatum s d).params = s.params := rfl
@[simp] theorem returnDatum_pending (s : State) (d : Datum) : (returnDatum s d).pending = s.pending := rfl
@[simp] theorem returnDatum_returned (s : State) (d : Datum) : (returnDatum s d).returned = d :: s.returned := rfl
@[simp] theorem returnDatum_draws (s : State) (d : Datum) : (returnDatum s d).draws = s.draws := rfl

/-! writeDelay -/

@[simp] theorem writeDelay_argF0 (s : State) (ch : Nat) (d : DelayLine) : (writeDelay s ch d).argF0 = s.argF0 := rfl
@[simp] theorem writeDelay_argQ (s : State) (ch : Nat) (d : DelayLine) : (writeDelay s ch d).argQ = s.argQ := rfl
@[simp] theorem writeDelay_argFs (s : State) (ch : Nat) (d : DelayLine) : (writeDelay s ch d).argFs = s.argFs := rfl
@[simp] theorem writeDelay_argX (s : State) (ch : Nat) (d : DelayLine) : (writeDelay s ch d).argX = s.argX := rfl
@[simp] theorem writeDelay_resY (s : State) (ch : Nat) (d : DelayLine) : (writeDelay s ch d).resY = s.resY := rfl
@[simp] theorem writeDelay_argNframes (s : State) (ch : Nat) (d : DelayLine) : (writeDelay s ch d).argNframes = s.argNframes := rfl
@[simp] theorem writeDelay_argNch (s : State) (ch : Nat) (d : DelayLine) : (writeDelay s ch d).argNch = s.argNch := rfl
@[simp] theorem writeDelay_argRate (s : State) (ch : Nat) (d : DelayLine) : (writeDelay s ch d).argRate = s.argRate := rfl
@[simp] theorem writeDelay_ilvLen (s : State) (ch : Nat) (d : DelayLine) : (writeDelay s ch d).ilvLen = s.ilvLen := rfl
@[simp] theorem writeDelay_outLen (s : State) (ch : Nat) (d : DelayLine) : (writeDelay s ch d).outLen = s.outLen := rfl
@[simp] theorem writeDelay_coef (s : State) (ch : Nat) (d : DelayLine) : (writeDelay s ch d).coef = s.coef := rfl
@[simp] theorem writeDelay_configured (s : State) (ch : Nat) (d : DelayLine) : (writeDelay s ch d).configured = s.configured := rfl
@[simp] theorem writeDelay_err (s : State) (ch : Nat) (d : DelayLine) : (writeDelay s ch d).err = s.err := rfl
@[simp] theorem writeDelay_busy (s : State) (ch : Nat) (d : DelayLine) : (writeDelay s ch d).busy = s.busy := rfl
@[simp] theorem writeDelay_delay (s : State) (ch : Nat) (d : DelayLine) : (writeDelay s ch d).delay = s.delay.set ch d := rfl
@[simp] theorem writeDelay_plane (s : State) (ch : Nat) (d : DelayLine) : (writeDelay s ch d).plane = s.plane := rfl
@[simp] theorem writeDelay_ilv (s : State) (ch : Nat) (d : DelayLine) : (writeDelay s ch d).ilv = s.ilv := rfl
@[simp] theorem writeDelay_out (s : State) (ch : Nat) (d : DelayLine) : (writeDelay s ch d).out = s.out := rfl
@[simp] theorem writeDelay_params (s : State) (ch : Nat) (d : DelayLine) : (writeDelay s ch d).params = s.params := rfl
@[simp] theorem writeDelay_pending (s : State) (ch : Nat) (d : DelayLine) : (writeDelay s ch d).pending = s.pending := rfl
@[simp] theorem writeDelay_returned (s : State) (ch : Nat) (d : DelayLine) : (writeDelay s ch d).returned = s.returned := rfl
@[simp] theorem writeDelay_draws (s : State) (ch : Nat) (d : DelayLine) : (writeDelay s ch d).draws = s.draws := rfl

/-! powerOnReset: the power-on values of 10_state.md R34 -/

@[simp] theorem powerOnReset_argF0 (s : State) : (powerOnReset s).argF0 = 0x409F400000000000#64 := rfl
@[simp] theorem powerOnReset_argQ (s : State) : (powerOnReset s).argQ = 0x3FF0000000000000#64 := rfl
@[simp] theorem powerOnReset_argFs (s : State) : (powerOnReset s).argFs = 0x40CF400000000000#64 := rfl
@[simp] theorem powerOnReset_argX (s : State) : (powerOnReset s).argX = zeroF := rfl
@[simp] theorem powerOnReset_resY (s : State) : (powerOnReset s).resY = zeroF := rfl
@[simp] theorem powerOnReset_argNframes (s : State) : (powerOnReset s).argNframes = 0#32 := rfl
@[simp] theorem powerOnReset_argNch (s : State) : (powerOnReset s).argNch = 1#32 := rfl
@[simp] theorem powerOnReset_argRate (s : State) : (powerOnReset s).argRate = 0x00003E80#32 := rfl
@[simp] theorem powerOnReset_ilvLen (s : State) : (powerOnReset s).ilvLen = 0#32 := rfl
@[simp] theorem powerOnReset_outLen (s : State) : (powerOnReset s).outLen = 0#32 := rfl
@[simp] theorem powerOnReset_coef (s : State) : (powerOnReset s).coef = ⟨zeroF, zeroF, zeroF, zeroF, zeroF⟩ := rfl
@[simp] theorem powerOnReset_configured (s : State) : (powerOnReset s).configured = false := rfl
@[simp] theorem powerOnReset_err (s : State) : (powerOnReset s).err = .ok := rfl
@[simp] theorem powerOnReset_busy (s : State) : (powerOnReset s).busy = none := rfl
@[simp] theorem powerOnReset_delay (s : State) : (powerOnReset s).delay = List.replicate s.params.nchMax DelayLine.zero := rfl
@[simp] theorem powerOnReset_plane (s : State) : (powerOnReset s).plane = [] := rfl
@[simp] theorem powerOnReset_ilv (s : State) : (powerOnReset s).ilv = [] := rfl
@[simp] theorem powerOnReset_out (s : State) : (powerOnReset s).out = [] := rfl
@[simp] theorem powerOnReset_params (s : State) : (powerOnReset s).params = s.params := rfl
@[simp] theorem powerOnReset_pending (s : State) : (powerOnReset s).pending = s.pending := rfl
@[simp] theorem powerOnReset_returned (s : State) : (powerOnReset s).returned = s.returned := rfl
@[simp] theorem powerOnReset_draws (s : State) : (powerOnReset s).draws = s.draws := rfl

/-! writeReg32 and writeReg64: host writes reach argument registers and ILV_LEN only (10_state.md R36) -/

@[simp] theorem writeReg32_argF0 (s : State) (r : Reg32) (v : Word) : (writeReg32 s r v).argF0 = s.argF0 := by
  cases r <;> rfl

@[simp] theorem writeReg32_argQ (s : State) (r : Reg32) (v : Word) : (writeReg32 s r v).argQ = s.argQ := by
  cases r <;> rfl

@[simp] theorem writeReg32_argFs (s : State) (r : Reg32) (v : Word) : (writeReg32 s r v).argFs = s.argFs := by
  cases r <;> rfl

@[simp] theorem writeReg32_argX (s : State) (r : Reg32) (v : Word) : (writeReg32 s r v).argX = s.argX := by
  cases r <;> rfl

@[simp] theorem writeReg32_resY (s : State) (r : Reg32) (v : Word) : (writeReg32 s r v).resY = s.resY := by
  cases r <;> rfl

@[simp] theorem writeReg32_outLen (s : State) (r : Reg32) (v : Word) : (writeReg32 s r v).outLen = s.outLen := by
  cases r <;> rfl

@[simp] theorem writeReg32_coef (s : State) (r : Reg32) (v : Word) : (writeReg32 s r v).coef = s.coef := by
  cases r <;> rfl

@[simp] theorem writeReg32_configured (s : State) (r : Reg32) (v : Word) : (writeReg32 s r v).configured = s.configured := by
  cases r <;> rfl

@[simp] theorem writeReg32_err (s : State) (r : Reg32) (v : Word) : (writeReg32 s r v).err = s.err := by
  cases r <;> rfl

@[simp] theorem writeReg32_busy (s : State) (r : Reg32) (v : Word) : (writeReg32 s r v).busy = s.busy := by
  cases r <;> rfl

@[simp] theorem writeReg32_delay (s : State) (r : Reg32) (v : Word) : (writeReg32 s r v).delay = s.delay := by
  cases r <;> rfl

@[simp] theorem writeReg32_plane (s : State) (r : Reg32) (v : Word) : (writeReg32 s r v).plane = s.plane := by
  cases r <;> rfl

@[simp] theorem writeReg32_ilv (s : State) (r : Reg32) (v : Word) : (writeReg32 s r v).ilv = s.ilv := by
  cases r <;> rfl

@[simp] theorem writeReg32_out (s : State) (r : Reg32) (v : Word) : (writeReg32 s r v).out = s.out := by
  cases r <;> rfl

@[simp] theorem writeReg32_params (s : State) (r : Reg32) (v : Word) : (writeReg32 s r v).params = s.params := by
  cases r <;> rfl

@[simp] theorem writeReg32_pending (s : State) (r : Reg32) (v : Word) : (writeReg32 s r v).pending = s.pending := by
  cases r <;> rfl

@[simp] theorem writeReg32_returned (s : State) (r : Reg32) (v : Word) : (writeReg32 s r v).returned = s.returned := by
  cases r <;> rfl

@[simp] theorem writeReg32_draws (s : State) (r : Reg32) (v : Word) : (writeReg32 s r v).draws = s.draws := by
  cases r <;> rfl

@[simp] theorem writeReg64_resY (s : State) (r : Reg64) (v : F64) : (writeReg64 s r v).resY = s.resY := by
  cases r <;> rfl

@[simp] theorem writeReg64_argNframes (s : State) (r : Reg64) (v : F64) : (writeReg64 s r v).argNframes = s.argNframes := by
  cases r <;> rfl

@[simp] theorem writeReg64_argNch (s : State) (r : Reg64) (v : F64) : (writeReg64 s r v).argNch = s.argNch := by
  cases r <;> rfl

@[simp] theorem writeReg64_argRate (s : State) (r : Reg64) (v : F64) : (writeReg64 s r v).argRate = s.argRate := by
  cases r <;> rfl

@[simp] theorem writeReg64_ilvLen (s : State) (r : Reg64) (v : F64) : (writeReg64 s r v).ilvLen = s.ilvLen := by
  cases r <;> rfl

@[simp] theorem writeReg64_outLen (s : State) (r : Reg64) (v : F64) : (writeReg64 s r v).outLen = s.outLen := by
  cases r <;> rfl

@[simp] theorem writeReg64_coef (s : State) (r : Reg64) (v : F64) : (writeReg64 s r v).coef = s.coef := by
  cases r <;> rfl

@[simp] theorem writeReg64_configured (s : State) (r : Reg64) (v : F64) : (writeReg64 s r v).configured = s.configured := by
  cases r <;> rfl

@[simp] theorem writeReg64_err (s : State) (r : Reg64) (v : F64) : (writeReg64 s r v).err = s.err := by
  cases r <;> rfl

@[simp] theorem writeReg64_busy (s : State) (r : Reg64) (v : F64) : (writeReg64 s r v).busy = s.busy := by
  cases r <;> rfl

@[simp] theorem writeReg64_delay (s : State) (r : Reg64) (v : F64) : (writeReg64 s r v).delay = s.delay := by
  cases r <;> rfl

@[simp] theorem writeReg64_plane (s : State) (r : Reg64) (v : F64) : (writeReg64 s r v).plane = s.plane := by
  cases r <;> rfl

@[simp] theorem writeReg64_ilv (s : State) (r : Reg64) (v : F64) : (writeReg64 s r v).ilv = s.ilv := by
  cases r <;> rfl

@[simp] theorem writeReg64_out (s : State) (r : Reg64) (v : F64) : (writeReg64 s r v).out = s.out := by
  cases r <;> rfl

@[simp] theorem writeReg64_params (s : State) (r : Reg64) (v : F64) : (writeReg64 s r v).params = s.params := by
  cases r <;> rfl

@[simp] theorem writeReg64_pending (s : State) (r : Reg64) (v : F64) : (writeReg64 s r v).pending = s.pending := by
  cases r <;> rfl

@[simp] theorem writeReg64_returned (s : State) (r : Reg64) (v : F64) : (writeReg64 s r v).returned = s.returned := by
  cases r <;> rfl

@[simp] theorem writeReg64_draws (s : State) (r : Reg64) (v : F64) : (writeReg64 s r v).draws = s.draws := by
  cases r <;> rfl

/-! statusRead: what a STATUS read keeps (10_state.md R26) -/

@[simp] theorem statusRead_argF0 (s : State) : (statusRead s).2.argF0 = s.argF0 := by
  unfold statusRead; split <;> rfl

@[simp] theorem statusRead_argQ (s : State) : (statusRead s).2.argQ = s.argQ := by
  unfold statusRead; split <;> rfl

@[simp] theorem statusRead_argFs (s : State) : (statusRead s).2.argFs = s.argFs := by
  unfold statusRead; split <;> rfl

@[simp] theorem statusRead_argX (s : State) : (statusRead s).2.argX = s.argX := by
  unfold statusRead; split <;> rfl

@[simp] theorem statusRead_resY (s : State) : (statusRead s).2.resY = s.resY := by
  unfold statusRead; split <;> rfl

@[simp] theorem statusRead_argNframes (s : State) : (statusRead s).2.argNframes = s.argNframes := by
  unfold statusRead; split <;> rfl

@[simp] theorem statusRead_argNch (s : State) : (statusRead s).2.argNch = s.argNch := by
  unfold statusRead; split <;> rfl

@[simp] theorem statusRead_argRate (s : State) : (statusRead s).2.argRate = s.argRate := by
  unfold statusRead; split <;> rfl

@[simp] theorem statusRead_ilvLen (s : State) : (statusRead s).2.ilvLen = s.ilvLen := by
  unfold statusRead; split <;> rfl

@[simp] theorem statusRead_outLen (s : State) : (statusRead s).2.outLen = s.outLen := by
  unfold statusRead; split <;> rfl

@[simp] theorem statusRead_coef (s : State) : (statusRead s).2.coef = s.coef := by
  unfold statusRead; split <;> rfl

@[simp] theorem statusRead_configured (s : State) : (statusRead s).2.configured = s.configured := by
  unfold statusRead; split <;> rfl

@[simp] theorem statusRead_err (s : State) : (statusRead s).2.err = s.err := by
  unfold statusRead; split <;> rfl

@[simp] theorem statusRead_delay (s : State) : (statusRead s).2.delay = s.delay := by
  unfold statusRead; split <;> rfl

@[simp] theorem statusRead_plane (s : State) : (statusRead s).2.plane = s.plane := by
  unfold statusRead; split <;> rfl

@[simp] theorem statusRead_ilv (s : State) : (statusRead s).2.ilv = s.ilv := by
  unfold statusRead; split <;> rfl

@[simp] theorem statusRead_out (s : State) : (statusRead s).2.out = s.out := by
  unfold statusRead; split <;> rfl

@[simp] theorem statusRead_params (s : State) : (statusRead s).2.params = s.params := by
  unfold statusRead; split <;> rfl

@[simp] theorem statusRead_pending (s : State) : (statusRead s).2.pending = s.pending := by
  unfold statusRead; split <;> rfl

@[simp] theorem statusRead_returned (s : State) : (statusRead s).2.returned = s.returned := by
  unfold statusRead; split <;> rfl

theorem statusRead_closed (s : State) (h : s.busy = none) :
    statusRead s = (statusWord false s.configured s.err.code, s) := by
  unfold statusRead; rw [h]

theorem statusRead_last (s : State) (h : s.busy = some 0) :
    statusRead s = (statusWord false s.configured s.err.code, { s with busy := none }) := by
  unfold statusRead; rw [h]

theorem statusRead_busy (s : State) (n : Nat) (h : s.busy = some (n + 1)) :
    statusRead s =
      (statusWord true s.configured (Config.errDraw s.draws), { s with busy := some n, draws := s.draws + 1 }) := by
  unfold statusRead; rw [h]

/-- The STATUS word as a number (10_state.md R25). -/
theorem statusWord_toNat (busy configured : Bool) (err : BitVec 8) :
    (statusWord busy configured err).toNat =
      err.toNat * 256 + (if configured then 2 else 0) + (if busy then 1 else 0) := by
  simp only [statusWord, toNat_append_add]
  cases busy <;> cases configured <;> simp [bit]

@[simp] theorem statusWord_busy (busy configured : Bool) (err : BitVec 8) :
    (statusWord busy configured err).getLsbD 0 = busy := by
  rw [BitVec.getLsbD, statusWord_toNat, Nat.testBit_zero]
  cases busy <;> cases configured <;> simp <;> omega

/-- No code above 7 is ever written (60_exceptions.md R181). -/
theorem code_lt (e : ErrCode) : e.code.toNat < 8 := by cases e <;> decide

/-- A turn of `poll` that reads BUSY = 1 leaves `poll` first. -/
theorem pollTurn_busy (s : State) (n : Nat) (h : s.busy = some (n + 1)) :
    pollTurn s = { s with
      pending := .poll :: s.pending
      busy := some n
      draws := s.draws + 1
      returned := .word (statusWord true s.configured (Config.errDraw s.draws)) :: s.returned } := by
  simp only [pollTurn, slotRead, statusRead_busy s n h, statusWord_busy, if_true]
  rfl

/-- A turn of `poll` that reads BUSY = 0 is done, and no window is open after it. -/
theorem pollTurn_done (s : State) (h : s.busy = some 0 ∨ s.busy = none) :
    pollTurn s = { s with
      busy := none
      returned := .word (statusWord false s.configured s.err.code) :: s.returned } := by
  rcases h with h | h
  · simp only [pollTurn, slotRead, statusRead_last s h, statusWord_busy]
    rfl
  · simp only [pollTurn, slotRead, statusRead_closed s h, statusWord_busy]
    cases s
    simp only at h
    subst h
    rfl

end Sys2Proof.Machine
end

