-- ==== Sys2Proof/Laws/Commands.lean ====
section
/-! SUPPORT. Everything each command and each host access can do, said once. -/

namespace Sys2Proof.Machine

/-! BQ_CFG, BQ_RST, BQ_PROC -/

theorem configureCoeffs_some {P : Params} {f0 q fs : F64} {n : Coeffs} (h : configureCoeffs P f0 q fs = some n) :
    paramsPass f0 q fs = true ∧ fgt (design P f0 q fs).alpha zeroF = true ∧
      n = normalised (unnormalised P q (design P f0 q fs).alpha (design P f0 q fs).c) ∧ coeffsFinite n = true := by
  unfold configureCoeffs at h
  split at h
  · rename_i hp
    dsimp only at h
    split at h
    · rename_i ha
      split at h
      · rename_i hf
        obtain rfl := Option.some.inj h
        exact ⟨hp, ha, rfl, hf⟩
      · simp at h
    · simp at h
  · simp at h

/-- BQ_CFG either holds the coefficients and sets CONFIGURED, or raises (40_biquad.md R104). -/
theorem execBqCfg_cases {s t : State} (h : execBqCfg s = .next t) :
    (∃ n, configureCoeffs s.params s.argF0 s.argQ s.argFs = some n ∧
      t = { s with coef := n, configured := true, err := .ok }) ∨
    (configureCoeffs s.params s.argF0 s.argQ s.argFs = none ∧ t = { s with err := .invalidFilterParameters }) := by
  unfold execBqCfg at h
  obtain rfl := Host.Outcome.next.inj h
  cases hc : configureCoeffs s.params s.argF0 s.argQ s.argFs with
  | some n => exact .inl ⟨n, rfl, rfl⟩
  | none => exact .inr ⟨rfl, rfl⟩

theorem execBqRst_eq (s : State) :
    execBqRst s = .next { s with delay := List.replicate s.params.nchMax DelayLine.zero, err := .ok } := rfl

/-- BQ_PROC raises CHANNEL_RANGE, raises NOT_CONFIGURED, or processes the sample (40_biquad.md R108). -/
theorem execBqProc_cases {s t : State} {ch : Nat} (h : execBqProc ch s = .next t) :
    (s.params.nchMax ≤ ch ∧ t = { s with err := .channelRange }) ∨
    (ch < s.params.nchMax ∧ s.configured = false ∧ t = { s with err := .notConfigured }) ∨
    (ch < s.params.nchMax ∧ s.configured = true ∧ t = processSample s ch) := by
  unfold execBqProc at h
  obtain rfl := Host.Outcome.next.inj h
  by_cases hch : s.params.nchMax ≤ ch
  · exact .inl ⟨hch, by rw [if_pos hch]; rfl⟩
  · rw [if_neg hch]
    by_cases hc : s.configured = false
    · exact .inr (.inl ⟨by omega, hc, by rw [if_pos hc]; rfl⟩)
    · exact .inr (.inr ⟨by omega, by simpa using hc, by rw [if_neg hc]⟩)

theorem readDelay_of_getElem? {s : State} {ch : Nat} {d : DelayLine} (h : s.delay[ch]? = some d) :
    readDelay s ch = d := by
  simp [readDelay, h]

/-! ILV_RUN -/

theorem ilvChecks_none {P : Params} {F Cn : Nat} :
    ilvChecks P F Cn = none ↔ 0 < Cn ∧ Cn ≤ P.nchMax ∧ F ≤ P.framesMax := by
  unfold ilvChecks
  split
  · simp; omega
  · split
    · simp; omega
    · split
      · simp; omega
      · simp; omega

theorem mem_frameMajor {F Cn : Nat} {p : Nat × Nat} : p ∈ frameMajor F Cn ↔ p.1 < Cn ∧ p.2 < F := by
  obtain ⟨j, i⟩ := p
  simp only [frameMajor, List.mem_flatMap, List.mem_range, List.mem_map, Prod.mk.injEq]
  constructor
  · rintro ⟨i', hi, j', hj, rfl, rfl⟩; exact ⟨hj, hi⟩
  · rintro ⟨hj, hi⟩; exact ⟨i, hi, j, hj, rfl, rfl⟩

/-- A list of optional results is there exactly when each is, and then holds one for each element. -/
theorem mapM_option_some {α β : Type} {f : α → Option β} {l : List α} {r : List β} (h : l.mapM f = some r) :
    List.Forall₂ (fun a b => f a = some b) l r := by
  induction l generalizing r with
  | nil =>
    simp at h
    subst h; exact .nil
  | cons a l ih =>
    simp only [List.mapM_cons, Option.bind_eq_bind, Option.bind_eq_some_iff, Option.pure_def, Option.some.injEq] at h
    obtain ⟨b, hb, r', hr, rfl⟩ := h
    exact .cons hb (ih hr)

theorem mapM_option_none {α β : Type} {f : α → Option β} {l : List α} :
    l.mapM f = none ↔ ∃ a ∈ l, f a = none := by
  induction l with
  | nil => simp
  | cons a l ih =>
    simp only [List.mapM_cons, Option.bind_eq_bind, Option.pure_def, List.mem_cons]
    cases hf : f a with
    | none => simp [hf]
    | some b =>
      cases hl : l.mapM f with
      | none => simpa [hf, hl] using ih.1 hl
      | some r =>
        have : ¬ ∃ a ∈ l, f a = none := fun hn => by simp [ih.2 hn] at hl
        simp only [Option.bind_some, reduceCtorEq, false_iff]
        rintro ⟨c, rfl | hc, hn⟩
        · simp [hf] at hn
        · exact this ⟨c, hc, hn⟩

/-- What ILV_RUN does (41_interleaver.md R140, R141). -/
theorem execIlvRun_cases (s : State) :
    (∃ e, ilvChecks s.params s.argNframes.toNat s.argNch.toNat = some e ∧ execIlvRun s = .next { s with err := e }) ∨
    (ilvChecks s.params s.argNframes.toNat s.argNch.toNat = none ∧
      interleaveCells s.plane s.argNframes.toNat s.argNch.toNat = none ∧ execIlvRun s = .fault .uninitRead) ∨
    (∃ cells, ilvChecks s.params s.argNframes.toNat s.argNch.toNat = none ∧
      interleaveCells s.plane s.argNframes.toNat s.argNch.toNat = some cells ∧
      execIlvRun s = .next { s with
        ilv := Memory.writeAll s.ilv cells
        ilvLen := BitVec.ofNat 32 (s.argNframes.toNat * s.argNch.toNat)
        err := .ok }) := by
  unfold execIlvRun
  dsimp only
  cases hc : ilvChecks s.params s.argNframes.toNat s.argNch.toNat with
  | some e => exact .inl ⟨e, rfl, rfl⟩
  | none =>
    cases hi : interleaveCells s.plane s.argNframes.toNat s.argNch.toNat with
    | none => exact .inr (.inl ⟨rfl, rfl, rfl⟩)
    | some cells => exact .inr (.inr ⟨cells, rfl, rfl, rfl⟩)

/-- Every cell ILV_RUN writes is (i × Cn + j, PLANE (j, i)) for a channel j and a frame i of the buffer. -/
theorem interleaveCells_mem {plane : Memory F64} {F Cn : Nat} {cells : List (Nat × F64)}
    (h : interleaveCells plane F Cn = some cells) {c : Nat × F64} (hc : c ∈ cells) :
    ∃ j i, j < Cn ∧ i < F ∧ c.1 = i * Cn + j ∧ Memory.read plane (planeIndex j i) = some c.2 := by
  obtain ⟨hl, hg⟩ := List.forall₂_iff_get.1 (mapM_option_some h)
  obtain ⟨n, hn, rfl⟩ := List.getElem_of_mem hc
  obtain ⟨a, ha, hac⟩ : ∃ a ∈ frameMajor F Cn, interleaveCell plane Cn a = some cells[n] :=
    ⟨(frameMajor F Cn)[n], List.getElem_mem _, by simpa using hg n (by omega) hn⟩
  obtain ⟨hj, hi⟩ := mem_frameMajor.1 ha
  simp only [interleaveCell, Option.map_eq_some_iff] at hac
  obtain ⟨v, hv, hvc⟩ := hac
  exact ⟨a.1, a.2, hj, hi, by rw [← hvc], by rw [hv, ← hvc]⟩

/-- ILV_RUN reads every cell of the buffer. -/
theorem interleaveCells_none {plane : Memory F64} {F Cn : Nat} :
    interleaveCells plane F Cn = none ↔ ∃ j i, j < Cn ∧ i < F ∧ Memory.read plane (planeIndex j i) = none := by
  unfold interleaveCells
  rw [mapM_option_none]
  constructor
  · rintro ⟨p, hp, hn⟩
    obtain ⟨hj, hi⟩ := mem_frameMajor.1 hp
    exact ⟨p.1, p.2, hj, hi, by simpa [interleaveCell] using hn⟩
  · rintro ⟨j, i, hj, hi, hn⟩
    exact ⟨(j, i), mem_frameMajor.2 ⟨hj, hi⟩, by simp [interleaveCell, hn]⟩

/-! WAV_ENC -/

theorem wavChecks_none {P : Params} {N Cn Rate : Nat} :
    wavChecks P N Cn Rate = none ↔
      (0 < Cn ∧ 0 < Rate ∧ Cn ≤ 32767 ∧ Rate * Cn * 2 ≤ 2 ^ 32 - 1 ∧ N % Cn = 0) ∧ N ≤ P.ilvMax := by
  unfold wavChecks
  repeat' split
  all_goals (first | (simp only [reduceCtorEq, false_iff]; omega) | (simp only [true_iff]; omega))

/-- What WAV_ENC does (42_wav_encoder.md R151, R158). -/
theorem execWavEnc_cases (s : State) :
    (∃ e, wavChecks s.params s.ilvLen.toNat s.argNch.toNat s.argRate.toNat = some e ∧
      execWavEnc s = .next { s with err := e }) ∨
    (wavChecks s.params s.ilvLen.toNat s.argNch.toNat s.argRate.toNat = none ∧
      ilvSamples s.ilv s.ilvLen.toNat = none ∧ execWavEnc s = .fault .uninitRead) ∨
    (∃ S, wavChecks s.params s.ilvLen.toNat s.argNch.toNat s.argRate.toNat = none ∧
      ilvSamples s.ilv s.ilvLen.toNat = some S ∧ S.any isNan = true ∧
      execWavEnc s = .next { s with err := .invalidSample }) ∨
    (∃ S, wavChecks s.params s.ilvLen.toNat s.argNch.toNat s.argRate.toNat = none ∧
      ilvSamples s.ilv s.ilvLen.toNat = some S ∧ S.any isNan = false ∧
      execWavEnc s = .next { s with
        out := Memory.writeAll s.out
          (headerCells s.ilvLen.toNat s.argNch.toNat s.argRate.toNat ++ sampleCells s.params S)
        outLen := outLength s s.ilvLen.toNat
        err := .ok }) := by
  unfold execWavEnc
  dsimp only
  cases hc : wavChecks s.params s.ilvLen.toNat s.argNch.toNat s.argRate.toNat with
  | some e => exact .inl ⟨e, rfl, rfl⟩
  | none =>
    cases hS : ilvSamples s.ilv s.ilvLen.toNat with
    | none => exact .inr (.inl ⟨rfl, rfl, rfl⟩)
    | some S =>
      cases hn : S.any isNan with
      | true => exact .inr (.inr (.inl ⟨S, rfl, rfl, hn, by simp [hn, raiseError]⟩))
      | false => exact .inr (.inr (.inr ⟨S, rfl, rfl, hn, by simp [hn, succeed]⟩))

theorem ilvSamples_none {m : Memory F64} {N : Nat} :
    ilvSamples m N = none ↔ ∃ k, k < N ∧ Memory.read m k = none := by
  simp [ilvSamples, mapM_option_none]

/-- The samples WAV_ENC reads are ILV[0] to ILV[N - 1] in order. -/
theorem ilvSamples_some {m : Memory F64} {N : Nat} {S : List F64} (h : ilvSamples m N = some S) :
    S.length = N ∧ ∀ k (hk : k < S.length), Memory.read m k = some S[k] := by
  obtain ⟨hl, hg⟩ := List.forall₂_iff_get.1 (mapM_option_some h)
  rw [List.length_range] at hl
  exact ⟨hl.symm, fun k hk => by simpa using hg k (by simp; omega) hk⟩

/-- The header lies in bytes 0 to 43 (42_wav_encoder.md R152). -/
theorem headerCells_mem {N Cn Rate : Nat} {c : Nat × Byte} (h : c ∈ headerCells N Cn Rate) : c.1 < 44 := by
  simp only [headerCells, List.mem_flatMap] at h
  obtain ⟨f, hf, hc⟩ := h
  obtain ⟨_, h2⟩ := mem_outCells hc
  simp only [headerFields, List.mem_cons, List.not_mem_nil, or_false] at hf
  rcases hf with rfl | rfl | rfl | rfl | rfl | rfl | rfl | rfl | rfl | rfl | rfl | rfl | rfl <;>
    simp only at h2 <;> omega

/-- Sample k lies in bytes 44 + 2k and 45 + 2k (42_wav_encoder.md R156). -/
theorem sampleCells_mem {P : Params} {S : List F64} {c : Nat × Byte} (h : c ∈ sampleCells P S) :
    ∃ k, ∃ hk : k < S.length, c ∈ outCells (44 + 2 * k) 2 (s16 (quantize P S[k])).toNat := by
  simp only [sampleCells, List.mem_flatMap] at h
  obtain ⟨p, hp, hc⟩ := h
  obtain ⟨n, hn, rfl⟩ := List.getElem_of_mem hp
  have hn' : n < S.length := by simpa using hn
  exact ⟨n, hn', by simpa using hc⟩

theorem sampleCells_bounds {P : Params} {S : List F64} {c : Nat × Byte} (h : c ∈ sampleCells P S) :
    44 ≤ c.1 ∧ c.1 < 44 + 2 * S.length := by
  obtain ⟨k, hk, hc⟩ := sampleCells_mem h
  obtain ⟨h1, h2⟩ := mem_outCells hc
  omega

/-! All commands -/

/-- No command touches PLANE, the BUSY window or the model's own fields (10_state.md R36). -/
theorem exec_keeps {i : Instr} {s t : State} (h : exec i s = .next t) :
    t.plane = s.plane ∧ t.busy = s.busy ∧ t.params = s.params ∧ t.pending = s.pending ∧ t.returned = s.returned ∧
      t.draws = s.draws := by
  cases i with
  | bqCfg => rcases execBqCfg_cases h with ⟨n, -, rfl⟩ | ⟨-, rfl⟩ <;> simp
  | bqRst => obtain rfl := Host.Outcome.next.inj ((execBqRst_eq s).symm.trans h); simp
  | bqProc ch => rcases execBqProc_cases h with ⟨-, rfl⟩ | ⟨-, -, rfl⟩ | ⟨-, -, rfl⟩ <;> simp [processSample]
  | ilvRun =>
    rcases execIlvRun_cases s with ⟨e, -, he⟩ | ⟨-, -, he⟩ | ⟨c, -, -, he⟩ <;> have h := he.symm.trans h
    · obtain rfl := Host.Outcome.next.inj h; simp
    · simp at h
    · obtain rfl := Host.Outcome.next.inj h; simp
  | wavEnc =>
    rcases execWavEnc_cases s with ⟨e, -, he⟩ | ⟨-, -, he⟩ | ⟨c, -, -, -, he⟩ | ⟨c, -, -, -, he⟩ <;>
      have h := he.symm.trans h
    · obtain rfl := Host.Outcome.next.inj h; simp
    · simp at h
    · obtain rfl := Host.Outcome.next.inj h; simp
    · obtain rfl := Host.Outcome.next.inj h; simp

/-! The host port -/

theorem commandWrite_busy {w : Word} {s t : State} (h : commandWrite w s = .next t) : t.busy.isSome = true := by
  unfold commandWrite at h
  split at h
  · rw [(exec_keeps h).2.1]; rfl
  · obtain rfl := Host.Outcome.next.inj h; rfl

/-- Outside the BUSY window the access runs; in it only a STATUS read does (70_reset_and_hazards.md R207). -/
theorem hostAccess_idle {s : State} (a : HostAccess) (h : s.busy = none) : hostAccess a s = accessEffect a s := by
  simp [hostAccess, h]

theorem hostAccess_status (s : State) :
    hostAccess (.regRead32 0x04) s =
      .next (returnDatum (statusRead s).2 (.word (statusRead s).1)) := by
  unfold hostAccess
  rw [if_neg (by simp [isStatusRead])]
  rfl

theorem hostAccess_next_accessEffect {a : HostAccess} {s t : State} (h : hostAccess a s = .next t) :
    accessEffect a s = .next t := by
  unfold hostAccess at h
  split at h
  · simp at h
  · exact h

/-- A CMD write runs a command after opening the BUSY window, or raises ILLEGAL_COMMAND (30_encoding.md R85). -/
theorem commandWrite_cases (w : Word) (s : State) :
    (∃ i, decode w = .ok i ∧ commandWrite w s = exec i (startCommand s)) ∨
    (∃ e, decode w = .error e ∧ commandWrite w s = .next (raiseError (startCommand s) .illegalCommand)) := by
  unfold commandWrite
  cases h : decode w with
  | ok i => exact .inl ⟨i, rfl, rfl⟩
  | error e => exact .inr ⟨e, rfl, rfl⟩

theorem slotAligned_zero {o : Nat} (h : slotAligned o = .cmd) : o = 0 := by
  unfold slotAligned at h
  split at h <;> first | rfl | (split at h <;> first | simp at h | (split at h <;> simp at h)) | simp at h

/-- A host access that completes and is no CMD write is one of these. -/
theorem accessEffect_cases {a : HostAccess} {s t : State} (hc : isCommandWrite a = false)
    (h : accessEffect a s = .next t) :
    (∃ d, t = returnDatum s d) ∨ (∃ v, t = returnDatum (statusRead s).2 (.word v)) ∨
    (∃ r v, t = writeReg32 s r v) ∨ (∃ r v, t = writeReg64 s r v) ∨ t = s ∨
    (∃ j i v, planeInRange s j i = true ∧ t = { s with plane := Memory.write s.plane (planeIndex j i) v }) ∨
    (∃ k v, k < s.params.ilvMax ∧ t = { s with ilv := Memory.write s.ilv k v }) := by
  cases a with
  | regRead32 o =>
    simp only [accessEffect] at h
    split at h
    · rename_i r hr
      obtain rfl := Host.Outcome.next.inj h
      cases r with
      | status => exact .inr (.inl ⟨_, rfl⟩)
      | cmd => exact .inl ⟨_, rfl⟩
      | reg r => exact .inl ⟨_, rfl⟩
      | low r => exact .inl ⟨_, rfl⟩
      | high r => exact .inl ⟨_, rfl⟩
      | reserved => exact .inl ⟨_, rfl⟩
    · simp at h
  | regWrite32 o v =>
    simp only [accessEffect] at h
    split at h
    · rename_i r hr
      cases r with
      | cmd =>
        simp only [slot32At] at hr
        split at hr
        · have := slotAligned_zero (Option.some.inj hr)
          simp [isCommandWrite, this] at hc
        · simp at hr
      | status => exact .inr (.inr (.inr (.inr (.inl (Host.Outcome.next.inj h).symm))))
      | reg r => exact .inr (.inr (.inl ⟨_, _, (Host.Outcome.next.inj h).symm⟩))
      | low r => exact .inr (.inr (.inr (.inl ⟨_, _, (Host.Outcome.next.inj h).symm⟩)))
      | high r => exact .inr (.inr (.inr (.inl ⟨_, _, (Host.Outcome.next.inj h).symm⟩)))
      | reserved => exact .inr (.inr (.inr (.inr (.inl (Host.Outcome.next.inj h).symm))))
    · simp at h
  | regRead64 o =>
    simp only [accessEffect] at h
    split at h
    · exact .inl ⟨_, (Host.Outcome.next.inj h).symm⟩
    · simp at h
  | regWrite64 o v =>
    simp only [accessEffect] at h
    split at h
    · exact .inr (.inr (.inr (.inl ⟨_, _, (Host.Outcome.next.inj h).symm⟩)))
    · simp at h
  | regOther _ _ _ => simp [accessEffect] at h
  | planeWrite j i v =>
    simp only [accessEffect] at h
    split at h
    · rename_i hr
      exact .inr (.inr (.inr (.inr (.inr (.inl ⟨j, i, v, hr, (Host.Outcome.next.inj h).symm⟩)))))
    · simp at h
  | planeRead j i =>
    simp only [accessEffect, cellRead] at h
    split at h
    · split at h
      · exact .inl ⟨_, (Host.Outcome.next.inj h).symm⟩
      · simp at h
    · simp at h
  | ilvWrite k v =>
    simp only [accessEffect] at h
    split at h
    · rename_i hr
      exact .inr (.inr (.inr (.inr (.inr (.inr ⟨k, v, hr, (Host.Outcome.next.inj h).symm⟩)))))
    · simp at h
  | ilvRead k =>
    simp only [accessEffect, cellRead] at h
    split at h
    · split at h
      · exact .inl ⟨_, (Host.Outcome.next.inj h).symm⟩
      · simp at h
    · simp at h
  | outRead b =>
    simp only [accessEffect, cellRead] at h
    split at h
    · split at h
      · exact .inl ⟨_, (Host.Outcome.next.inj h).symm⟩
      · simp at h
    · simp at h

/-- A step that completes is idle, runs a command word, is another host access, a turn of `poll`, or a power-on. -/
theorem step_cases {s t : State} (h : step s = .next t) :
    (s.pending = [] ∧ t = s) ∨
    (∃ rest w, s.pending = .access (.regWrite32 0x00 w) :: rest ∧ s.busy = none ∧
      commandWrite w { s with pending := rest } = .next t) ∨
    (∃ rest a, s.pending = .access a :: rest ∧ isCommandWrite a = false ∧
      hostAccess a { s with pending := rest } = .next t) ∨
    (∃ rest, s.pending = .poll :: rest ∧ t = pollTurn { s with pending := rest }) ∨
    (∃ rest, s.pending = .powerOn :: rest ∧ t = powerOnReset { s with pending := rest }) := by
  unfold step takeEvent at h
  split at h
  · exact .inl ⟨‹_›, (Host.Outcome.next.inj h).symm⟩
  · rename_i e rest hp
    cases e with
    | access a =>
      cases hc : isCommandWrite a with
      | false => exact .inr (.inr (.inl ⟨rest, a, hp, hc, h⟩))
      | true =>
        cases a with
        | regWrite32 o w =>
          simp only [isCommandWrite, decide_eq_true_eq] at hc
          subst hc
          refine .inr (.inl ⟨rest, w, hp, ?_, ?_⟩)
          · simp only [eventEffect, hostAccess] at h
            split at h
            · simp at h
            · rename_i hb
              simpa [isStatusRead] using hb
          · simpa [eventEffect, accessEffect, slot32At, slotAligned, slotWrite] using hostAccess_next_accessEffect h
        | regRead32 _ => simp [isCommandWrite] at hc
        | regRead64 _ => simp [isCommandWrite] at hc
        | regWrite64 _ _ => simp [isCommandWrite] at hc
        | regOther _ _ _ => simp [isCommandWrite] at hc
        | planeWrite _ _ _ => simp [isCommandWrite] at hc
        | planeRead _ _ => simp [isCommandWrite] at hc
        | ilvWrite _ _ => simp [isCommandWrite] at hc
        | ilvRead _ => simp [isCommandWrite] at hc
        | outRead _ => simp [isCommandWrite] at hc
    | poll => exact .inr (.inr (.inr (.inl ⟨rest, hp, (Host.Outcome.next.inj h).symm⟩)))
    | powerOn => exact .inr (.inr (.inr (.inr ⟨rest, hp, (Host.Outcome.next.inj h).symm⟩)))

end Sys2Proof.Machine
end

