-- ==== Sys2Proof/Laws/Float.lean ====
section
/-! SUPPORT. The binary64 patterns and what rounding once gives: the nearest value, ties to even. -/

namespace Sys2Proof.Machine

/-! Patterns -/

theorem magnitude_lt (x : F64) : magnitude x < 2 ^ 63 := Nat.mod_lt _ (by decide)

theorem infMagnitude_eq : infMagnitude = 2046 * 2 ^ 52 + 2 ^ 52 := by decide

theorem toNat_pack (neg : Bool) {m : Nat} (h : m < 2 ^ 63) :
    (pack neg m).toNat = m + if neg then 2 ^ 63 else 0 := by
  rw [pack, BitVec.toNat_ofNat, Nat.mod_eq_of_lt]
  split <;> omega

@[simp] theorem magnitude_pack (neg : Bool) {m : Nat} (h : m < 2 ^ 63) : magnitude (pack neg m) = m := by
  rw [magnitude, toNat_pack neg h]
  split <;> omega

@[simp] theorem signBit_pack (neg : Bool) {m : Nat} (h : m < 2 ^ 63) : signBit (pack neg m) = neg := by
  rw [signBit, toNat_pack neg h]
  cases neg
  · simpa using h
  · simp

theorem toNat_eq (x : F64) : x.toNat = magnitude x + if signBit x then 2 ^ 63 else 0 := by
  have := x.isLt
  unfold magnitude signBit
  split
  · simp at *; omega
  · simp at *; omega

theorem pack_signBit_magnitude (x : F64) : pack (signBit x) (magnitude x) = x := by
  apply BitVec.eq_of_toNat_eq
  rw [toNat_pack _ (magnitude_lt x)]
  exact (toNat_eq x).symm

/-- `fneg` keeps the magnitude and flips the sign (00_scope.md R8). -/
theorem fneg_eq_pack (x : F64) : fneg x = pack (!signBit x) (magnitude x) := by
  have h63 : x.getMsbD 0 = signBit x := by
    rw [← BitVec.msb, BitVec.msb_eq_decide, signBit]
  have hx := toNat_eq x
  have hm := magnitude_lt x
  apply BitVec.eq_of_toNat_eq
  rw [toNat_pack _ hm, fneg, BitVec.toNat_xor]
  have h8 : (0x8000000000000000#64).toNat = 2 ^ 63 := by decide
  rw [h8]
  cases hs : signBit x
  · rw [hs] at hx
    simp only [Bool.false_eq_true, if_false, Nat.add_zero] at hx
    rw [hx]
    simp only [Bool.not_false, if_true]
    have := Nat.two_pow_add_eq_or_of_lt hm 1
    rw [Nat.mul_one] at this
    rw [Nat.add_comm, this]
    apply Nat.eq_of_testBit_eq
    intro i
    rw [Nat.testBit_xor, Nat.testBit_or, Nat.testBit_two_pow]
    by_cases hi : 63 = i
    · subst hi
      simp [Nat.testBit_lt_two_pow hm]
    · simp [hi]
  · rw [hs] at hx
    simp only [if_true] at hx
    rw [hx]
    simp only [Bool.not_true, Bool.false_eq_true, if_false, Nat.add_zero]
    have := Nat.two_pow_add_eq_or_of_lt hm 1
    rw [Nat.mul_one] at this
    rw [Nat.add_comm, this]
    apply Nat.eq_of_testBit_eq
    intro i
    rw [Nat.testBit_xor, Nat.testBit_or, Nat.testBit_two_pow]
    by_cases hi : 63 = i
    · subst hi
      simp [Nat.testBit_lt_two_pow hm]
    · simp [hi]

@[simp] theorem magnitude_fneg (x : F64) : magnitude (fneg x) = magnitude x := by
  rw [fneg_eq_pack, magnitude_pack _ (magnitude_lt x)]

@[simp] theorem signBit_fneg (x : F64) : signBit (fneg x) = !signBit x := by
  rw [fneg_eq_pack, signBit_pack _ (magnitude_lt x)]

@[simp] theorem isNan_fneg (x : F64) : isNan (fneg x) = isNan x := by simp [isNan]

@[simp] theorem isInf_fneg (x : F64) : isInf (fneg x) = isInf x := by simp [isInf]

@[simp] theorem isFinite_fneg (x : F64) : isFinite (fneg x) = isFinite x := by simp [isFinite]

@[simp] theorem unitsMag_fneg (x : F64) : unitsMag (fneg x) = unitsMag x := by simp [unitsMag]

theorem isFinite_not_nan {x : F64} (h : isFinite x = true) : isNan x = false := by
  simp only [isFinite, isNan, decide_eq_true_eq, decide_eq_false_iff_not] at *; omega

theorem isFinite_not_inf {x : F64} (h : isFinite x = true) : isInf x = false := by
  simp only [isFinite, isInf, decide_eq_true_eq, decide_eq_false_iff_not] at *; omega

/-! NaN results (00_scope.md R5, R8) -/

theorem isNan_nanOf (op : FloatOp) (a b : F64) : isNan (nanOf op a b) = true := by
  unfold nanOf
  dsimp only
  have h : (Config.nanChoice op a b).toNat % 2 ^ 52 < 2 ^ 52 := Nat.mod_lt _ (by decide)
  have hi := infMagnitude_eq
  rw [isNan, magnitude_pack]
  · simp only [decide_eq_true_eq]; split <;> omega
  · split <;> omega

theorem isNan_addWith {nan a b : F64} (hn : isNan nan = true) (h : isNan a = true ∨ isNan b = true) :
    isNan (addWith nan a b) = true := by
  unfold addWith
  rw [if_pos (by simpa using h)]; exact hn

theorem isNan_fadd {a b : F64} (h : isNan a = true ∨ isNan b = true) : isNan (fadd a b) = true :=
  isNan_addWith (isNan_nanOf _ _ _) h

theorem isNan_fsub {a b : F64} (h : isNan a = true ∨ isNan b = true) : isNan (fsub a b) = true :=
  isNan_addWith (isNan_nanOf _ _ _) (by simpa using h)

theorem isNan_fmul {a b : F64} (h : isNan a = true ∨ isNan b = true) : isNan (fmul a b) = true := by
  unfold fmul
  dsimp only
  rw [if_pos (by simpa using h)]; exact isNan_nanOf _ _ _

theorem isNan_fdiv {a b : F64} (h : isNan a = true ∨ isNan b = true) : isNan (fdiv a b) = true := by
  unfold fdiv
  dsimp only
  rw [if_pos (by simpa using h)]; exact isNan_nanOf _ _ _

/-! Values in units of 2^-1074 -/

/-- A magnitude `k * 2 ^ 52 + m` whose significand is `m`, normal or (where `k = 0`) subnormal, is worth
`m * 2 ^ k` units; `m = 2 ^ 53` is the carry into the next exponent. -/
theorem unitsMag_of_magnitude {x : F64} {k m : Nat} (hx : magnitude x = k * 2 ^ 52 + m) (hm : m ≤ 2 ^ 53)
    (hk : k = 0 ∨ 2 ^ 52 ≤ m) : unitsMag x = m * 2 ^ k := by
  unfold unitsMag
  dsimp only
  rw [hx]
  rcases Nat.lt_or_ge m (2 ^ 52) with h | h
  · obtain rfl : k = 0 := by omega
    have h1 : (0 * 2 ^ 52 + m) / 2 ^ 52 = 0 := by omega
    rw [if_pos h1]; omega
  · rcases Nat.lt_or_ge m (2 ^ 53) with h' | h'
    · have h1 : (k * 2 ^ 52 + m) / 2 ^ 52 = k + 1 := by omega
      have h2 : (k * 2 ^ 52 + m) % 2 ^ 52 = m - 2 ^ 52 := by omega
      rw [if_neg (by omega), h1, h2, Nat.add_sub_cancel, Nat.add_sub_cancel' h]
    · obtain rfl : m = 2 ^ 53 := by omega
      have h1 : (k * 2 ^ 52 + 2 ^ 53) / 2 ^ 52 = k + 2 := by omega
      have h2 : (k * 2 ^ 52 + 2 ^ 53) % 2 ^ 52 = 0 := by omega
      rw [if_neg (by omega), h1, h2, show k + 2 - 1 = k + 1 by omega, Nat.pow_succ]
      ring

/-- Every pattern is `m` last places of `2 ^ k` units, `m` a 53-bit significand. -/
theorem exists_significand (x : F64) :
    ∃ k m, magnitude x = k * 2 ^ 52 + m ∧ m < 2 ^ 53 ∧ (k = 0 ∨ 2 ^ 52 ≤ m) ∧ unitsMag x = m * 2 ^ k := by
  have key : ∀ k m, magnitude x = k * 2 ^ 52 + m → m < 2 ^ 53 → (k = 0 ∨ 2 ^ 52 ≤ m) →
      ∃ k m, magnitude x = k * 2 ^ 52 + m ∧ m < 2 ^ 53 ∧ (k = 0 ∨ 2 ^ 52 ≤ m) ∧ unitsMag x = m * 2 ^ k :=
    fun k m h1 h2 h3 => ⟨k, m, h1, h2, h3, unitsMag_of_magnitude h1 (Nat.le_of_lt h2) h3⟩
  rcases Nat.lt_or_ge (magnitude x) (2 ^ 52) with h | h
  · exact key 0 (magnitude x) (by omega) (by omega) (.inl rfl)
  · exact key (magnitude x / 2 ^ 52 - 1) (2 ^ 52 + magnitude x % 2 ^ 52) (by omega) (by omega) (.inr (by omega))

/-- No value lies strictly between neighbouring multiples of a last place. -/
theorem unitsMag_gap (x : F64) {sh m : Nat} (hm : sh = 0 ∨ 2 ^ 52 ≤ m) :
    unitsMag x ≤ m * 2 ^ sh ∨ (m + 1) * 2 ^ sh ≤ unitsMag x := by
  obtain ⟨k, n, -, hn, -, hu⟩ := exists_significand x
  rw [hu]
  rcases Nat.lt_or_ge k sh with hk | hk
  · left
    have h52 : 2 ^ 52 ≤ m := by omega
    calc n * 2 ^ k ≤ 2 ^ 53 * 2 ^ k := Nat.mul_le_mul_right _ (Nat.le_of_lt hn)
      _ = 2 ^ 52 * 2 ^ (k + 1) := by rw [Nat.pow_succ 2 k]; ring
      _ ≤ m * 2 ^ sh := Nat.mul_le_mul h52 (Nat.pow_le_pow_right (by decide) hk)
  · obtain ⟨j, rfl⟩ := Nat.exists_eq_add_of_le hk
    have he : n * 2 ^ (sh + j) = (n * 2 ^ j) * 2 ^ sh := by rw [Nat.pow_add]; ring
    rw [he]
    rcases Nat.lt_or_ge (n * 2 ^ j) (m + 1) with h | h
    · exact .inl (Nat.mul_le_mul_right _ (by omega))
    · exact .inr (Nat.mul_le_mul_right _ h)

/-! Rounding -/

/-- The exponent step and the truncated significand that `roundUnits` finds: the significand has 53 bits, or fewer at the
smallest last place. -/
theorem round_significand (num den : Nat) :
    let sh := (num / den).log2 - 52
    let m := num / (den * 2 ^ sh)
    m < 2 ^ 53 ∧ (sh = 0 ∨ 2 ^ 52 ≤ m) := by
  intro sh m
  have hm : m = num / den / 2 ^ sh := (Nat.div_div_eq_div_mul _ _ _).symm
  by_cases hq : num / den = 0
  · have : m = 0 := by rw [hm, hq]; simp
    have : sh = 0 := by simp only [sh, hq]; decide
    omega
  · have h1 := Nat.log2_self_le hq
    have h2 := Nat.lt_log2_self (n := num / den)
    have hpos : 0 < 2 ^ sh := Nat.pow_pos (by decide)
    constructor
    · rw [hm, Nat.div_lt_iff_lt_mul hpos, ← Nat.pow_add]
      exact Nat.lt_of_lt_of_le h2 (Nat.pow_le_pow_right (by decide) (by omega))
    · rcases Nat.eq_zero_or_pos sh with h | h
      · exact .inl h
      · right
        rw [hm, Nat.le_div_iff_mul_le hpos, ← Nat.pow_add]
        exact Nat.le_trans (Nat.pow_le_pow_right (by decide) (by omega)) h1

/-- What `roundUnits` gives: the significand `m'` is the truncated one or the next, whichever is nearer, the even one in
a tie. -/
theorem roundUnits_spec (neg : Bool) (num den : Nat) (hd : 0 < den) :
    ∃ sh m m' r, roundUnits neg num den = pack neg (min (sh * 2 ^ 52 + m') infMagnitude) ∧
      num = m * (den * 2 ^ sh) + r ∧ r < den * 2 ^ sh ∧ m < 2 ^ 53 ∧ (sh = 0 ∨ 2 ^ 52 ≤ m) ∧
      (m' = m ∧ 2 * r ≤ den * 2 ^ sh ∧ (2 * r = den * 2 ^ sh → m % 2 = 0) ∨
       m' = m + 1 ∧ den * 2 ^ sh ≤ 2 * r ∧ (2 * r = den * 2 ^ sh → m % 2 = 1)) := by
  obtain ⟨h1, h2⟩ := round_significand num den
  have hD : 0 < den * 2 ^ ((num / den).log2 - 52) := Nat.mul_pos hd (Nat.pow_pos (by decide))
  refine ⟨_, _, _, num % (den * 2 ^ ((num / den).log2 - 52)), rfl, ?_, Nat.mod_lt _ hD, h1, h2, ?_⟩
  · rw [Nat.mul_comm]; exact (Nat.div_add_mod num _).symm
  · split
    · left; exact ⟨rfl, by omega, by omega⟩
    · split
      · right; exact ⟨rfl, by omega, by omega⟩
      · rcases Nat.mod_two_eq_zero_or_one (num / (den * 2 ^ ((num / den).log2 - 52))) with h | h
        · left; exact ⟨by rw [h]; rfl, by omega, fun _ => h⟩
        · right; exact ⟨by rw [h], by omega, fun _ => h⟩

theorem min_infMagnitude_lt (n : Nat) : min n infMagnitude < 2 ^ 63 :=
  Nat.lt_of_le_of_lt (Nat.min_le_right _ _) (by decide)

@[simp] theorem signBit_roundUnits (neg : Bool) (num den : Nat) : signBit (roundUnits neg num den) = neg :=
  signBit_pack _ (min_infMagnitude_lt _)

theorem magnitude_roundUnits_le (neg : Bool) (num den : Nat) :
    magnitude (roundUnits neg num den) ≤ infMagnitude := by
  rw [roundUnits, magnitude_pack _ (min_infMagnitude_lt _)]
  exact Nat.min_le_right _ _

@[simp] theorem isNan_roundUnits (neg : Bool) (num den : Nat) : isNan (roundUnits neg num den) = false := by
  have := magnitude_roundUnits_le neg num den
  simp only [isNan, decide_eq_false_iff_not]; omega

theorem fneg_roundUnits (neg : Bool) (num den : Nat) :
    fneg (roundUnits neg num den) = roundUnits (!neg) num den := by
  rw [fneg_eq_pack, signBit_roundUnits]
  simp only [roundUnits]
  rw [magnitude_pack _ (min_infMagnitude_lt _)]

/-- Rounding an exactly representable value gives that value. -/
theorem roundUnits_exact (neg : Bool) {x : F64} {den : Nat} (hd : 0 < den) (hx : isFinite x = true) :
    roundUnits neg (unitsMag x * den) den = pack neg (magnitude x) := by
  obtain ⟨k, n, hmag, hn, hk, hu⟩ := exists_significand x
  have hfin : magnitude x < infMagnitude := by simpa [isFinite] using hx
  have hq : unitsMag x * den / den = n * 2 ^ k := by rw [Nat.mul_div_cancel _ hd, hu]
  by_cases hn0 : n = 0
  · have hk0 : k = 0 := by omega
    subst hn0 hk0
    have : magnitude x = 0 := by omega
    simp only [roundUnits, hu, this]
    simp
  · have hlog : (n * 2 ^ k).log2 - 52 = k := by
      have h1 : (n * 2 ^ k).log2 = n.log2 + k := by
        rw [Nat.log2_eq_iff (Nat.mul_ne_zero hn0 (Nat.pow_pos (by decide)).ne'), Nat.pow_add,
          show n.log2 + k + 1 = (n.log2 + 1) + k by omega, Nat.pow_add]
        exact ⟨Nat.mul_le_mul_right _ (Nat.log2_self_le hn0),
          Nat.mul_lt_mul_of_pos_right Nat.lt_log2_self (Nat.pow_pos (by decide))⟩
      rw [h1]
      have h2 : n.log2 < 53 := (Nat.log2_lt hn0).2 hn
      rcases hk with rfl | h52
      · omega
      · have : 52 ≤ n.log2 := (Nat.le_log2 hn0).2 h52
        omega
    have hD : 0 < den * 2 ^ k := Nat.mul_pos hd (Nat.pow_pos (by decide))
    have hnum : unitsMag x * den = n * (den * 2 ^ k) := by rw [hu]; ring
    simp only [roundUnits, hq, hlog]
    rw [hnum, Nat.mul_div_cancel _ hD, Nat.mul_mod_left, if_pos (by omega), ← hmag, Nat.min_eq_left (by omega)]

theorem mul_two_pow_succ (d n : Nat) : d * 2 ^ (n + 1) = 2 * (d * 2 ^ n) := by
  rw [Nat.pow_succ]; ring

/-- Below the overflow bound the result is finite, worth `m'` last places of `2 ^ sh` units. -/
theorem roundUnits_finite_spec (neg : Bool) (num den : Nat) (hd : 0 < den) (h : num < overflowUnits * den) :
    ∃ sh m m' r, isFinite (roundUnits neg num den) = true ∧ magnitude (roundUnits neg num den) = sh * 2 ^ 52 + m' ∧
      unitsMag (roundUnits neg num den) = m' * 2 ^ sh ∧
      num = m * (den * 2 ^ sh) + r ∧ r < den * 2 ^ sh ∧ (sh = 0 ∨ 2 ^ 52 ≤ m) ∧
      (m' = m ∧ 2 * r ≤ den * 2 ^ sh ∧ (2 * r = den * 2 ^ sh → m % 2 = 0) ∨
       m' = m + 1 ∧ den * 2 ^ sh ≤ 2 * r ∧ (2 * r = den * 2 ^ sh → m % 2 = 1)) := by
  obtain ⟨sh, m, m', r, he, hn, hr, hm, hk, hcase⟩ := roundUnits_spec neg num den hd
  have hov : overflowUnits = (2 ^ 54 - 1) * 2 ^ 2044 := overflowUnits.eq_1
  have hlt : sh * 2 ^ 52 + m' < infMagnitude := by
    rw [infMagnitude_eq]
    by_contra hcon
    rcases Nat.lt_or_ge sh 2046 with hsh | hsh
    · have hsh' : sh = 2045 := by omega
      have hm' : m = 2 ^ 53 - 1 ∧ den * 2 ^ sh ≤ 2 * r := by omega
      obtain ⟨rfl, h2r⟩ := hm'
      subst hsh'
      rw [hov, Nat.mul_assoc, Nat.mul_comm (2 ^ 2044) den] at h
      rw [show 2045 = 2044 + 1 from rfl, mul_two_pow_succ] at hn h2r
      generalize den * 2 ^ 2044 = D at *
      omega
    · have h52 : 2 ^ 52 ≤ m := by omega
      have h1 : 2 ^ 52 * (den * 2 ^ 2046) ≤ num := by
        refine le_of_le_of_eq ?_ hn.symm
        exact Nat.le_trans (Nat.mul_le_mul h52 (Nat.mul_le_mul_left _ (Nat.pow_le_pow_right (by decide) hsh)))
          (Nat.le_add_right _ _)
      rw [hov, Nat.mul_assoc, Nat.mul_comm (2 ^ 2044) den] at h
      rw [show 2046 = 2044 + 1 + 1 from rfl, mul_two_pow_succ, mul_two_pow_succ] at h1
      generalize den * 2 ^ 2044 = D at *
      omega
  have hmag : magnitude (roundUnits neg num den) = sh * 2 ^ 52 + m' := by
    rw [he, magnitude_pack _ (min_infMagnitude_lt _), Nat.min_eq_left (by omega)]
  refine ⟨sh, m, m', r, ?_, hmag, unitsMag_of_magnitude hmag (by omega) (by omega), hn, hr, hk, hcase⟩
  simp only [isFinite, hmag, decide_eq_true_eq]; exact hlt

/-- From the overflow bound on the result is an infinity. -/
theorem roundUnits_overflow (neg : Bool) (num den : Nat) (hd : 0 < den) (h : overflowUnits * den ≤ num) :
    roundUnits neg num den = pack neg infMagnitude := by
  obtain ⟨sh, m, m', r, he, hn, hr, hm, hk, hcase⟩ := roundUnits_spec neg num den hd
  have hov : overflowUnits = (2 ^ 54 - 1) * 2 ^ 2044 := overflowUnits.eq_1
  have hsh : 2045 ≤ sh := by
    by_contra hlt
    have h1 : num < 2 ^ 53 * (den * 2 ^ 2044) := by
      have h2 : num < (m + 1) * (den * 2 ^ sh) := by
        rw [hn, Nat.add_mul, Nat.one_mul]
        exact Nat.add_lt_add_left hr _
      exact Nat.lt_of_lt_of_le h2
        (Nat.mul_le_mul (by omega) (Nat.mul_le_mul_left _ (Nat.pow_le_pow_right (by decide) (by omega))))
    rw [hov, Nat.mul_assoc, Nat.mul_comm (2 ^ 2044) den] at h
    generalize den * 2 ^ 2044 = D at *
    omega
  suffices hbig : infMagnitude ≤ sh * 2 ^ 52 + m' by rw [he, Nat.min_eq_right hbig]
  rw [infMagnitude_eq]
  rcases Nat.lt_or_ge 2045 sh with hs | hs
  · omega
  · obtain rfl : sh = 2045 := by omega
    rw [hov, Nat.mul_assoc, Nat.mul_comm (2 ^ 2044) den] at h
    rw [show 2045 = 2044 + 1 from rfl, mul_two_pow_succ] at hn hr hcase
    generalize den * 2 ^ 2044 = D at *
    have hm' : m = 2 ^ 53 - 1 := by
      by_contra hne
      have : m ≤ 2 ^ 53 - 2 := by omega
      have := Nat.mul_le_mul_right (2 * D) this
      omega
    subst hm'
    omega

/-- A rounded result is nearest to the exact one among all values; in a tie its magnitude is even. -/
theorem roundUnits_nearest (neg : Bool) (num den : Nat) (hd : 0 < den) (h : num < overflowUnits * den) (c : F64) :
    ((unitsMag (roundUnits neg num den) : Int) * den - num).natAbs ≤ (units c * den - num).natAbs ∧
    (((unitsMag (roundUnits neg num den) : Int) * den - num).natAbs = (units c * den - num).natAbs →
      units c = unitsMag (roundUnits neg num den) ∨ magnitude (roundUnits neg num den) % 2 = 0) := by
  obtain ⟨sh, m, m', r, -, hmag, hu, hn, hr, hk, hcase⟩ := roundUnits_finite_spec neg num den hd h
  rw [hu, hmag]
  have hD : 0 < den * 2 ^ sh := Nat.mul_pos hd (Nat.pow_pos (by decide))
  have hgap : units c * den ≤ (m * (den * 2 ^ sh) : Nat) ∨
      (m * (den * 2 ^ sh) + den * 2 ^ sh : Nat) ≤ units c * den := by
    have hg := unitsMag_gap c hk
    have e1 : m * (den * 2 ^ sh) = m * 2 ^ sh * den := by ring
    have e2 : m * (den * 2 ^ sh) + den * 2 ^ sh = (m + 1) * 2 ^ sh * den := by ring
    rw [e2, e1, units]
    split
    · left
      have : (0 : Int) ≤ (unitsMag c : Int) * den := by positivity
      have : (0 : Int) ≤ ((m * 2 ^ sh * den : Nat) : Int) := Int.natCast_nonneg _
      rw [Int.neg_mul]; omega
    · rcases hg with hg | hg
      · left; exact_mod_cast Nat.mul_le_mul_right den hg
      · right; exact_mod_cast Nat.mul_le_mul_right den hg
  have hval : ((m' * 2 ^ sh : Nat) : Int) * den = ((m' * (den * 2 ^ sh) : Nat) : Int) := by push_cast; ring
  have heq : units c * den = ((m' * (den * 2 ^ sh) : Nat) : Int) → units c = ((m' * 2 ^ sh : Nat) : Int) := by
    intro hc
    rw [← hval] at hc
    exact Int.eq_of_mul_eq_mul_right (by omega) hc
  rw [hval]
  generalize units c * (den : Int) = C at *
  have hsucc : (m + 1) * (den * 2 ^ sh) = m * (den * 2 ^ sh) + den * 2 ^ sh := by ring
  generalize den * 2 ^ sh = D at *
  rcases hcase with ⟨rfl, h1, h2⟩ | ⟨rfl, h1, h2⟩
  · generalize m' * D = M at *
    subst hn
    refine ⟨by omega, fun htie => ?_⟩
    rcases hgap with hg | hg
    · left; apply heq; omega
    · right
      have : 2 * r = D := by omega
      have := h2 this
      omega
  · rw [hsucc] at heq ⊢
    generalize m * D = M at *
    subst hn
    refine ⟨by omega, fun htie => ?_⟩
    rcases hgap with hg | hg
    · right
      have : 2 * r = D := by omega
      have := h2 this
      omega
    · left; apply heq; omega

/-! What the operations give at zeros, infinities and NaN -/

@[simp] theorem units_fneg (x : F64) : units (fneg x) = -units x := by
  unfold units
  rw [signBit_fneg, unitsMag_fneg]
  cases signBit x <;> simp

theorem roundUnits_zero (neg : Bool) (den : Nat) : roundUnits neg 0 den = pack neg 0 := by
  simp [roundUnits]

theorem isInf_not_nan {x : F64} (h : isInf x = true) : isNan x = false := by
  simp only [isInf, isNan, decide_eq_true_eq, decide_eq_false_iff_not] at *; omega

theorem isZero_finite {x : F64} (h : isZero x = true) : isFinite x = true := by
  simp only [isZero, isFinite, decide_eq_true_eq] at *; rw [h]; decide

/-- A value that is not NaN is finite or an infinity. -/
theorem isNan_or_isInf_or_isFinite (x : F64) : isNan x = true ∨ isInf x = true ∨ isFinite x = true := by
  simp only [isNan, isInf, isFinite, decide_eq_true_eq]; omega

theorem unitsMag_of_isZero {x : F64} (h : isZero x = true) : unitsMag x = 0 := by
  simp only [isZero, decide_eq_true_eq] at h
  simp [unitsMag, h]

/-- An infinity absorbs what is not NaN and not the opposite infinity. -/
theorem addWith_inf {nan a b : F64} (ha : isInf a = true) (hb : isNan b = false)
    (h : isInf b = true → signBit a = signBit b) : addWith nan a b = a := by
  unfold addWith
  simp only [isInf_not_nan ha, hb, ha]
  cases hi : isInf b <;> simp_all

theorem addWith_finite_inf {nan a b : F64} (ha : isFinite a = true) (hb : isInf b = true) : addWith nan a b = b := by
  simp [addWith, isFinite_not_nan ha, isFinite_not_inf ha, isInf_not_nan hb, hb]

/-- Opposite infinities cancel to NaN. -/
theorem addWith_opposite_inf {nan a b : F64} (ha : isInf a = true) (hb : isInf b = true)
    (h : signBit a ≠ signBit b) : addWith nan a b = nan := by
  simp [addWith, isInf_not_nan ha, isInf_not_nan hb, ha, hb, h]

/-- The sum of finite values. -/
theorem addWith_finite {nan a b : F64} (ha : isFinite a = true) (hb : isFinite b = true) :
    addWith nan a b = if units a + units b = 0 then pack (signBit a && signBit b) 0
      else roundUnits (decide (units a + units b < 0)) (units a + units b).natAbs 1 := by
  simp [addWith, isFinite_not_nan, isFinite_not_inf, ha, hb]

theorem pack_zero (n : Bool) : pack n 0 = if n then 0x8000000000000000#64 else 0x0000000000000000#64 := by
  cases n <;> decide

/-- A finite value times a zero is a zero. -/
theorem fmul_isZero {a b : F64} (ha : isFinite a = true) (hb : isZero b = true) :
    fmul a b = pack (signBit a != signBit b) 0 := by
  simp [fmul, isFinite_not_nan ha, isFinite_not_inf ha, isFinite_not_nan (isZero_finite hb),
    isFinite_not_inf (isZero_finite hb), unitsMag_of_isZero hb, roundUnits_zero]

@[simp] theorem isNan_pack_inf (n : Bool) : isNan (pack n infMagnitude) = false := by cases n <;> decide
@[simp] theorem isInf_pack_inf (n : Bool) : isInf (pack n infMagnitude) = true := by cases n <;> decide
@[simp] theorem signBit_pack_inf (n : Bool) : signBit (pack n infMagnitude) = n := by cases n <;> decide
@[simp] theorem isNan_pack_zero (n : Bool) : isNan (pack n 0) = false := by cases n <;> decide
@[simp] theorem isZero_pack_zero (n : Bool) : isZero (pack n 0) = true := by cases n <;> decide
@[simp] theorem signBit_pack_zero (n : Bool) : signBit (pack n 0) = n := by cases n <;> decide

theorem isInf_not_zero {x : F64} (h : isInf x = true) : isZero x = false := by
  simp only [isInf, isZero, decide_eq_true_eq, decide_eq_false_iff_not] at *; rw [h]; decide

end Sys2Proof.Machine
end

