-- ==== Sys2Proof/Laws/PerInstr.lean ====
section
/-! SUPPORT. Statements made for each command. -/

namespace Sys2Proof.Laws.CommandFormat

/-- The word of a command has RSVD = 0, an OP of 30_encoding.md R81, and CH = 0 unless it is BQ_PROC (R82, R86). -/
def Statement (i : Instr) : Prop :=
  rsvdField (encode i) = 0 ∧ opField (encode i) ∈ [0x01#8, 0x02#8, 0x03#8, 0x10#8, 0x20#8] ∧
    (opField (encode i) ≠ 0x03#8 → chField (encode i) = 0)

theorem bqCfg : Statement .bqCfg := by simp [Statement, encode]

theorem bqRst : Statement .bqRst := by simp [Statement, encode]

theorem bqProc (ch : Nat) : Statement (.bqProc ch) := by simp [Statement, encode]

theorem ilvRun : Statement .ilvRun := by simp [Statement, encode]

theorem wavEnc : Statement .wavEnc := by simp [Statement, encode]

end Sys2Proof.Laws.CommandFormat
end

