-- ==== Sys2Proof/Laws/Stream.lean ====
section
/-! SUPPORT. Which cells ILV_RUN and WAV_ENC write, in order, and little-endian reads of written bytes. -/

namespace Sys2Proof.Machine

/-- n consecutive bytes of `v`, low byte first, read back as `v` modulo 2^(8n) (20_memory.md R54). -/
theorem readLE_of_bytes {m : Memory Byte} {b n v : Nat}
    (h : ∀ i, i < n → Memory.read m (b + i) = some (BitVec.ofNat 8 (v / 2 ^ (8 * i)))) :
    readLE m b n = some (v % 2 ^ (8 * n)) := by
  induction n generalizing b v with
  | zero => simp [readLE, Nat.mod_one]
  | succ n ih =>
    have h0 : Memory.read m b = some (BitVec.ofNat 8 v) := by simpa using h 0 (by omega)
    have hr : readLE m (b + 1) n = some (v / 256 % 2 ^ (8 * n)) := by
      apply ih
      intro i hi
      have := h (i + 1) (by omega)
      rw [show b + 1 + i = b + (i + 1) by omega, this, Nat.div_div_eq_div_mul,
        show 8 * (i + 1) = 8 + 8 * i by omega, Nat.pow_add]
    rw [readLE, h0, hr]
    simp only [BitVec.toNat_ofNat, Option.some.injEq]
    rw [show 8 * (n + 1) = 8 + 8 * n by omega, Nat.pow_add, Nat.mod_mul]

/-- A cell of a multi-byte write names its byte. -/
theorem outCells_fst (b n v : Nat) : (outCells b n v).map Prod.fst = List.range' b n := by
  simp [outCells, List.range'_eq_map_range, Function.comp_def]

/-- The header names bytes 0 to 43, each once, in order (42_wav_encoder.md R152). -/
theorem headerCells_fst (N Cn Rate : Nat) : (headerCells N Cn Rate).map Prod.fst = List.range' 0 44 := by
  simp only [headerCells, headerFields, List.flatMap_cons, List.flatMap_nil, List.map_append, outCells_fst, List.map_nil]
  rfl

/-- The samples name the bytes from 44 on, each once, in order (42_wav_encoder.md R156). -/
theorem sampleCells_fst (P : Params) (S : List F64) : (sampleCells P S).map Prod.fst = List.range' 44 (2 * S.length) := by
  have key : ∀ (l : List F64) (k : Nat),
      ((l.zipIdx k).flatMap (fun p => outCells (44 + 2 * p.2) 2 (s16 (quantize P p.1)).toNat)).map Prod.fst =
        List.range' (44 + 2 * k) (2 * l.length) := by
    intro l
    induction l with
    | nil => intro k; rfl
    | cons a l ih =>
      intro k
      rw [List.zipIdx_cons, List.flatMap_cons, List.map_append, ih, outCells_fst, List.length_cons,
        show 2 * (l.length + 1) = 2 + 2 * l.length by omega, ← List.range'_append]
      congr 2
  simpa [sampleCells] using key S 0

theorem streamCells_fst (P : Params) (S : List F64) (N Cn Rate : Nat) :
    (headerCells N Cn Rate ++ sampleCells P S).map Prod.fst = List.range' 0 (44 + 2 * S.length) := by
  rw [List.map_append, headerCells_fst, sampleCells_fst, ← List.range'_append]

/-- Every header field is among the cells written. -/
theorem headerField_bytes {P : Params} {S : List F64} {N Cn Rate b n v : Nat} (m : Memory Byte)
    (hf : (b, n, v) ∈ headerFields N Cn Rate) {i : Nat} (hi : i < n) :
    Memory.read (Memory.writeAll m (headerCells N Cn Rate ++ sampleCells P S)) (b + i) =
      some (BitVec.ofNat 8 (v / 2 ^ (8 * i))) := by
  apply Memory.read_writeAll_mem
  · rw [streamCells_fst]; exact List.nodup_range'
  · apply List.mem_append_left
    simp only [headerCells, List.mem_flatMap]
    refine ⟨_, hf, ?_⟩
    simpa using outCells_covers (b := b) (n := n) (v := v) (a := b + i) (by omega) (by omega)

/-- Every sample is among the cells written. -/
theorem sample_bytes {P : Params} {S : List F64} {N Cn Rate k : Nat} (m : Memory Byte) (hk : k < S.length) {i : Nat}
    (hi : i < 2) :
    Memory.read (Memory.writeAll m (headerCells N Cn Rate ++ sampleCells P S)) (44 + 2 * k + i) =
      some (BitVec.ofNat 8 ((s16 (quantize P S[k])).toNat / 2 ^ (8 * i))) := by
  apply Memory.read_writeAll_mem
  · rw [streamCells_fst]; exact List.nodup_range'
  · apply List.mem_append_right
    simp only [sampleCells, List.mem_flatMap]
    refine ⟨(S[k], k), ?_, ?_⟩
    · exact List.mem_zipIdx_iff_getElem?.2 (by simp [hk])
    · simpa using outCells_covers (b := 44 + 2 * k) (n := 2) (v := (s16 (quantize P S[k])).toNat)
        (a := 44 + 2 * k + i) (by omega) (by omega)

/-- The frame-major order names ILV cell i × Cn + j for channel j of frame i: all cells below F × Cn, each once, in order
(41_interleaver.md R140, R143). -/
theorem frameMajor_index (F Cn : Nat) :
    (frameMajor F Cn).map (fun p => p.2 * Cn + p.1) = List.range' 0 (F * Cn) := by
  induction F with
  | zero => simp [frameMajor]
  | succ F ih =>
    have hs : frameMajor (F + 1) Cn = frameMajor F Cn ++ (List.range Cn).map (fun j => (j, F)) := by
      simp [frameMajor, List.range_succ]
    rw [hs, List.map_append, ih, Nat.succ_mul, ← List.range'_append, List.map_map]
    congr 1
    rw [List.range'_eq_map_range]
    simp [Function.comp_def]

theorem interleaveCells_fst {plane : Memory F64} {F Cn : Nat} {cells : List (Nat × F64)}
    (h : interleaveCells plane F Cn = some cells) : cells.map Prod.fst = List.range' 0 (F * Cn) := by
  rw [← frameMajor_index]
  have hf := mapM_option_some h
  clear h
  generalize frameMajor F Cn = l at hf
  induction hf with
  | nil => rfl
  | cons hab _ ih =>
    simp only [interleaveCell, Option.map_eq_some_iff] at hab
    obtain ⟨v, -, rfl⟩ := hab
    simp only [List.map_cons, ih]

/-- Every channel of every frame is among the cells ILV_RUN writes. -/
theorem interleaveCells_covers {plane : Memory F64} {F Cn j i : Nat} {cells : List (Nat × F64)}
    (h : interleaveCells plane F Cn = some cells) (hj : j < Cn) (hi : i < F) :
    ∃ v, Memory.read plane (planeIndex j i) = some v ∧ (i * Cn + j, v) ∈ cells := by
  have hmem : (j, i) ∈ frameMajor F Cn := mem_frameMajor.2 ⟨hj, hi⟩
  obtain ⟨hl, hg⟩ := List.forall₂_iff_get.1 (mapM_option_some h)
  obtain ⟨n, hn, he⟩ := List.getElem_of_mem hmem
  have hn' : n < cells.length := by omega
  have hc : interleaveCell plane Cn (j, i) = some cells[n] := by simpa [he] using hg n hn hn'
  simp only [interleaveCell, Option.map_eq_some_iff] at hc
  obtain ⟨v, hv, hvc⟩ := hc
  exact ⟨v, hv, by rw [hvc]; exact List.getElem_mem _⟩

end Sys2Proof.Machine
end

