-- ==== Sys2Proof/Tests/Slice0.lean ====
section
/-! SUPPORT. Tests of the model against the vectors of 95_test_vectors.md, and for every statement with hypotheses a
witness that meets them together. -/

namespace Sys2Proof.Tests

open Sys2Proof.Machine

-- One theorem at a time: each `decide +kernel` waits for all checks before it, and holds a thread while it waits.
set_option Elab.async false

/-! ### Helpers -/

/-- The assumptions of 95_test_vectors.md: NCH_MAX = 2, FRAMES_MAX = 16000, PEAK_0DB, AWAY, and SIN and COS at the point
that CFG-1 lists. -/
def params : Params where
  nchCode := 1
  framesCode := 15999
  bpVariant := .peak0dB
  tieMode := .away
  trig := [⟨0x3FE921FB54442D18#64, 0x3FE6A09E667F3BCC#64, 0x3FE6A09E667F3BCD#64⟩]

/-- The power-on state of the vectors. -/
def start : State := State.resetWith params

/-- The coefficients of CFG-1. -/
def defaultCoeffs : Coeffs :=
  ⟨0x3FD0B7907523B20E#64, 0x0#64, 0xBFD0B7907523B20E#64, 0xBFF0B7907523B20F#64, 0x3FDE90DF15B89BE4#64⟩

/-- After CFG-1 and BQ_RST, with ARG_X = 1.0. -/
def ready : State := { start with coef := defaultCoeffs, configured := true, argX := oneF }

/-- `ready` in the BUSY window, `n` reads of BUSY = 1 to come. -/
def busyFor (n : Nat) : State := { ready with busy := some n }

/-- One frame of two channels: plane 0 = [0.5], plane 1 = [0.25]. -/
def oneFrame : State :=
  { start with argNframes := 1#32, argNch := 2#32, plane := [(0, 0x3FE0000000000000#64), (1, 0x3FD0000000000000#64)] }

/-- The input of WAV-4: ILV = [1.0, -1.0], 44100 Hz, two channels. -/
def wavInput : State :=
  { start with
    argRate := 44100#32, argNch := 2#32, ilvLen := 2#32
    ilv := [(0, 0x3FF0000000000000#64), (1, 0xBFF0000000000000#64)] }

/-- `r` is a next state that meets `p`. -/
def answers (r : Result) (p : State → Bool) : Bool :=
  match r with
  | .next t => p t
  | .fault _ => false
  | .refused _ => false

/-- `r` is the model fault `f`. -/
def faultsWith (r : Result) (f : Fault) : Bool :=
  match r with
  | .next _ => false
  | .fault g => decide (g = f)
  | .refused _ => false

theorem answers_next {r : Result} {p : State → Bool} (h : answers r p = true) : ∃ t, r = .next t ∧ p t = true := by
  cases r with
  | next t => exact ⟨t, rfl, h⟩
  | fault f => cases h
  | refused f => cases h

/-- The datum of the last host read. -/
def lastRead (t : State) : Option Datum := t.returned.head?

/-! ### Well-formedness -/

theorem test_wellFormed_channel_255 : (Instr.bqProc 255).wellFormed = true := by decide

theorem test_wellFormed_refuses_channel_256 : (Instr.bqProc 256).wellFormed = false := by decide

theorem test_wellFormed_plain_commands :
    [Instr.bqCfg, .bqRst, .ilvRun, .wavEnc].all Instr.wellFormed = true := by decide

/-! ### Decoding and encoding: words written out from 30_encoding.md R81, R82 (RSVD, CH, OP) -/

theorem test_decode_bqCfg : decode 0b0000000000000000_00000000_00000001#32 = .ok .bqCfg := by decide

theorem test_decode_bqRst : decode 0b0000000000000000_00000000_00000010#32 = .ok .bqRst := by decide

theorem test_decode_bqProc : decode 0b0000000000000000_00000001_00000011#32 = .ok (.bqProc 1) := by decide

theorem test_decode_bqProc_last : decode 0b0000000000000000_11111111_00000011#32 = .ok (.bqProc 255) := by decide

theorem test_decode_ilvRun : decode 0b0000000000000000_00000000_00010000#32 = .ok .ilvRun := by decide

theorem test_decode_wavEnc : decode 0b0000000000000000_00000000_00100000#32 = .ok .wavEnc := by decide

theorem test_encode_words :
    [Instr.bqCfg, .bqRst, .bqProc 0, .bqProc 1, .bqProc 255, .ilvRun, .wavEnc].map encode =
      [0x00000001#32, 0x00000002#32, 0x00000003#32, 0x00000103#32, 0x0000FF03#32, 0x00000010#32, 0x00000020#32] := by
  decide

/-- The illegal words of 95_test_vectors.md section 2.7. -/
theorem test_decode_illegal_words :
    [0x00000000#32, 0x00000004#32, 0x000000FF#32, 0x00000011#32].map decode =
      List.replicate 4 (.error .unassignedOpcode) ∧
    [0x00000101#32, 0x00000102#32, 0x00000110#32, 0x00000120#32].map decode =
      List.replicate 4 (.error .channelField) ∧
    [0x00010003#32, 0x80000001#32, 0xFFFFFFFF#32].map decode = List.replicate 3 (.error .reservedField) := by
  decide

theorem test_decodeTableWord :
    [1, 2, 3, 0x10, 0x20].map (decodeTableWord 32) =
      [some .bqCfg, some .bqRst, some (.bqProc 0), some .ilvRun, some .wavEnc] ∧
    decodeTableWord 32 0 = none ∧ decodeTableWord 40 1 = none := by
  decide

/-! ### binary64 arithmetic: values of 95_test_vectors.md and exact sums -/

/-- 2000.0 × 2.0 = 4000.0, 4000.0 / 16000.0 = 0.25, 1.0 - 0.5 = 0.5, 0.5 + 0.5 = 1.0. -/
theorem test_float_exact :
    fmul 0x409F400000000000#64 0x4000000000000000#64 = 0x40AF400000000000#64 ∧
    fdiv 0x40AF400000000000#64 0x40CF400000000000#64 = 0x3FD0000000000000#64 ∧
    fsub 0x3FF0000000000000#64 0x3FE0000000000000#64 = 0x3FE0000000000000#64 ∧
    fadd 0x3FE0000000000000#64 0x3FE0000000000000#64 = 0x3FF0000000000000#64 := by
  decide +kernel

/-- CFG-1's w and alpha; CFG-E10's 2·q overflows to +∞. -/
theorem test_float_design :
    fdiv (fmul (fmul twoF piF) 0x409F400000000000#64) 0x40CF400000000000#64 = 0x3FE921FB54442D18#64 ∧
    fdiv 0x3FE6A09E667F3BCC#64 (fmul twoF oneF) = 0x3FD6A09E667F3BCC#64 ∧
    fmul twoF 0x7FE1CCF385EBC8A0#64 = 0x7FF0000000000000#64 := by
  decide +kernel

/-! ### The five commands, one step each -/

/-- CFG-1. -/
theorem test_bqCfg_defaults :
    answers (exec .bqCfg start) (fun t => decide (t = { start with coef := defaultCoeffs, configured := true })) = true := by
  decide +kernel

/-- CFG-E2: q = -0.0 after a success keeps the coefficients (CFG-E13). -/
theorem test_bqCfg_negative_zero_q :
    answers (exec .bqCfg { ready with argQ := 0x8000000000000000#64 })
      (fun t => decide (t.coef = defaultCoeffs ∧ t.configured = true ∧ t.err = .invalidFilterParameters)) = true := by
  decide +kernel

/-- RST-3: both channels are cleared. -/
theorem test_bqRst_clears_both :
    answers (exec .bqRst { ready with delay := [⟨1, 2, 3, 4⟩, ⟨5, 6, 7, 8⟩], err := .capacity })
      (fun t => decide (t.delay = [DelayLine.zero, DelayLine.zero] ∧ t.err = .ok ∧ t.coef = defaultCoeffs)) = true := by
  decide +kernel

/-- PROC-2, its third output: the state after two samples of 1.0, on channel 1 (PROC-11 shows the channels alike). -/
theorem test_bqProc_third_step_sample :
    answers
      (exec (.bqProc 1)
        { ready with delay := [DelayLine.zero, ⟨oneF, oneF, 0x3FE11775AE7D7348#64, 0x3FD0B7907523B20E#64⟩] })
      (fun t => decide (t.resY = 0x3FDBBB35A043E566#64 ∧
        t.delay = [DelayLine.zero, ⟨oneF, oneF, 0x3FDBBB35A043E566#64, 0x3FE11775AE7D7348#64⟩])) = true := by
  decide +kernel

/-- PROC-E3: CHANNEL_RANGE comes before NOT_CONFIGURED. -/
theorem test_bqProc_channel_range_first :
    answers (exec (.bqProc 2) start) (fun t => decide (t = { start with err := .channelRange })) = true := by
  decide +kernel

/-- ILV-1, its first frame's order. -/
theorem test_ilvRun_frame_major :
    answers (exec .ilvRun oneFrame)
      (fun t => decide (t.ilv = [(0, 0x3FE0000000000000#64), (1, 0x3FD0000000000000#64)] ∧ t.ilvLen = 2#32)) = true := by
  decide +kernel

/-- ILV-8: plane 1 holds no value. -/
theorem test_ilvRun_unwritten_plane :
    faultsWith (exec .ilvRun { oneFrame with plane := [(0, 0x3FF0000000000000#64)] }) .uninitRead = true := by
  decide +kernel

/-- WAV-4: the whole stream. -/
theorem test_wavEnc_stream :
    answers (exec .wavEnc wavInput)
      (fun t => decide (t.outLen = 48#32 ∧ t.out.map Prod.snd =
        [0x52, 0x49, 0x46, 0x46, 0x28, 0x00, 0x00, 0x00, 0x57, 0x41, 0x56, 0x45, 0x66, 0x6D, 0x74, 0x20,
         0x10, 0x00, 0x00, 0x00, 0x01, 0x00, 0x02, 0x00, 0x44, 0xAC, 0x00, 0x00, 0x10, 0xB1, 0x02, 0x00,
         0x04, 0x00, 0x10, 0x00, 0x64, 0x61, 0x74, 0x61, 0x04, 0x00, 0x00, 0x00, 0xFF, 0x7F, 0x01, 0x80])) = true := by
  decide +kernel

/-- WAV-E5: N is no multiple of Cn. -/
theorem test_wavEnc_partial_frame :
    answers (exec .wavEnc { wavInput with ilvLen := 3#32 })
      (fun t => decide (t.err = .invalidAudioFormat ∧ t.out = [] ∧ t.outLen = 0#32)) = true := by
  decide +kernel

/-- Section 2.5: ±0.5/32767 is a tie, and each mode takes it its own way. -/
theorem test_quantize_ties :
    [TieMode.away, .posInf, .even].map (fun m => quantize { params with tieMode := m } 0x3EF0002000400080#64) = [1, 1, 0] ∧
    [TieMode.away, .posInf, .even].map (fun m => quantize { params with tieMode := m } 0xBEF0002000400080#64) =
      [-1, 0, 0] := by
  decide +kernel

/-! ### The register map and STATUS: vectors H-1 to H-29 -/

/-- H-4 and H-5: the halves of ARG_F0. -/
theorem test_register_halves :
    answers (hostAccess (.regRead32 0x0C) start) (fun t => decide (lastRead t = some (.word 0x409F4000#32))) = true ∧
    answers (hostAccess (.regWrite32 0x0C 0x40AF4000#32) start)
      (fun t => decide (t.argF0 = 0x40AF400000000000#64)) = true := by
  decide +kernel

/-- STATUS after CFG-E13 reads 0x00000102. -/
theorem test_status_word :
    answers (hostAccess (.regRead32 0x04) { ready with err := .invalidFilterParameters })
      (fun t => decide (lastRead t = some (.word 0x00000102#32))) = true := by
  decide +kernel

/-- H-27: a read of RES_Y in the BUSY window. -/
theorem test_busy_hazard : faultsWith (hostAccess (.regRead64 0x28) (busyFor 0)) .hostHazard = true := by
  decide +kernel

/-- H-22 and H-24: an ILV cell that holds no value, and an OUT byte that does not exist. -/
theorem test_cell_faults :
    faultsWith (hostAccess (.ilvRead 0) start) .uninitRead = true ∧
    faultsWith (hostAccess (.outRead 64044) start) .badAccess = true := by
  decide +kernel

/-! ### Placing a command after reset -/

theorem test_reset_runs_every_row :
    [0x01, 0x02, 0x03, 0x10, 0x20].all (fun w => answers (step (State.reset.withFetchWord 32 w)) (fun _ => true)) =
      true := by
  decide +kernel

theorem test_reset_memories_canonical :
    Memory.wf State.reset.plane ∧ Memory.wf State.reset.ilv ∧ Memory.wf State.reset.out := by
  decide

/-- Writing a cell keeps the indices rising and replaces a value in place. -/
theorem test_memory_write_canonical :
    Memory.write (Memory.write [(1, 1#8), (5, 5#8)] 3 3#8) 1 9#8 = [(1, 9#8), (3, 3#8), (5, 5#8)] := by
  decide

/-! ### Witnesses: for each statement with hypotheses, values that meet them together

Each clause of a statement is met at a boundary value of its range. -/

theorem test_witness_DecodeOfEncodeIsTheCommand :
    (Instr.bqProc 0).wellFormed = true ∧ (Instr.bqProc 255).wellFormed = true := by decide

theorem test_witness_DecodedWordIsTheCommandsOwnWord :
    decode 0x0000FF03#32 = .ok (.bqProc 255) ∧ decode 0x00000001#32 = .ok .bqCfg := by decide

/-- No BUSY window, and each branch of the statement is taken by some word. -/
theorem test_witness_CmdWritePerformsTheDecodedCommand :
    start.busy = none ∧
    [0x00010003#32, 0x00000103#32, 0x00000101#32, 0x00000001#32, 0x00000002#32, 0x00000010#32, 0x00000020#32,
      0x00000000#32].map decode =
      [.error .reservedField, .ok (.bqProc 1), .error .channelField, .ok .bqCfg, .ok .bqRst, .ok .ilvRun, .ok .wavEnc,
        .error .unassignedOpcode] := by
  decide

theorem test_witness_IllegalWordOnlySetsErrSeven :
    start.busy = none ∧ (0x00010003#32).toNat / 65536 ≠ 0 ∧ (0x00000000#32).toNat % 256 ∉ [0x01, 0x02, 0x03, 0x10, 0x20] ∧
    ((0x00000101#32).toNat % 256 ≠ 0x03 ∧ (0x00000101#32).toNat / 256 % 256 ≠ 0) := by
  decide

theorem test_witness_StepRunsThePendingCommand :
    let s := { start with pending := [.access (.regWrite32 0x00 0x00000001#32), .poll] }
    s.pending = .access (.regWrite32 0x00 0x00000001#32) :: [.poll] ∧ s.busy = none ∧
      decode 0x00000001#32 = .ok .bqCfg := by
  decide

theorem test_witness_StepRunsThePlacedCommand : (Instr.bqProc 255).wellFormed = true := by decide

theorem test_witness_BusyWindowAdmitsOnlyStatusReads :
    (start.busy = none ∧ decode 0x00000002#32 = .ok .bqRst ∧
      ∃ t, hostAccess (.regWrite32 0x00 0x00000002#32) start = .next t) ∧
    ((busyFor 0).busy.isSome = true ∧ HostAccess.regWrite32 0x04 0#32 ≠ .regRead32 0x04) := by
  have h : answers (hostAccess (.regWrite32 0x00 0x00000002#32) start) (fun _ => true) = true := by decide +kernel
  exact ⟨⟨rfl, by decide, (answers_next h).imp fun _ ht => ht.1⟩, rfl, by decide⟩

theorem test_witness_StatusFieldsReadAsTheirState :
    ready.busy = none ∧ (busyFor 0).busy.isSome = true ∧ (busyFor 1).busy.isSome = true := by decide

theorem test_witness_PollEndsTheBusyWindow :
    let s := { busyFor 2 with pending := [.poll, .access (.regRead64 0x28)] }
    s.pending = .poll :: [.access (.regRead64 0x28)] ∧ s.busy = some 2 := by
  decide

/-- Offsets on both sides of each boundary. -/
theorem test_witness_BadAccessOutsideTheRegisterRules :
    start.busy = none ∧ (0xFC % 4 = 0 ∧ 0xFC < 0x100) ∧ ¬ (0x100 % 4 = 0 ∧ 0x100 < 0x100) ∧
    ¬ (0x02 % 4 = 0 ∧ 0x02 < 0x100) ∧
    [0x00, 0x08, 0x0C, 0x28, 0x30, 0x40, 0x48, 0x68, 0x70].map (fun o => (reg64At o).isSome) =
      [false, true, false, true, false, false, true, true, false] ∧
    (16 ≠ 32 ∧ 16 ≠ 64) := by
  decide

theorem test_witness_ReservedOffsetsReadZeroIgnoreWrites :
    start.busy = none ∧ ∀ o ∈ [0x44, 0x70, 0xFC], o % 4 = 0 ∧ (o = 0x44 ∨ 0x70 ≤ o ∧ o < 0x100) := by
  decide

theorem test_witness_RegisterWritesReachTheirRegister :
    start.busy = none ∧ ∀ o ∈ [0x70, 0xFC], 0x70 ≤ o ∧ o < 0x100 ∧ o % 4 = 0 := by decide

theorem test_witness_RegisterReadsReturnTheirRegister :
    start.busy = none ∧ ∀ o ∈ [0x70, 0xFC], 0x70 ≤ o ∧ o < 0x100 ∧ o % 4 = 0 := by decide

/-- The last cells exist and the next ones do not. -/
theorem test_witness_MemoryPrimitivesAccessTheirCell :
    start.busy = none ∧ planeInRange start 1 15999 = true ∧ planeInRange start 2 0 = false ∧
    planeInRange start 0 16000 = false ∧ start.params.ilvMax = 32000 ∧ start.params.outMax = 64044 ∧
    Memory.read oneFrame.plane (planeIndex 1 0) = some 0x3FD0000000000000#64 ∧
    Memory.read wavInput.ilv 1 = some 0xBFF0000000000000#64 ∧
    Memory.read ({ start with out := [(64043, 7#8)] } : State).out 64043 = some 7#8 ∧
    isCommandWrite (.ilvWrite 0 oneF) = false ∧ answers (hostAccess (.ilvWrite 0 oneF) start) (fun _ => true) = true := by
  decide +kernel

theorem test_witness_HostCellWriteThenReads :
    start.busy = none ∧ 1 < start.params.nchMax ∧ 15999 < start.params.framesMax ∧
    31999 < start.params.nchMax * start.params.framesMax := by
  decide +kernel

/-- The last cells, unwritten; ILV_RUN with one of two channels written, WAV_ENC with one of two samples written. -/
theorem test_witness_UnwrittenCellReadFaults :
    (start.busy = none ∧ 1 < start.params.nchMax ∧ 15999 < start.params.framesMax ∧
      Memory.read start.plane (planeIndex 1 15999) = none) ∧
    (31999 < start.params.ilvMax ∧ Memory.read start.ilv 31999 = none) ∧
    (64043 < start.params.outMax ∧ Memory.read start.out 64043 = none) ∧
    (let s := { oneFrame with plane := [(0, oneF)] };
      s.argNch.toNat ≤ s.params.nchMax ∧ s.argNframes.toNat ≤ s.params.framesMax ∧ 1 < s.argNch.toNat ∧
      0 < s.argNframes.toNat ∧ Memory.read s.plane (planeIndex 1 0) = none) ∧
    (let s := { wavInput with ilv := [(0, oneF)] };
      0 < s.argNch.toNat ∧ 0 < s.argRate.toNat ∧ s.argNch.toNat ≤ 32767 ∧
      s.argRate.toNat * s.argNch.toNat * 2 ≤ 2 ^ 32 - 1 ∧ s.ilvLen.toNat % s.argNch.toNat = 0 ∧
      s.ilvLen.toNat ≤ s.params.ilvMax ∧ 1 < s.ilvLen.toNat ∧ Memory.read s.ilv 1 = none) := by
  decide +kernel

/-- Finite operands in range and, for the other case of `CorrectlyRounded`, beyond it. -/
theorem test_witness_SumAndDifferenceCorrectlyRounded :
    isFinite 0x0000000000000001#64 = true ∧ isFinite 0x7FEFFFFFFFFFFFFF#64 = true ∧
    (units 0x0000000000000001#64 + units oneF).natAbs < overflowUnits * 1 ∧
    ¬ (units 0x7FEFFFFFFFFFFFFF#64 + units 0x7FEFFFFFFFFFFFFF#64).natAbs < overflowUnits * 1 := by
  decide +kernel

theorem test_witness_ProductCorrectlyRounded :
    isFinite oneF = true ∧ isFinite 0x7FEFFFFFFFFFFFFF#64 = true ∧
    (units oneF * units oneF).natAbs < overflowUnits * 2 ^ 1074 ∧
    ¬ (units 0x7FEFFFFFFFFFFFFF#64 * units 0x7FEFFFFFFFFFFFFF#64).natAbs < overflowUnits * 2 ^ 1074 := by
  decide +kernel

theorem test_witness_QuotientCorrectlyRounded :
    isFinite oneF = true ∧ isFinite 0x8000000000000001#64 = true ∧ units 0x8000000000000001#64 ≠ 0 ∧
    (units oneF * 2 ^ 1074 * (units oneF).sign).natAbs < overflowUnits * (units oneF).natAbs ∧
    ¬ (units oneF * 2 ^ 1074 * (units 0x8000000000000001#64).sign).natAbs <
      overflowUnits * (units 0x8000000000000001#64).natAbs := by
  decide +kernel

theorem test_witness_ComparisonsOrderValues :
    isFinite 0x8000000000000000#64 = true ∧ isFinite 0x7FEFFFFFFFFFFFFF#64 = true ∧ isNan 0x7FF0000000000001#64 = true := by
  decide

/-- The operands of CFG-1, under both variants. -/
theorem test_witness_BqCfgHoldsTheNormalisedCoefficients :
    [BpVariant.peak0dB, .skirt].all (fun v =>
      let P := { params with bpVariant := v }
      let d := design P start.argF0 start.argQ start.argFs
      isFinite start.argF0 && isFinite start.argQ && isFinite start.argFs && fgt start.argQ 0x0#64 &&
      fgt start.argF0 0x0#64 && fgt start.argFs (fmul 0x4000000000000000#64 start.argF0) && fgt d.alpha 0x0#64 &&
      coeffsFinite (normalised (unnormalised P start.argQ d.alpha d.c))) = true := by
  decide +kernel

/-- CFG-E2, E3, E5, E6, E10, E11 fail at (b), (a), (d), (c), (e), (f); CFG-1 fails at none; and the reset f0 and fs meet
the last clause. -/
theorem test_witness_BqCfgRejectsExactlyTheBadParameters :
    fgt 0x8000000000000000#64 0x0#64 = false ∧ isFinite 0x7FF8000000000000#64 = false ∧
    fgt 0x40CF400000000000#64 (fmul twoF 0x40BF400000000000#64) = false ∧ fgt 0x0#64 0x0#64 = false ∧
    fgt (design params 0x409F400000000000#64 0x7FE1CCF385EBC8A0#64 0x40CF400000000000#64).alpha 0x0#64 = false ∧
    (let d := design params 0x409F400000000000#64 0x0000000000000001#64 0x40CF400000000000#64;
      isFinite (normalised (unnormalised params 0x0000000000000001#64 d.alpha d.c)).c1 = true ∧
      isInf d.alpha = true) ∧
    (configureCoeffs params start.argF0 start.argQ start.argFs).isSome = true ∧
    isFinite start.argF0 = true ∧ isFinite start.argFs = true ∧ fgt start.argF0 0x0#64 = true ∧
    fgt start.argFs (fmul twoF start.argF0) = true := by
  decide +kernel

theorem test_witness_ConfiguredCoefficientsAreAntisymmetric :
    ∃ t, exec .bqCfg start = .next t ∧ t.err = .ok := by
  have h : answers (exec .bqCfg start) (fun t => decide (t.err = .ok)) = true := by decide +kernel
  exact (answers_next h).imp fun _ ht => ⟨ht.1, of_decide_eq_true ht.2⟩

theorem test_witness_UnitQMakesTheVariantsAgree :
    start.argQ = 0x3FF0000000000000#64 ∧
    (∃ t, exec .bqCfg { start with params := { params with bpVariant := .peak0dB } } = .next t) ∧
    (∃ u, exec .bqCfg { start with params := { params with bpVariant := .skirt } } = .next u) :=
  ⟨rfl, ⟨_, rfl⟩, ⟨_, rfl⟩⟩

theorem test_witness_BqRstClearsEveryDelayLine : 1 < start.params.nchMax := by decide

theorem test_witness_BqProcComputesTheDifferenceEquation :
    1 < ready.params.nchMax ∧ ready.configured = true ∧ ready.delay[1]? = some DelayLine.zero := by decide

/-- The first channel that does not exist, and the last that does, unconfigured. -/
theorem test_witness_BqProcErrorsInOrder :
    start.params.nchMax ≤ 2 ∧ 1 < start.params.nchMax ∧ start.configured = false := by decide

theorem test_witness_NanPoisonsItsChannel :
    let s := { ready with argX := 0x7FF8000000000000#64 }
    1 < s.params.nchMax ∧ s.configured = true ∧ s.delay[1]? = some DelayLine.zero ∧ isNan s.argX = true := by
  decide

theorem test_witness_ChannelOutputsIgnoreOtherChannels :
    ready.delay.length = ready.params.nchMax ∧ ready.configured = true ∧ 1 < ready.params.nchMax := by decide

/-- Two states that differ in what the first and last clauses leave free, and a third that differs in NCH_MAX, which the
second leaves free. -/
theorem test_witness_FilterResultsHaveNoHiddenState :
    let s := ready
    let s' : State := { ready with
      resY := oneF, ilvLen := 7#32, delay := [⟨1, 2, 3, 4⟩, DelayLine.zero],
      params := { params with tieMode := .even, framesCode := 0 } }
    let u : State := { ready with params := { params with nchCode := 255 } }
    let ok := fun t : State => decide (t.err = .ok)
    s ≠ s' ∧ s ≠ u ∧ s.argX = u.argX ∧ s.coef = u.coef ∧ s.delay[1]? = u.delay[1]? ∧ s.argF0 = s'.argF0 ∧ s.argQ = s'.argQ ∧ s.argFs = s'.argFs ∧ s.argX = s'.argX ∧ s.coef = s'.coef ∧
    s.configured = s'.configured ∧ s.delay[1]? = s'.delay[1]? ∧ s.params.nchMax = s'.params.nchMax ∧
    s.params.bpVariant = s'.params.bpVariant ∧ s.params.trig = s'.params.trig ∧
    answers (exec .bqCfg s) (fun _ => true) = true ∧ answers (exec .bqCfg s') (fun _ => true) = true ∧
    answers (exec (.bqProc 1) s) ok = true ∧ answers (exec (.bqProc 1) s') ok = true ∧
    answers (exec (.bqProc 1) u) ok = true := by
  decide +kernel

theorem test_witness_RstMakesThePassRepeat : 1 < ready.params.nchMax ∧ ready.configured = true := by decide

/-- Both channels of one frame written. -/
theorem test_witness_IlvRunInterleavesThePlanes :
    0 < oneFrame.argNch.toNat ∧ oneFrame.argNch.toNat ≤ oneFrame.params.nchMax ∧
    oneFrame.argNframes.toNat ≤ oneFrame.params.framesMax ∧
    ∀ j i : Nat, j < oneFrame.argNch.toNat → i < oneFrame.argNframes.toNat →
      Memory.read oneFrame.plane (planeIndex j i) ≠ none := by
  refine ⟨by decide, by decide, by decide +kernel, fun j i hj hi => ?_⟩
  have hi : i = 0 := Nat.lt_one_iff.mp hi
  have hj : j = 0 ∨ j = 1 := by
    have : j < 2 := hj
    omega
  rcases hj with rfl | rfl <;> subst hi <;> decide

/-- ILV-4, ILV-5, ILV-6, ILV-3, and a run that completes. -/
theorem test_witness_IlvRunChecksInOrder :
    ({ start with argNch := 0#32 } : State).argNch.toNat = 0 ∧ start.params.nchMax < 3 ∧
    start.params.framesMax < 16001 ∧ start.argNframes.toNat = 0 ∧ 0 < start.argNch.toNat ∧
    start.argNch.toNat ≤ start.params.nchMax ∧ oneFrame.argNframes.toNat ≤ oneFrame.params.framesMax ∧
    answers (exec .ilvRun oneFrame) (fun _ => true) = true := by
  decide +kernel

/-- WAV-E1 to WAV-E8: a value on the failing side of each check; `wavInput` is on the passing side of all. -/
theorem test_witness_WavEncChecksInOrder :
    (¬ 0 < (0#32).toNat) ∧ (¬ (32768#32).toNat ≤ 32767) ∧ (¬ 65539 * 32767 * 2 ≤ 2 ^ 32 - 1) ∧ (3 % 2 ≠ 0) ∧
    (start.params.ilvMax < 32001) ∧
    (let s := wavInput;
      0 < s.argNch.toNat ∧ 0 < s.argRate.toNat ∧ s.argNch.toNat ≤ 32767 ∧
      s.argRate.toNat * s.argNch.toNat * 2 ≤ 2 ^ 32 - 1 ∧ s.ilvLen.toNat % s.argNch.toNat = 0 ∧
      s.ilvLen.toNat ≤ s.params.ilvMax) ∧
    (1 < wavInput.ilvLen.toNat ∧ Memory.read [(0, oneF)] 1 = none) ∧
    (Memory.read [(0, oneF), (1, 0x7FF8000000000000#64)] 1 = some 0x7FF8000000000000#64 ∧
      isNan 0x7FF8000000000000#64 = true) ∧
    start.ilvLen.toNat = 0 := by
  decide +kernel

theorem test_witness_WavEncWritesTheStream :
    0 < wavInput.argNch.toNat ∧ 0 < wavInput.argRate.toNat ∧ wavInput.argNch.toNat ≤ 32767 ∧
    wavInput.argRate.toNat * wavInput.argNch.toNat * 2 ≤ 2 ^ 32 - 1 ∧ wavInput.ilvLen.toNat % wavInput.argNch.toNat = 0 ∧
    wavInput.ilvLen.toNat ≤ wavInput.params.ilvMax ∧
    ∀ k : Nat, k < wavInput.ilvLen.toNat → ∃ v, Memory.read wavInput.ilv k = some v ∧ isNan v = false := by
  refine ⟨by decide, by decide, by decide, by decide, by decide, by decide +kernel, fun k hk => ?_⟩
  have hk : k = 0 ∨ k = 1 := by
    have : k < 2 := hk
    omega
  rcases hk with rfl | rfl
  · exact ⟨0x3FF0000000000000#64, by decide, by decide⟩
  · exact ⟨0xBFF0000000000000#64, by decide, by decide⟩

theorem test_witness_HeaderSizesMatchTheStreamLength :
    ∃ t, exec .wavEnc wavInput = .next t ∧ t.err = .ok ∧ 44 + 2 * wavInput.ilvLen.toNat < 2 ^ 32 := by
  have h : answers (exec .wavEnc wavInput) (fun t => decide (t.err = .ok)) = true := by decide +kernel
  exact (answers_next h).imp fun _ ht => ⟨ht.1, of_decide_eq_true ht.2, by decide⟩

theorem test_witness_RepeatedWavEncWritesTheSameBytes : ∃ t, exec .wavEnc wavInput = .next t ∧ t.err = .ok :=
  test_witness_HeaderSizesMatchTheStreamLength.imp fun _ ht => ⟨ht.1, ht.2.1⟩

/-- Just above 1.0, just below -1.0, and 1.0 itself. -/
theorem test_witness_ClampBringsSamplesIntoRange :
    isNan 0x3FF0000000000001#64 = false ∧ fgt 0x3FF0000000000001#64 0x3FF0000000000000#64 = true ∧
    flt 0xBFF0000000000001#64 0xBFF0000000000000#64 = true ∧ fgt 0x3FF0000000000000#64 0x3FF0000000000000#64 = false ∧
    flt 0x3FF0000000000000#64 0xBFF0000000000000#64 = false := by
  decide

/-- 0.5/32767 is not NaN and its t is a tie. -/
theorem test_witness_QuantizeRoundsToNearestByTieMode :
    isNan 0x3EF0002000400080#64 = false ∧
    2 * (quantize params 0x3EF0002000400080#64 * 2 ^ 1074 -
      units (fmul (clamp 0x3EF0002000400080#64) 0x40DFFFC000000000#64)).natAbs = 2 ^ 1074 := by
  decide +kernel

theorem test_witness_QuantizationErrorIsBounded :
    isNan oneF = false ∧ isFinite oneF = true ∧ -(2 : Int) ^ 1074 ≤ units oneF ∧ units oneF ≤ 2 ^ 1074 := by
  decide +kernel

theorem test_witness_ErrorsChangeOnlyStatusErr : ∃ t, exec (.bqProc 2) start = .next t ∧ t.err ≠ .ok := by
  have h : answers (exec (.bqProc 2) start) (fun t => decide (t.err ≠ .ok)) = true := by decide +kernel
  exact (answers_next h).imp fun _ ht => ⟨ht.1, of_decide_eq_true ht.2⟩

theorem test_witness_ErrIsRewrittenByEveryCommand :
    (∃ t, exec .bqRst { ready with err := .capacity } = .next t) ∧
    (isCommandWrite (.regRead32 0x00) = false ∧ ∃ t, hostAccess (.regRead32 0x00) ready = .next t) :=
  ⟨⟨_, rfl⟩, rfl, ⟨_, rfl⟩⟩

/-- Each command completes: BQ_CFG, BQ_RST, BQ_PROC, ILV_RUN, WAV_ENC. -/
theorem test_witness_EachCommandRaisesOnlyItsCodes :
    answers (exec .bqCfg start) (fun _ => true) = true ∧ answers (exec .bqRst start) (fun _ => true) = true ∧
    answers (exec (.bqProc 1) ready) (fun _ => true) = true ∧ answers (exec .ilvRun oneFrame) (fun _ => true) = true ∧
    answers (exec .wavEnc wavInput) (fun _ => true) = true := by
  decide +kernel

theorem test_witness_CommandsKeepTheArguments :
    answers (exec .bqCfg start) (fun _ => true) = true ∧ answers (exec .wavEnc wavInput) (fun _ => true) = true := by
  decide +kernel

/-- ILV_RUN and WAV_ENC complete with cells beyond those they write; a host write that is no CMD write completes. -/
theorem test_witness_EachPieceOfStateHasItsWriters :
    answers (exec .ilvRun oneFrame) (fun _ => true) = true ∧ oneFrame.argNframes.toNat * oneFrame.argNch.toNat ≤ 2 ∧
    answers (exec .wavEnc wavInput) (fun _ => true) = true ∧ 44 + 2 * wavInput.ilvLen.toNat ≤ 48 ∧
    isCommandWrite (.regWrite32 0x30 1#32) = false ∧
    answers (hostAccess (.regWrite32 0x30 1#32) start) (fun _ => true) = true := by
  decide +kernel

theorem test_witness_ConfiguredIsClearedOnlyByPowerOn :
    answers (exec .bqCfg start) (fun _ => true) = true ∧ Instr.bqRst ≠ .bqCfg ∧
    answers (exec .bqRst ready) (fun _ => true) = true ∧
    (let s := { ready with pending := [.access (.regWrite32 0x00 0x00000001#32), .powerOn] };
      answers (step s) (fun _ => true) = true ∧ s.pending.head? ≠ some .powerOn ∧ s.configured = true) := by
  decide +kernel

theorem test_witness_DelayLinesAreHiddenFromTheHost :
    isCommandWrite (.regRead64 0x28) = false ∧
    answers (hostAccess (.regRead64 0x28) ready) (fun _ => true) = true ∧
    answers (exec (.bqProc 1) ready) (fun _ => true) = true ∧ (∀ ch, Instr.bqRst ≠ .bqProc ch) ∧
    answers (exec .bqRst ready) (fun _ => true) = true :=
  ⟨rfl, by decide +kernel, by decide +kernel, (fun _ h => by cases h), by decide +kernel⟩

theorem test_witness_CommandsFaultOnlyOnUnwrittenCells :
    faultsWith (exec .ilvRun { oneFrame with plane := [] }) .uninitRead = true := by decide +kernel

theorem test_witness_PowerOnResetSetsEveryValue :
    let s := { busyFor 3 with pending := [.powerOn, .poll] }
    s.pending = .powerOn :: [.poll] ∧ start.pending = [] := by
  decide

theorem test_witness_ResetLeavesTheFilterUnconfigured : 1 < params.nchMax := by decide

/-- A state with values in every memory meets the invariant, and a step from it completes. -/
theorem test_witness_StepKeepsTheInvariant :
    let s := { ready with plane := [(0, oneF), (256 * 15999 + 1, oneF)], ilv := [(31999, oneF)], out := [(64043, 1#8)],
                          pending := [.access (.regWrite32 0x00 0x00000103#32)] }
    Inv s ∧ ∃ t, step s = .next t :=
  ⟨⟨⟨by decide, by decide, by decide, by decide +kernel, by decide +kernel, by decide +kernel⟩,
    ⟨by decide, by decide +kernel, by decide, by decide, by decide⟩⟩, ⟨_, rfl⟩⟩

/-- A one-byte stream that is held, in an implementation whose longest stream fits OUT_LEN. -/
theorem test_witness_StepKeepsTheStreamHeld :
    let s := { start with outLen := 1#32, out := [(0, 0x52#8)] }
    s.params.outMax < 2 ^ 32 ∧ StreamHeld s ∧ ∃ t, step s = .next t := by
  refine ⟨by decide +kernel, fun b hb => ?_, ⟨_, rfl⟩⟩
  have hb : b = 0 := Nat.lt_one_iff.mp hb
  subst hb
  decide

/-- A step, and the extreme sizes that R5 allows. -/
theorem test_witness_ParametersAreConstantAndLegal :
    answers (step start) (fun _ => true) = true ∧
    (1 ≤ 256 ∧ 256 ≤ 256 ∧ 1 ≤ 8388607 ∧ 256 * 8388607 ≤ 2147483629) ∧ 1 * 2147483629 ≤ 2147483629 := by
  decide +kernel

/-- The last channel, with its word written out, and program P4's `PROC 0, x` written out by its line 6. -/
theorem test_witness_PseudoInstructionsWriteTheirCommandWord :
    (255 ≤ 255) ∧ pseudoBqProc 255 = wr32 0x00 0x0000FF03#32 ∧
    pseudoProc 0 oneF = [.access (.regWrite64 0x20 0x3FF0000000000000#64), .access (.regWrite32 0x00 0x00000003#32), .poll,
      .access (.regRead64 0x28)] := by
  decide

/-- Operands for each clause: NaN; opposite and equal signs with a zero and a non-zero sum; an infinity with a finite
value; two infinities of equal and of opposite signs. -/
theorem test_witness_SumsAtZerosAndInfinities :
    isNan 0x7FF0000000000001#64 = true ∧ isFinite oneF = true ∧ isFinite 0x8000000000000001#64 = true ∧
    units oneF + units (fneg oneF) = 0 ∧ units 0x8000000000000000#64 + units 0x8000000000000000#64 = 0 ∧
    units oneF + units 0x8000000000000001#64 ≠ 0 ∧ units oneF - units oneF = 0 ∧
    units oneF - units 0x8000000000000001#64 ≠ 0 ∧ isInf 0x7FF0000000000000#64 = true ∧
    isInf 0xFFF0000000000000#64 = true ∧ signBit 0x7FF0000000000000#64 ≠ signBit 0xFFF0000000000000#64 := by
  decide +kernel

/-- Results that are not NaN, for each clause: -0.0 × 1.0, -∞ × 1.0, -0.0 / 1.0, 1.0 / -∞, -∞ / 1.0, 1.0 / -0.0. -/
theorem test_witness_ProductsAndQuotientsAtZerosAndInfinities :
    [fmul 0x8000000000000000#64 oneF, fmul 0xFFF0000000000000#64 oneF, fdiv 0x8000000000000000#64 oneF,
      fdiv oneF 0xFFF0000000000000#64, fdiv 0xFFF0000000000000#64 oneF, fdiv oneF 0x8000000000000000#64] =
    [0x8000000000000000#64, 0xFFF0000000000000#64, 0x8000000000000000#64, 0x8000000000000000#64, 0xFFF0000000000000#64,
      0xFFF0000000000000#64] := by
  decide +kernel

/-- PROC-6 and PROC-7: the default coefficients, a clear channel, and -0.0 or +∞. -/
theorem test_witness_SignedZeroAndInfiniteInputs :
    1 < ready.params.nchMax ∧ ready.configured = true ∧ ready.delay[1]? = some ⟨0x0#64, 0x0#64, 0x0#64, 0x0#64⟩ ∧
    coeffsFinite ready.coef = true ∧ ready.coef.c1 = 0x0#64 ∧ fgt ready.coef.c0 0x0#64 = true ∧
    isZero ({ ready with argX := 0x8000000000000000#64 } : State).argX = true ∧
    isInf ({ ready with argX := 0x7FF0000000000000#64 } : State).argX = true := by
  decide +kernel

end Sys2Proof.Tests
end

section
/-! PROOFS. 00_scope.md R8: every finite result is rounded once and correctly, the comparisons follow the exact values,
and NaN, zeros and infinities come out as IEEE 754 says. -/

namespace Sys2Proof.Machine

/-! ### Signed counts of units -/

/-- The whole number of absolute value `n` with the given sign: what `units` and `orderKey` make of a pattern. -/
def applySign (neg : Bool) (n : Nat) : Int := if neg then -(n : Int) else n

theorem units_eq_applySign (x : F64) : units x = applySign (signBit x) (unitsMag x) := rfl

theorem orderKey_eq_applySign (x : F64) : orderKey x = applySign (signBit x) (magnitude x) := rfl

@[simp] theorem applySign_true (n : Nat) : applySign true n = -n := rfl

@[simp] theorem applySign_false (n : Nat) : applySign false n = n := rfl

@[simp] theorem natAbs_applySign (neg : Bool) (n : Nat) : (applySign neg n).natAbs = n := by
  cases neg <;> simp

theorem applySign_natAbs (t : Int) : applySign (decide (t < 0)) t.natAbs = t := by
  rcases Int.lt_or_le t 0 with h | h
  · rw [decide_eq_true h, applySign_true]; omega
  · rw [decide_eq_false (by omega), applySign_false]; omega

@[simp] theorem applySign_zero (neg : Bool) : applySign neg 0 = 0 := by
  cases neg <;> rfl

theorem decide_applySign_neg {neg : Bool} {n : Nat} (hn : 0 < n) : decide (applySign neg n < 0) = neg := by
  cases neg
  · exact decide_eq_false (Int.natCast_nonneg n).not_gt
  · exact decide_eq_true (Int.neg_neg_of_pos (by omega))

theorem applySign_mul (p q : Bool) (m n : Nat) : applySign p m * applySign q n = applySign (p != q) (m * n) := by
  cases p <;> cases q <;> simp

theorem applySign_mul_natCast (p : Bool) (m n : Nat) : applySign p m * n = applySign p (m * n) := by
  simpa using applySign_mul p false m n

theorem applySign_mul_sign (p q : Bool) {m n : Nat} (hn : 0 < n) :
    applySign p m * (applySign q n).sign = applySign (p != q) m := by
  have h : (n : Int).sign = 1 := Int.sign_eq_one_of_pos (by omega)
  cases p <;> cases q <;> simp [h]

theorem natAbs_units (x : F64) : (units x).natAbs = unitsMag x := natAbs_applySign _ _

/-! ### Correct rounding -/

theorem units_roundUnits (neg : Bool) (num den : Nat) :
    units (roundUnits neg num den) = applySign neg (unitsMag (roundUnits neg num den)) := by
  rw [units_eq_applySign, signBit_roundUnits]

/-- `roundUnits_nearest` for either sign: the values on the other side of zero are compared through `fneg`. -/
theorem roundUnits_nearestEven (neg : Bool) {num den : Nat} (hd : 0 < den) (h : num < overflowUnits * den) :
    NearestEven (roundUnits neg num den) (applySign neg num) den := by
  intro c _
  rw [units_roundUnits]
  cases neg
  · exact roundUnits_nearest false num den hd h c
  · obtain ⟨hle, htie⟩ := roundUnits_nearest true num den hd h (fneg c)
    rw [units_fneg] at hle htie
    generalize unitsMag (roundUnits true num den) = u at *
    have hflip : ∀ t : Int, (-t * den - applySign true num).natAbs = (t * den - num).natAbs := by
      intro t
      rw [applySign_true, Int.neg_mul, ← Int.natAbs_neg]
      congr 1; ring
    have hc := hflip (-units c)
    rw [Int.neg_neg] at hc
    rw [applySign_true, hflip, hc]
    exact ⟨hle, fun he => (htie he).imp_left (by omega)⟩

/-- `CorrectlyRounded` as its two cases. Elaboration must not evaluate `overflowUnits`, so the proofs below meet the
predicate through this lemma, or `with_reducible`. -/
theorem correctlyRounded_iff (r : F64) (num : Int) (den : Nat) :
    CorrectlyRounded r num den ↔
      (num.natAbs < overflowUnits * den → isFinite r = true ∧ NearestEven r num den) ∧
      (overflowUnits * den ≤ num.natAbs → isInf r = true ∧ signBit r = decide (num < 0)) := by
  rw [CorrectlyRounded, ite_prop_iff_and, Nat.not_lt]

theorem overflowUnits_pos : 0 < overflowUnits := by
  rw [overflowUnits]; positivity

/-- One rounding of `num / den` units is correct, below the overflow bound and from it on (00_scope.md R8). -/
theorem roundUnits_correctlyRounded (neg : Bool) (num : Nat) {den : Nat} (hd : 0 < den) :
    CorrectlyRounded (roundUnits neg num den) (applySign neg num) den := by
  rw [correctlyRounded_iff, natAbs_applySign]
  constructor
  · intro h
    obtain ⟨_, _, _, _, hfin, _⟩ := roundUnits_finite_spec neg num den hd h
    exact ⟨hfin, roundUnits_nearestEven neg hd h⟩
  · intro h
    have hnum : 0 < num := Nat.lt_of_lt_of_le (Nat.mul_pos overflowUnits_pos hd) h
    rw [roundUnits_overflow neg num den hd h, decide_applySign_neg hnum]
    exact ⟨isInf_pack_inf neg, signBit_pack_inf neg⟩

/-- A finite sum is one rounding of the exact one; an exact zero sum is the rounding of 0 with the sign of a zero sum. -/
theorem addWith_finite_eq_roundUnits (nan : F64) {a b : F64} (ha : isFinite a = true) (hb : isFinite b = true) :
    ∃ neg num, addWith nan a b = roundUnits neg num 1 ∧ units a + units b = applySign neg num := by
  rw [addWith_finite ha hb]
  by_cases h : units a + units b = 0
  · refine ⟨signBit a && signBit b, 0, ?_, ?_⟩
    · rw [if_pos h, roundUnits_zero]
    · rw [h, applySign_zero]
  · exact ⟨_, _, if_neg h, (applySign_natAbs _).symm⟩

theorem addWith_correctlyRounded (nan : F64) {a b : F64} (ha : isFinite a = true) (hb : isFinite b = true) :
    CorrectlyRounded (addWith nan a b) (units a + units b) 1 := by
  with_reducible obtain ⟨neg, num, hr, hn⟩ := addWith_finite_eq_roundUnits nan ha hb
  rw [hr, hn]
  with_reducible exact roundUnits_correctlyRounded neg num Nat.one_pos

/-- Settles O18: a sum is rounded once, and a difference is the sum with the negated operand. -/
theorem sumAndDifferenceCorrectlyRounded : Obligations.SumAndDifferenceCorrectlyRounded := by
  unfold Obligations.SumAndDifferenceCorrectlyRounded
  intro a b ha hb
  constructor
  · rw [fadd]
    with_reducible exact addWith_correctlyRounded _ ha hb
  · rw [fsub, Int.sub_eq_add_neg, ← units_fneg]
    with_reducible exact addWith_correctlyRounded _ ha ((isFinite_fneg b).trans hb)

theorem fmul_finite {a b : F64} (ha : isFinite a = true) (hb : isFinite b = true) :
    fmul a b = roundUnits (signBit a != signBit b) (unitsMag a * unitsMag b) (2 ^ 1074) := by
  simp only [fmul, isFinite_not_nan ha, isFinite_not_nan hb, isFinite_not_inf ha, isFinite_not_inf hb, Bool.or_self,
    Bool.false_eq_true, if_false]

/-- Settles O19: the exact product of the units has the exclusive or of the signs and is rounded once. -/
theorem productCorrectlyRounded : Obligations.ProductCorrectlyRounded := by
  unfold Obligations.ProductCorrectlyRounded
  intro a b ha hb
  rw [fmul_finite ha hb, units_eq_applySign, units_eq_applySign, applySign_mul]
  with_reducible exact roundUnits_correctlyRounded _ _ (by positivity)

theorem fdiv_finite {a b : F64} (ha : isFinite a = true) (hb : isFinite b = true) (hz : isZero b = false) :
    fdiv a b = roundUnits (signBit a != signBit b) (unitsMag a * 2 ^ 1074) (unitsMag b) := by
  simp only [fdiv, isFinite_not_nan ha, isFinite_not_nan hb, isFinite_not_inf ha, isFinite_not_inf hb, hz,
    Bool.or_self, Bool.false_eq_true, if_false]

/-- Settles O20: the sign of the divisor moves to the numerator, and the exact quotient is rounded once. -/
theorem quotientCorrectlyRounded : Obligations.QuotientCorrectlyRounded := by
  unfold Obligations.QuotientCorrectlyRounded
  intro a b ha hb hne
  have hpos : 0 < unitsMag b := by rw [← natAbs_units]; exact Int.natAbs_pos.2 hne
  have hz : isZero b = false := by
    rw [Bool.eq_false_iff]
    exact fun h => hpos.ne' (unitsMag_of_isZero h)
  have hnum : units a * 2 ^ 1074 * (units b).sign = applySign (signBit a != signBit b) (unitsMag a * 2 ^ 1074) := by
    rw [Int.mul_right_comm, units_eq_applySign, units_eq_applySign, applySign_mul_sign _ _ hpos, ← applySign_mul_natCast,
      Nat.cast_pow, Nat.cast_ofNat]
  rw [fdiv_finite ha hb hz, hnum, natAbs_units]
  with_reducible exact roundUnits_correctlyRounded _ _ hpos

/-! ### Comparisons -/

/-- The magnitude field orders the absolute values: it is the exponent step, then the significand. -/
theorem unitsMag_lt_of_magnitude_lt {a b : F64} (h : magnitude a < magnitude b) : unitsMag a < unitsMag b := by
  obtain ⟨k, m, ha, hm, hk, hua⟩ := exists_significand a
  obtain ⟨l, n, hb, hn, hl, hub⟩ := exists_significand b
  rw [hua, hub]
  rcases Nat.lt_or_ge k l with hkl | hkl
  · have hn52 : 2 ^ 52 ≤ n := by omega
    calc m * 2 ^ k < 2 ^ 53 * 2 ^ k := Nat.mul_lt_mul_of_pos_right hm (Nat.two_pow_pos k)
      _ = 2 ^ 52 * 2 ^ (k + 1) := by rw [Nat.pow_succ 2 k]; ring
      _ ≤ n * 2 ^ l := Nat.mul_le_mul hn52 (Nat.pow_le_pow_right Nat.two_pos hkl)
  · obtain rfl : k = l := by omega
    exact Nat.mul_lt_mul_of_pos_right (by omega) (Nat.two_pow_pos k)

theorem unitsMag_congr {a b : F64} (h : magnitude a = magnitude b) : unitsMag a = unitsMag b := by
  simp only [unitsMag, h]

theorem unitsMag_lt_iff (a b : F64) : unitsMag a < unitsMag b ↔ magnitude a < magnitude b := by
  refine ⟨fun h => ?_, unitsMag_lt_of_magnitude_lt⟩
  rcases Nat.lt_trichotomy (magnitude a) (magnitude b) with hlt | heq | hgt
  · exact hlt
  · exact absurd h (unitsMag_congr heq).not_lt
  · exact absurd h (unitsMag_lt_of_magnitude_lt hgt).not_gt

theorem unitsMag_pos_iff (a : F64) : 0 < unitsMag a ↔ 0 < magnitude a := by
  have h0 : unitsMag 0#64 = 0 := rfl
  have h1 : magnitude 0#64 = 0 := rfl
  rw [← h0, ← h1]
  exact unitsMag_lt_iff 0#64 a

/-- The exact values are ordered as the keys that `flt` compares. -/
theorem units_lt_iff (a b : F64) : units a < units b ↔ orderKey a < orderKey b := by
  have hab := unitsMag_lt_iff a b
  have hba := unitsMag_lt_iff b a
  have ha := unitsMag_pos_iff a
  have hb := unitsMag_pos_iff b
  rw [units_eq_applySign, units_eq_applySign, orderKey_eq_applySign, orderKey_eq_applySign]
  cases signBit a <;> cases signBit b <;> simp only [applySign_true, applySign_false] <;> omega

theorem flt_iff {a b : F64} (ha : isNan a = false) (hb : isNan b = false) :
    flt a b = true ↔ orderKey a < orderKey b := by
  simp [flt, ha, hb]

theorem flt_nan {a b : F64} (h : isNan a = true ∨ isNan b = true) : flt a b = false := by
  rcases h with h | h <;> simp [flt, h]

/-- The key of a finite value lies strictly between those of the infinities. -/
theorem orderKey_finite {a : F64} (h : isFinite a = true) :
    -(infMagnitude : Int) < orderKey a ∧ orderKey a < infMagnitude := by
  simp only [isFinite, decide_eq_true_eq] at h
  rw [orderKey_eq_applySign]
  cases signBit a <;> simp only [applySign_true, applySign_false] <;> omega

theorem orderKey_posInf : orderKey 0x7FF0000000000000#64 = infMagnitude := by decide

theorem orderKey_negInf : orderKey 0xFFF0000000000000#64 = -infMagnitude := by decide

/-- Settles O21: the keys that `flt` compares are ordered as the exact values. -/
theorem comparisonsOrderValues : Obligations.ComparisonsOrderValues := by
  unfold Obligations.ComparisonsOrderValues
  refine ⟨fun a b ha hb => ?_, fun _ _ => rfl, fun a b h => ⟨flt_nan h, flt_nan h.symm⟩, fun a ha => ?_,
    fun a => ⟨magnitude_fneg a, signBit_fneg a, units_fneg a⟩⟩
  · rw [flt_iff (isFinite_not_nan ha) (isFinite_not_nan hb), units_lt_iff]
  · obtain ⟨hlo, hhi⟩ := orderKey_finite ha
    have hn := isFinite_not_nan ha
    exact ⟨(flt_iff hn (by decide)).2 (by rwa [orderKey_posInf]), (flt_iff (by decide) hn).2 (by rwa [orderKey_negInf])⟩

/-! ### Sums at zeros, infinities and NaN -/

/-- A finite sum that is not zero has the sign of the exact one. -/
theorem signBit_addWith_finite (nan : F64) {a b : F64} (ha : isFinite a = true) (hb : isFinite b = true)
    (h : units a + units b ≠ 0) : signBit (addWith nan a b) = decide (units a + units b < 0) := by
  rw [addWith_finite ha hb, if_neg h, signBit_roundUnits]

/-- A finite sum that is zero is -0.0 only where both terms are negative. -/
theorem addWith_finite_zero (nan : F64) {a b : F64} (ha : isFinite a = true) (hb : isFinite b = true)
    (h : units a + units b = 0) :
    addWith nan a b = if signBit a && signBit b then 0x8000000000000000#64 else 0x0000000000000000#64 := by
  rw [addWith_finite ha hb, if_pos h, pack_zero]

theorem addWith_inf_finite (nan : F64) {a b : F64} (ha : isInf a = true) (hb : isFinite b = true) :
    addWith nan a b = a :=
  addWith_inf ha (isFinite_not_nan hb) (by simp [isFinite_not_inf hb])

theorem addWith_inf_same_sign (nan : F64) {a b : F64} (ha : isInf a = true) (hb : isInf b = true)
    (h : signBit a = signBit b) : addWith nan a b = a :=
  addWith_inf ha (isInf_not_nan hb) fun _ => h

/-- Settles O58: the cases of `addWith`, for `fsub` with the second operand negated. -/
theorem sumsAtZerosAndInfinities : Obligations.SumsAtZerosAndInfinities := by
  unfold Obligations.SumsAtZerosAndInfinities
  refine ⟨fun a b h => ⟨isNan_fadd h, isNan_fsub h⟩, fun a b ha hb => ?_, fun a b ha hb => ?_, fun a b ha hb => ?_⟩
  · have hb' : isFinite (fneg b) = true := (isFinite_fneg b).trans hb
    have hsub : units a + units (fneg b) = units a - units b := by rw [units_fneg, Int.sub_eq_add_neg]
    refine ⟨addWith_finite_zero _ ha hb, signBit_addWith_finite _ ha hb, fun h => ?_, fun h => ?_⟩
    · rw [fsub, addWith_finite_zero _ ha hb' (hsub.trans h), signBit_fneg]
    · rw [fsub, signBit_addWith_finite _ ha hb' (hsub ▸ h), hsub]
  · exact ⟨addWith_inf_finite _ ha hb, addWith_finite_inf hb ha,
      addWith_inf_finite _ ha ((isFinite_fneg b).trans hb), addWith_finite_inf hb ((isInf_fneg a).trans ha)⟩
  · have hb' : isInf (fneg b) = true := (isInf_fneg b).trans hb
    refine ⟨fun h => ⟨addWith_inf_same_sign _ ha hb h, ?_⟩, fun h => ⟨?_, addWith_inf_same_sign _ ha hb' ?_⟩⟩
    · rw [fsub, addWith_opposite_inf ha hb' (by simp [h]), isNan_nanOf]
    · rw [fadd, addWith_opposite_inf ha hb h, isNan_nanOf]
    · rw [signBit_fneg, Bool.eq_not]; exact h

/-! ### Products and quotients at zeros, infinities and NaN -/

theorem isFinite_of_not {x : F64} (hn : isNan x = false) (hi : isInf x = false) : isFinite x = true := by
  simpa [hn, hi] using isNan_or_isInf_or_isFinite x

/-- The operands for which a product is NaN. -/
def MulInvalid (a b : F64) : Prop :=
  isNan a = true ∨ isNan b = true ∨ (isInf a = true ∧ isZero b = true) ∨ (isZero a = true ∧ isInf b = true)

/-- The operands for which a quotient is NaN. -/
def DivInvalid (a b : F64) : Prop :=
  isNan a = true ∨ isNan b = true ∨ (isInf a = true ∧ isInf b = true) ∨ (isZero a = true ∧ isZero b = true)

theorem not_mulInvalid_iff (a b : F64) : ¬ MulInvalid a b ↔
    isNan a = false ∧ isNan b = false ∧ (isInf a = true → isZero b = false) ∧ (isZero a = true → isInf b = false) := by
  simp [MulInvalid]

theorem not_divInvalid_iff (a b : F64) : ¬ DivInvalid a b ↔
    isNan a = false ∧ isNan b = false ∧ (isInf a = true → isInf b = false) ∧ (isZero a = true → isZero b = false) := by
  simp [DivInvalid]

theorem fmul_invalid {a b : F64} (h : MulInvalid a b) : isNan (fmul a b) = true := by
  rcases h with ha | hb | ⟨ha, hb⟩ | ⟨ha, hb⟩
  · exact isNan_fmul (.inl ha)
  · exact isNan_fmul (.inr hb)
  · simp [fmul, ha, hb, isNan_nanOf]
  · simp [fmul, ha, hb, isNan_nanOf]

theorem fmul_inf {a b : F64} (h : ¬ MulInvalid a b) (hi : isInf a = true ∨ isInf b = true) :
    fmul a b = pack (signBit a != signBit b) infMagnitude := by
  obtain ⟨ha, hb, hab, hba⟩ := (not_mulInvalid_iff a b).1 h
  rcases hi with hi | hi
  · simp [fmul, ha, hb, hi, isInf_not_zero hi, hab hi]
  · have hz : isZero a = false := Bool.eq_false_iff.2 fun hz => by simp [hba hz] at hi
    simp [fmul, ha, hb, hi, hz, isInf_not_zero hi]

theorem fmul_zero {a b : F64} (h : ¬ MulInvalid a b) (hz : isZero a = true ∨ isZero b = true) :
    fmul a b = pack (signBit a != signBit b) 0 := by
  obtain ⟨ha, hb, hab, hba⟩ := (not_mulInvalid_iff a b).1 h
  rcases hz with hz | hz
  · rw [fmul_finite (isZero_finite hz) (isFinite_of_not hb (hba hz)), unitsMag_of_isZero hz, Nat.zero_mul,
      roundUnits_zero]
  · have hi : isInf a = false := Bool.eq_false_iff.2 fun hi => by simp [hab hi] at hz
    exact fmul_isZero (isFinite_of_not ha hi) hz

/-- A product that is not invalid is not NaN and has the exclusive or of the signs. -/
theorem fmul_valid {a b : F64} (h : ¬ MulInvalid a b) :
    isNan (fmul a b) = false ∧ signBit (fmul a b) = (signBit a != signBit b) := by
  by_cases hi : isInf a = true ∨ isInf b = true
  · rw [fmul_inf h hi]
    exact ⟨isNan_pack_inf _, signBit_pack_inf _⟩
  · obtain ⟨ha, hb, -, -⟩ := (not_mulInvalid_iff a b).1 h
    simp only [not_or, Bool.not_eq_true] at hi
    rw [fmul_finite (isFinite_of_not ha hi.1) (isFinite_of_not hb hi.2)]
    exact ⟨isNan_roundUnits _ _ _, signBit_roundUnits _ _ _⟩

theorem isNan_fmul_iff (a b : F64) : isNan (fmul a b) = true ↔ MulInvalid a b :=
  ⟨fun hn => by_contra fun h => by simp [fmul_valid h] at hn, fmul_invalid⟩

theorem fdiv_invalid {a b : F64} (h : DivInvalid a b) : isNan (fdiv a b) = true := by
  rcases h with ha | hb | ⟨ha, hb⟩ | ⟨ha, hb⟩
  · exact isNan_fdiv (.inl ha)
  · exact isNan_fdiv (.inr hb)
  · simp [fdiv, ha, hb, isNan_nanOf]
  · simp [fdiv, ha, hb, isFinite_not_inf (isZero_finite ha), isFinite_not_inf (isZero_finite hb), isNan_nanOf]

theorem fdiv_inf {a b : F64} (h : ¬ DivInvalid a b) (hi : isInf a = true ∨ isZero b = true) :
    fdiv a b = pack (signBit a != signBit b) infMagnitude := by
  obtain ⟨ha, hb, hab, hba⟩ := (not_divInvalid_iff a b).1 h
  rcases hi with hi | hz
  · simp [fdiv, ha, hb, hi, hab hi]
  · have hza : isZero a = false := Bool.eq_false_iff.2 fun h => by simp [hba h] at hz
    simp [fdiv, ha, hb, hz, hza, isFinite_not_inf (isZero_finite hz)]

theorem fdiv_zero {a b : F64} (h : ¬ DivInvalid a b) (hz : isZero a = true ∨ isInf b = true) :
    fdiv a b = pack (signBit a != signBit b) 0 := by
  obtain ⟨ha, hb, hab, hba⟩ := (not_divInvalid_iff a b).1 h
  by_cases hib : isInf b = true
  · have hia : isInf a = false := Bool.eq_false_iff.2 fun h => by simp [hab h] at hib
    simp [fdiv, ha, hb, hia, hib]
  · have hza : isZero a = true := hz.resolve_right hib
    rw [fdiv_finite (isZero_finite hza) (isFinite_of_not hb (Bool.eq_false_iff.2 hib)) (hba hza),
      unitsMag_of_isZero hza, Nat.zero_mul, roundUnits_zero]

/-- A quotient that is not invalid is not NaN and has the exclusive or of the signs. -/
theorem fdiv_valid {a b : F64} (h : ¬ DivInvalid a b) :
    isNan (fdiv a b) = false ∧ signBit (fdiv a b) = (signBit a != signBit b) := by
  by_cases hi : isInf a = true ∨ isZero b = true
  · rw [fdiv_inf h hi]
    exact ⟨isNan_pack_inf _, signBit_pack_inf _⟩
  by_cases hz : isZero a = true ∨ isInf b = true
  · rw [fdiv_zero h hz]
    exact ⟨isNan_pack_zero _, signBit_pack_zero _⟩
  · obtain ⟨ha, hb, -, -⟩ := (not_divInvalid_iff a b).1 h
    simp only [not_or, Bool.not_eq_true] at hi hz
    rw [fdiv_finite (isFinite_of_not ha hi.1) (isFinite_of_not hb hz.2) hi.2]
    exact ⟨isNan_roundUnits _ _ _, signBit_roundUnits _ _ _⟩

theorem isNan_fdiv_iff (a b : F64) : isNan (fdiv a b) = true ↔ DivInvalid a b :=
  ⟨fun hn => by_contra fun h => by simp [fdiv_valid h] at hn, fdiv_invalid⟩

/-- Settles O59: away from the invalid operands a result is an infinity, a zero or one rounding, with the sign of all
three the exclusive or of the operands' signs. -/
theorem productsAndQuotientsAtZerosAndInfinities : Obligations.ProductsAndQuotientsAtZerosAndInfinities := by
  unfold Obligations.ProductsAndQuotientsAtZerosAndInfinities
  intro a b
  refine ⟨isNan_fmul_iff a b, isNan_fdiv_iff a b, fun hn => ?_, fun hn => ?_⟩
  · have hv : ¬ MulInvalid a b := fun h => by simp [fmul_invalid h] at hn
    refine ⟨(fmul_valid hv).2, fun h => ?_, fun h => ?_⟩
    · rw [fmul_inf hv h, isInf_pack_inf]
    · rw [fmul_zero hv h, isZero_pack_zero]
  · have hv : ¬ DivInvalid a b := fun h => by simp [fdiv_invalid h] at hn
    refine ⟨(fdiv_valid hv).2, fun h => ?_, fun h => ?_⟩
    · rw [fdiv_inf hv h, isInf_pack_inf]
    · rw [fdiv_zero hv h, isZero_pack_zero]

end Sys2Proof.Machine
end

section
/-! PROOFS. 00_scope.md R5: the parameters are constant, and their type holds exactly the legal sizes. -/

namespace Sys2Proof

open Machine

/-! ### No step changes the parameters -/

theorem commandWrite_params {w : Word} {s t : State} (h : commandWrite w s = .next t) : t.params = s.params := by
  rcases commandWrite_cases w s with ⟨i, -, he⟩ | ⟨e, -, he⟩
  · obtain ⟨-, -, hp, -⟩ := exec_keeps (he.symm.trans h)
    exact hp
  · obtain rfl := Host.Outcome.next.inj (he.symm.trans h)
    rfl

theorem accessEffect_params {a : HostAccess} {s t : State} (hc : isCommandWrite a = false)
    (h : accessEffect a s = .next t) : t.params = s.params := by
  rcases accessEffect_cases hc h with
    ⟨_, rfl⟩ | ⟨_, rfl⟩ | ⟨_, _, rfl⟩ | ⟨_, _, rfl⟩ | rfl | ⟨_, _, _, -, rfl⟩ | ⟨_, _, -, rfl⟩ <;> simp

theorem pollTurn_params (s : State) : (pollTurn s).params = s.params := by
  unfold pollTurn
  split <;> simp [slotRead]

theorem step_params {s t : State} (h : step s = .next t) : t.params = s.params := by
  rcases step_cases h with ⟨-, rfl⟩ | ⟨_, _, -, -, hw⟩ | ⟨_, _, -, hc, ha⟩ | ⟨_, -, rfl⟩ | ⟨_, -, rfl⟩
  · rfl
  · exact (commandWrite_params hw).trans rfl
  · exact (accessEffect_params hc (hostAccess_next_accessEffect ha)).trans rfl
  · exact pollTurn_params _
  · rfl

/-! ### The sizes of R5 -/

theorem Params.nchMax_pos (P : Params) : 0 < P.nchMax := Nat.succ_pos _

theorem Params.nchMax_le (P : Params) : P.nchMax ≤ 256 := P.nchCode.isLt

/-- FRAMES_MAX stays positive under its cut: the bound is far above 256 channels. -/
theorem Params.framesMax_pos (P : Params) : 0 < P.framesMax := by
  have hdiv : 0 < 2147483629 / P.nchMax := Nat.div_pos (P.nchMax_le.trans (by decide)) P.nchMax_pos
  exact Nat.lt_min.2 ⟨Nat.succ_pos _, hdiv⟩

theorem Params.ilvMax_le (P : Params) : P.ilvMax ≤ 2147483629 :=
  calc P.nchMax * P.framesMax ≤ P.nchMax * (2147483629 / P.nchMax) := Nat.mul_le_mul_left _ (Nat.min_le_right _ _)
    _ ≤ 2147483629 := Nat.mul_div_le _ _

/-- The value of the parameter type with `c` channels and `f` frames. -/
def Params.ofSizes (c f : Nat) : Params where
  nchCode := Fin.ofNat 256 (c - 1)
  framesCode := f - 1
  bpVariant := .peak0dB
  tieMode := .away
  trig := []

theorem Params.nchMax_ofSizes {c f : Nat} (hc : 1 ≤ c) (hc' : c ≤ 256) : (Params.ofSizes c f).nchMax = c := by
  simp only [Params.nchMax, Params.ofSizes, Fin.val_ofNat]
  omega

theorem Params.framesMax_ofSizes {c f : Nat} (hc : 1 ≤ c) (hc' : c ≤ 256) (hf : 1 ≤ f) (h : c * f ≤ 2147483629) :
    (Params.ofSizes c f).framesMax = f := by
  have hcut : f ≤ 2147483629 / c := (Nat.le_div_iff_mul_le hc).2 (by rwa [Nat.mul_comm])
  rw [Params.framesMax, nchMax_ofSizes hc hc', Params.ofSizes, Nat.sub_add_cancel hf, Nat.min_eq_left hcut]

/-- Settles O56: each kind of step keeps the parameters, and the codes of the sizes reach exactly R5's range. -/
theorem parametersAreConstantAndLegal : Obligations.ParametersAreConstantAndLegal := by
  unfold Obligations.ParametersAreConstantAndLegal
  refine ⟨fun _ _ h => step_params h, fun P => ?_, fun c f hc hc' hf h => ?_⟩
  · have hilv := P.ilvMax_le
    exact ⟨P.nchMax_pos, P.nchMax_le, P.framesMax_pos, rfl, rfl, by omega⟩
  · exact ⟨Params.ofSizes c f, Params.nchMax_ofSizes hc hc', Params.framesMax_ofSizes hc hc' hf h⟩

end Sys2Proof
end

section
/-! PROOFS. What each command and each host access leaves unchanged, and what neither looks at (10_state.md R27, R31,
R35, R36, R41). -/

namespace Sys2Proof.Machine

/-! ### The effect of a command -/

/-- Everything a completed command can have done (10_state.md R36): it failed and wrote STATUS.ERR only, or it succeeded
and wrote the state that its own rule names. -/
inductive CommandEffect (s : State) : Instr → State → Prop
  | fails (i : Instr) (e : ErrCode) (he : e ≠ .ok) : CommandEffect s i { s with err := e }
  | configures (n : Coeffs) : CommandEffect s .bqCfg { s with coef := n, configured := true, err := .ok }
  | clears :
      CommandEffect s .bqRst { s with delay := List.replicate s.params.nchMax DelayLine.zero, err := .ok }
  | processes (ch : Nat) (d : DelayLine) (y : F64) :
      CommandEffect s (.bqProc ch) { s with resY := y, delay := s.delay.set ch d, err := .ok }
  | interleaves (cells : List (Nat × F64)) (len : Word)
      (hcells : ∀ c ∈ cells, c.1 < s.argNframes.toNat * s.argNch.toNat) :
      CommandEffect s .ilvRun { s with ilv := Memory.writeAll s.ilv cells, ilvLen := len, err := .ok }
  | encodes (cells : List (Nat × Byte)) (len : Word) (hcells : ∀ c ∈ cells, c.1 < 44 + 2 * s.ilvLen.toNat) :
      CommandEffect s .wavEnc { s with out := Memory.writeAll s.out cells, outLen := len, err := .ok }

theorem ilvChecks_ne_ok {P : Params} {F Cn : Nat} {e : ErrCode} (h : ilvChecks P F Cn = some e) : e ≠ .ok := by
  rintro rfl
  unfold ilvChecks at h
  split_ifs at h <;> cases h

theorem wavChecks_ne_ok {P : Params} {N Cn Rate : Nat} {e : ErrCode} (h : wavChecks P N Cn Rate = some e) :
    e ≠ .ok := by
  rintro rfl
  unfold wavChecks at h
  split_ifs at h <;> cases h

/-- ILV_RUN writes below F × Cn (41_interleaver.md R140). -/
theorem interleaveCells_lt {plane : Memory F64} {F Cn : Nat} {cells : List (Nat × F64)}
    (h : interleaveCells plane F Cn = some cells) {c : Nat × F64} (hc : c ∈ cells) : c.1 < F * Cn := by
  have hmem := List.mem_map_of_mem (f := Prod.fst) hc
  rw [interleaveCells_fst h, List.mem_range'_1] at hmem
  omega

/-- WAV_ENC writes below 44 + 2N (42_wav_encoder.md R152, R156). -/
theorem streamCells_lt {P : Params} {S : List F64} {N Cn Rate : Nat} {c : Nat × Byte}
    (hc : c ∈ headerCells N Cn Rate ++ sampleCells P S) : c.1 < 44 + 2 * S.length := by
  have hmem := List.mem_map_of_mem (f := Prod.fst) hc
  rw [streamCells_fst, List.mem_range'_1] at hmem
  omega

/-- A command that completes has one of the listed effects. -/
theorem exec_effect {i : Instr} {s t : State} (h : exec i s = .next t) : CommandEffect s i t := by
  cases i with
  | bqCfg =>
    rcases execBqCfg_cases h with ⟨n, -, rfl⟩ | ⟨-, rfl⟩
    · exact .configures n
    · exact .fails _ _ (by decide)
  | bqRst =>
    obtain rfl := Host.Outcome.next.inj h
    exact .clears
  | bqProc ch =>
    rcases execBqProc_cases h with ⟨-, rfl⟩ | ⟨-, -, rfl⟩ | ⟨-, -, rfl⟩
    · exact .fails _ _ (by decide)
    · exact .fails _ _ (by decide)
    · exact .processes ch _ _
  | ilvRun =>
    rcases execIlvRun_cases s with ⟨e, hc, he⟩ | ⟨-, -, he⟩ | ⟨cells, -, hc, he⟩ <;> cases he.symm.trans h
    · exact .fails _ _ (ilvChecks_ne_ok hc)
    · exact .interleaves cells _ fun _ => interleaveCells_lt hc
  | wavEnc =>
    rcases execWavEnc_cases s with ⟨e, hc, he⟩ | ⟨-, -, he⟩ | ⟨S, -, -, -, he⟩ | ⟨S, -, hS, -, he⟩ <;>
      cases he.symm.trans h
    · exact .fails _ _ (wavChecks_ne_ok hc)
    · exact .fails _ _ (by decide)
    · obtain ⟨hlen, -⟩ := ilvSamples_some hS
      exact .encodes _ _ fun _ hc => hlen ▸ streamCells_lt hc

/-- Settles O45: no effect of a command reaches an argument register. -/
theorem commandsKeepTheArguments : Obligations.CommandsKeepTheArguments := by
  unfold Obligations.CommandsKeepTheArguments
  intro i s t h
  cases exec_effect h <;> exact ⟨rfl, rfl, rfl, rfl, rfl, rfl, rfl⟩

/-! ### The frame of a host access -/

/-- A host access that is no CMD write leaves everything that only commands write (10_state.md R36). -/
theorem hostAccess_keeps {a : HostAccess} {s t : State} (hc : isCommandWrite a = false)
    (h : hostAccess a s = .next t) :
    t.err = s.err ∧ t.configured = s.configured ∧ t.coef = s.coef ∧ t.delay = s.delay ∧ t.resY = s.resY ∧
      t.out = s.out ∧ t.outLen = s.outLen := by
  rcases accessEffect_cases hc (hostAccess_next_accessEffect h) with
    ⟨_, rfl⟩ | ⟨_, rfl⟩ | ⟨_, _, rfl⟩ | ⟨_, _, rfl⟩ | rfl | ⟨_, _, _, -, rfl⟩ | ⟨_, _, -, rfl⟩ <;> simp

/-- Settles O46: the frame of each effect of a command, and `hostAccess_keeps`. -/
theorem eachPieceOfStateHasItsWriters : Obligations.EachPieceOfStateHasItsWriters := by
  unfold Obligations.EachPieceOfStateHasItsWriters
  refine ⟨fun i s t h => ?_, fun _ _ _ => hostAccess_keeps⟩
  cases exec_effect h with
  | fails _ e he => simp
  | configures n => simp
  | clears => simp
  | processes ch d y => simp +contextual [List.getElem?_set_ne, Ne.symm]
  | interleaves cells len hcells =>
    have hkeep : ∀ k, s.argNframes.toNat * s.argNch.toNat ≤ k →
        Memory.read (Memory.writeAll s.ilv cells) k = Memory.read s.ilv k := fun k hk =>
      Memory.read_writeAll_other _ _ _ fun c hc => ((hcells c hc).trans_le hk).ne
    simpa using hkeep
  | encodes cells len hcells =>
    have hkeep : ∀ b, 44 + 2 * s.ilvLen.toNat ≤ b →
        Memory.read (Memory.writeAll s.out cells) b = Memory.read s.out b := fun b hb =>
      Memory.read_writeAll_other _ _ _ fun c hc => ((hcells c hc).trans_le hb).ne
    simpa using hkeep

/-! ### STATUS.ERR is written and never read by a command -/

/-- No check and no result of a command looks at the old ERR, and every branch writes a new one. -/
theorem exec_set_err (i : Instr) (s : State) (e : ErrCode) : exec i { s with err := e } = exec i s := by
  cases i <;> rfl

/-- Settles O43: a command overwrites ERR without reading it, and no other host access reaches it. -/
theorem errIsRewrittenByEveryCommand : Obligations.ErrIsRewrittenByEveryCommand := by
  unfold Obligations.ErrIsRewrittenByEveryCommand
  refine ⟨fun i s t e h => (exec_set_err i s e).trans h, fun a s t hc h => ?_⟩
  obtain ⟨herr, -⟩ := hostAccess_keeps hc h
  exact herr

/-! ### The delay lines are hidden -/

/-- `s` with other delay lines. -/
def withDelay (d : List DelayLine) (s : State) : State := { s with delay := d }

/-- Changes the next state of an outcome that has one. -/
def onNext (f : State → State) : Result → Result
  | .next s => .next (f s)
  | .fault r => .fault r
  | .refused r => .refused r

@[simp] theorem onNext_next (f : State → State) (s : State) : onNext f (.next s) = .next (f s) := rfl
@[simp] theorem onNext_fault (f : State → State) (r : Fault) : onNext f (.fault r) = .fault r := rfl

theorem statusRead_withDelay (d : List DelayLine) (s : State) :
    statusRead (withDelay d s) = ((statusRead s).1, withDelay d (statusRead s).2) := by
  cases hb : s.busy with
  | none => rw [statusRead_closed s hb, statusRead_closed (withDelay d s) hb]; rfl
  | some n =>
    cases n with
    | zero => rw [statusRead_last s hb, statusRead_last (withDelay d s) hb]; rfl
    | succ n => rw [statusRead_busy s n hb, statusRead_busy (withDelay d s) n hb]; rfl

@[simp] theorem readReg32_withDelay (d : List DelayLine) (s : State) (r : Reg32) :
    readReg32 (withDelay d s) r = readReg32 s r := by
  cases r <;> rfl

@[simp] theorem readReg64_withDelay (d : List DelayLine) (s : State) (r : Reg64) :
    readReg64 (withDelay d s) r = readReg64 s r := by
  cases r <;> rfl

@[simp] theorem writeReg32_withDelay (d : List DelayLine) (s : State) (r : Reg32) (v : Word) :
    writeReg32 (withDelay d s) r v = withDelay d (writeReg32 s r v) := by
  cases r <;> rfl

@[simp] theorem writeReg64_withDelay (d : List DelayLine) (s : State) (r : Reg64) (v : F64) :
    writeReg64 (withDelay d s) r v = withDelay d (writeReg64 s r v) := by
  cases r <;> rfl

@[simp] theorem returnDatum_withDelay (d : List DelayLine) (s : State) (x : Datum) :
    returnDatum (withDelay d s) x = withDelay d (returnDatum s x) := rfl

theorem slotRead_withDelay (d : List DelayLine) (s : State) (r : Slot32) :
    slotRead (withDelay d s) r = withDelay d (slotRead s r) := by
  cases r <;> simp [slotRead, statusRead_withDelay]

theorem slotWrite_withDelay (d : List DelayLine) (s : State) (v : Word) {r : Slot32} (h : r ≠ .cmd) :
    slotWrite (withDelay d s) v r = onNext (withDelay d) (slotWrite s v r) := by
  cases r <;> simp [slotWrite] at h ⊢

theorem cellRead_withDelay (d : List DelayLine) (s : State) (b : Bool) (x : Option Datum) :
    cellRead (withDelay d s) b x = onNext (withDelay d) (cellRead s b x) := by
  cases b <;> cases x <;> rfl

theorem slot32At_cmd {o : Nat} (h : slot32At o = some .cmd) : o = 0 := by
  unfold slot32At at h
  split at h
  · exact slotAligned_zero (Option.some.inj h)
  · simp at h

theorem accessEffect_withDelay {a : HostAccess} (hc : isCommandWrite a = false) (d : List DelayLine) (s : State) :
    accessEffect a (withDelay d s) = onNext (withDelay d) (accessEffect a s) := by
  cases a with
  | regRead32 o => cases h : slot32At o <;> simp [accessEffect, h, slotRead_withDelay]
  | regWrite32 o v =>
    cases h : slot32At o with
    | none => simp [accessEffect, h]
    | some r =>
      have hr : r ≠ .cmd := by
        rintro rfl
        simp [isCommandWrite, slot32At_cmd h] at hc
      simp [accessEffect, h, slotWrite_withDelay d s v hr]
  | regRead64 o => cases h : reg64At o <;> simp [accessEffect, h]
  | regWrite64 o v => cases h : reg64At o <;> simp [accessEffect, h]
  | regOther w b o => rfl
  | planeWrite j i v =>
    simp only [accessEffect, apply_ite (onNext (withDelay d))]
    rfl
  | ilvWrite k v =>
    simp only [accessEffect, apply_ite (onNext (withDelay d))]
    rfl
  | planeRead j i => exact cellRead_withDelay d s _ _
  | ilvRead k => exact cellRead_withDelay d s _ _
  | outRead b => exact cellRead_withDelay d s _ _

/-- A host access that is no CMD write does the same whatever the delay lines hold. -/
theorem hostAccess_withDelay {a : HostAccess} (hc : isCommandWrite a = false) (d : List DelayLine) (s : State) :
    hostAccess a (withDelay d s) = onNext (withDelay d) (hostAccess a s) := by
  unfold hostAccess
  rw [accessEffect_withDelay hc, apply_ite (onNext (withDelay d))]
  rfl

/-- BQ_CFG, ILV_RUN and WAV_ENC do the same whatever the delay lines hold. -/
theorem exec_withDelay {i : Instr} (hrst : i ≠ .bqRst) (hproc : ∀ ch, i ≠ .bqProc ch) (d : List DelayLine)
    (s : State) : exec i (withDelay d s) = onNext (withDelay d) (exec i s) := by
  cases i with
  | bqCfg =>
    simp only [exec, execBqCfg, withDelay, onNext_next]
    split <;> rfl
  | bqRst => exact absurd rfl hrst
  | bqProc ch => exact absurd rfl (hproc ch)
  | ilvRun =>
    simp only [exec, execIlvRun, withDelay]
    cases ilvChecks s.params s.argNframes.toNat s.argNch.toNat with
    | some e => rfl
    | none => cases interleaveCells s.plane s.argNframes.toNat s.argNch.toNat <;> rfl
  | wavEnc =>
    simp only [exec, execWavEnc, withDelay]
    cases wavChecks s.params s.ilvLen.toNat s.argNch.toNat s.argRate.toNat with
    | some e => rfl
    | none =>
      cases ilvSamples s.ilv s.ilvLen.toNat with
      | none => rfl
      | some S => cases hn : S.any isNan <;> simp [hn, withDelay, raiseError, succeed, outLength]

/-- BQ_PROC checks its operands without looking at the delay lines, and then writes them, RES_Y and ERR. -/
theorem execBqProc_withDelay {ch : Nat} {s t : State} (d : List DelayLine) (h : exec (.bqProc ch) s = .next t) :
    ∃ u, exec (.bqProc ch) (withDelay d s) = .next u ∧ { u with delay := t.delay, resY := t.resY } = t := by
  rcases execBqProc_cases h with ⟨hch, rfl⟩ | ⟨hch, hcfg, rfl⟩ | ⟨hch, hcfg, rfl⟩
  · exact ⟨_, congrArg Host.Outcome.next (if_pos hch), rfl⟩
  · exact ⟨_, congrArg Host.Outcome.next ((if_neg hch.not_ge).trans (if_pos hcfg)), rfl⟩
  · exact ⟨_, congrArg Host.Outcome.next ((if_neg hch.not_ge).trans (if_neg (ne_false_of_eq_true hcfg))), rfl⟩

/-- Settles O48: every function on the host's path, and every command but BQ_RST and BQ_PROC, commutes with a change of
the delay lines; these two write them. -/
theorem delayLinesAreHiddenFromTheHost : Obligations.DelayLinesAreHiddenFromTheHost := by
  unfold Obligations.DelayLinesAreHiddenFromTheHost
  refine ⟨fun a s t d hc h => ?_, fun i s t d h => ?_⟩
  · obtain ⟨-, -, -, hdelay, -⟩ := hostAccess_keeps hc h
    exact ⟨hdelay, (hostAccess_withDelay hc d s).trans (by rw [h]; rfl)⟩
  · by_cases hrst : i = .bqRst
    · subst hrst
      exact ⟨t, h, rfl, fun _ => rfl⟩
    · by_cases hproc : ∃ ch, i = .bqProc ch
      · obtain ⟨ch, rfl⟩ := hproc
        obtain ⟨u, hu, heq⟩ := execBqProc_withDelay d h
        exact ⟨u, hu, heq, fun hne => absurd rfl (hne ch)⟩
      · have he := exec_withDelay hrst (not_exists.1 hproc) d s
        rw [h] at he
        exact ⟨withDelay d t, he, rfl, fun _ => rfl⟩

end Sys2Proof.Machine
end

section
/-! PROOFS. Steps, STATUS and the BUSY window, CONFIGURED, the reserved offsets and the reset state (10_state.md R24 to
R37, 30_encoding.md R85 and R90). -/

namespace Sys2Proof

open Machine

/-- The word of a well-formed command decodes to it: its RSVD, CH and OP select its own test (30_encoding.md R85). -/
theorem decode_encode {i : Instr} (h : i.wellFormed = true) : decode (encode i) = .ok i := by
  cases i with
  | bqProc ch =>
    have hch : ch % 256 = ch := Nat.mod_eq_of_lt (Nat.lt_succ_of_le (of_decide_eq_true h))
    simp [decode, encode, hch]
  | bqCfg => simp [decode, encode]
  | bqRst => simp [decode, encode]
  | ilvRun => simp [decode, encode]
  | wavEnc => simp [decode, encode]

namespace Machine

/-! ### A step performs the oldest pending event -/

theorem step_of_pending {s : State} {e : Event} {rest : List Event} (h : s.pending = e :: rest) :
    step s = eventEffect e { s with pending := rest } := by
  unfold step takeEvent
  rw [h]

theorem hostAccess_cmdWrite {s : State} {w : Word} {i : Instr} (hb : s.busy = none) (hd : decode w = .ok i) :
    hostAccess (.regWrite32 0x00 w) s = exec i (startCommand s) := by
  rw [hostAccess_idle _ hb]
  show commandWrite w s = _
  rw [commandWrite, hd]

/-- Settles O6: the step takes the access, and the CMD write opens the window and runs the command. -/
theorem stepRunsThePendingCommand : Obligations.StepRunsThePendingCommand := by
  unfold Obligations.StepRunsThePendingCommand
  intro s w i rest hp hb hd
  exact (step_of_pending hp).trans (hostAccess_cmdWrite hb hd)

/-- Settles O7: the placed word is the oldest pending write, with the window closed, and decodes to its command. -/
theorem stepRunsThePlacedCommand : Obligations.StepRunsThePlacedCommand := by
  unfold Obligations.StepRunsThePlacedCommand
  intro s i hi
  have hw : BitVec.ofNat 32 ((encode i).toNat % 2 ^ 32) = encode i := by
    rw [Nat.mod_eq_of_lt (encode i).isLt, BitVec.ofNat_toNat, BitVec.setWidth_eq]
  rw [State.withFetchWord, hw]
  exact stepRunsThePendingCommand (placeCommand s (encode i)) (encode i) i s.pending rfl rfl (decode_encode hi)

/-! ### STATUS -/

/-- The fields of the STATUS word (10_state.md R25, R28). -/
theorem statusWord_fields (busy configured : Bool) (err : BitVec 8) :
    (statusWord busy configured err).toNat % 256 = (if busy then 1 else 0) + (if configured then 2 else 0) ∧
    (statusWord busy configured err).toNat < 65536 ∧ (statusWord busy configured err).toNat / 256 = err.toNat ∧
    (statusWord busy configured err).toNat / 2 % 2 = (if configured then 1 else 0) := by
  have he := err.isLt
  rw [statusWord_toNat]
  cases busy <;> cases configured <;> simp only [if_true, Bool.false_eq_true, if_false] <;> omega

/-- What a STATUS read returns: bit 0 is BUSY of the state it leaves, and ERR is given when that is 0 (10_state.md R25,
R26). -/
theorem statusRead_word (s : State) : ∃ e : BitVec 8,
    (statusRead s).1 = statusWord (statusRead s).2.busy.isSome s.configured e ∧
      ((statusRead s).2.busy = none → e = s.err.code) := by
  cases hb : s.busy with
  | none => rw [statusRead_closed s hb]; exact ⟨_, by rw [hb]; rfl, fun _ => rfl⟩
  | some n =>
    cases n with
    | zero => rw [statusRead_last s hb]; exact ⟨_, rfl, fun _ => rfl⟩
    | succ n => rw [statusRead_busy s n hb]; exact ⟨_, rfl, fun h => by simp at h⟩

theorem hostAccess_status_idle {s : State} (h : s.busy = none) : hostAccess (.regRead32 0x04) s =
    .next { s with returned := .word (statusWord false s.configured s.err.code) :: s.returned } := by
  rw [hostAccess_status, statusRead_closed s h]
  rfl

/-- Settles O9: `statusRead_word` field by field; a write to STATUS falls on a read-only slot. -/
theorem statusFieldsReadAsTheirState : Obligations.StatusFieldsReadAsTheirState := by
  unfold Obligations.StatusFieldsReadAsTheirState
  refine ⟨fun s hb => ?_, fun s hb => ?_, fun s v hb => hostAccess_idle _ hb, fun P => ?_⟩
  · refine ⟨_, hostAccess_status_idle hb, ?_⟩
    simp only [statusWord_toNat, Bool.false_eq_true, if_false]
    omega
  · obtain ⟨e, hword, herr⟩ := statusRead_word s
    obtain ⟨hlow, hlt, hhigh, -⟩ := statusWord_fields (statusRead s).2.busy.isSome s.configured e
    rw [← hword] at hlow hlt hhigh
    exact ⟨(statusRead s).1, _, hostAccess_status s, by simp, hlow, hlt, fun hnone => by rw [hhigh, herr hnone]⟩
  · have hzero : statusWord false false ErrCode.ok.code = 0#32 := by decide
    rw [← hzero]
    exact hostAccess_status_idle rfl

/-! ### `poll` -/

theorem run_succ_of_step {M : Host.Core} {s s' : M.State} (n : Nat) (h : M.step s = .next s') :
    M.run (n + 1) s = M.run n s' := by
  rw [Host.Core.run, h]

/-- `u` with the pending events, the BUSY window, the returned data and the draw counter of `s`. -/
def withPortOf (s u : State) : State :=
  { u with pending := s.pending, busy := s.busy, returned := s.returned, draws := s.draws }

theorem step_poll {s : State} {rest : List Event} (h : s.pending = .poll :: rest) :
    step s = .next (pollTurn { s with pending := rest }) := step_of_pending h

/-- A step at `poll` that reads BUSY = 1 leaves `poll` first, one such read fewer and one word more. -/
theorem step_poll_busy {s : State} {rest : List Event} {n : Nat} (hp : s.pending = .poll :: rest)
    (hb : s.busy = some (n + 1)) : ∃ t, step s = .next t ∧ t.pending = .poll :: rest ∧ t.busy = some n ∧
      t.returned.length = s.returned.length + 1 ∧ withPortOf s t = s := by
  refine ⟨_, step_poll hp, ?_⟩
  rw [pollTurn_busy { s with pending := rest } n hb]
  exact ⟨rfl, rfl, rfl, rfl⟩

/-- A step at `poll` that reads BUSY = 0 ends it and the window. -/
theorem step_poll_last {s : State} {rest : List Event} (hp : s.pending = .poll :: rest) (hb : s.busy = some 0) :
    ∃ t, step s = .next t ∧ t.pending = rest ∧ t.busy = none ∧ t.returned.length = s.returned.length + 1 ∧
      withPortOf s t = s := by
  refine ⟨_, step_poll hp, ?_⟩
  rw [pollTurn_done { s with pending := rest } (.inl hb)]
  exact ⟨rfl, rfl, rfl, rfl⟩

/-- Settles O10, by induction on the reads of BUSY = 1 that are left. -/
theorem pollEndsTheBusyWindow : Obligations.PollEndsTheBusyWindow := by
  unfold Obligations.PollEndsTheBusyWindow
  intro s n rest hp hb
  induction n generalizing s with
  | zero =>
    obtain ⟨t, hstep, hpend, hbusy, hlen, hblock⟩ := step_poll_last hp hb
    exact ⟨t, run_succ_of_step 0 hstep, hpend, hbusy, hlen, hblock⟩
  | succ n ih =>
    obtain ⟨s', hstep, hp', hb', hlen', hblock'⟩ := step_poll_busy hp hb
    obtain ⟨t, hrun, hpend, hbusy, hlen, hblock⟩ := ih s' hp' hb'
    refine ⟨t, (run_succ_of_step (n + 1) hstep).trans hrun, hpend, hbusy, by omega, ?_⟩
    calc withPortOf s t = withPortOf s (withPortOf s' t) := rfl
      _ = withPortOf s s' := congrArg (withPortOf s) hblock
      _ = s := hblock'

/-! ### CONFIGURED -/

/-- A successful BQ_CFG sets CONFIGURED, and every other completion of a command keeps it. -/
theorem exec_configured {i : Instr} {s t : State} (h : exec i s = .next t) :
    t.configured = (s.configured || decide (i = .bqCfg) && decide (t.err = .ok)) := by
  cases exec_effect h with
  | fails _ e he => simp [he]
  | configures n => simp
  | clears => simp
  | processes ch d y => simp
  | interleaves cells len hcells => simp
  | encodes cells len hcells => simp

theorem commandWrite_configured {w : Word} {s t : State} (h : commandWrite w s = .next t)
    (hs : s.configured = true) : t.configured = true := by
  rcases commandWrite_cases w s with ⟨i, -, he⟩ | ⟨e, -, he⟩
  · simp [exec_configured (he.symm.trans h), hs]
  · obtain rfl := Host.Outcome.next.inj (he.symm.trans h)
    exact hs

@[simp] theorem pollTurn_configured (s : State) : (pollTurn s).configured = s.configured := by
  unfold pollTurn
  split <;> simp [slotRead]

/-- Only a step that takes a power-on clears CONFIGURED. -/
theorem step_configured {s t : State} (h : step s = .next t) (hp : s.pending.head? ≠ some .powerOn)
    (hs : s.configured = true) : t.configured = true := by
  rcases step_cases h with ⟨-, rfl⟩ | ⟨_, _, -, -, hw⟩ | ⟨_, _, -, hc, ha⟩ | ⟨_, -, rfl⟩ | ⟨_, hpow, -⟩
  · exact hs
  · exact commandWrite_configured hw hs
  · obtain ⟨-, hconf, -⟩ := hostAccess_keeps hc ha
    exact hconf.trans hs
  · simpa using hs
  · simp [hpow] at hp

/-- Settles O47: BQ_CFG is the one command whose effect names CONFIGURED, and it sets it. -/
theorem configuredIsClearedOnlyByPowerOn : Obligations.ConfiguredIsClearedOnlyByPowerOn := by
  unfold Obligations.ConfiguredIsClearedOnlyByPowerOn
  refine ⟨fun s => ?_, fun _ => rfl, fun s t h => ?_, fun i s t hi h => ?_, fun _ _ => step_configured⟩
  · obtain ⟨e, hword, -⟩ := statusRead_word s
    obtain ⟨-, -, -, hbit⟩ := statusWord_fields (statusRead s).2.busy.isSome s.configured e
    exact ⟨_, (statusRead s).1, hostAccess_status s, by simp, by rw [hword, hbit]⟩
  · simpa using exec_configured h
  · simpa [hi] using exec_configured h

/-! ### Reserved offsets -/

theorem reg64At_le {o : Nat} {r : Reg64} (h : reg64At o = some r) : o ≤ 0x68 := by
  unfold reg64At at h
  split at h <;> cases h <;> decide

theorem reg64At_beyond {o : Nat} (h : 0x68 < o) : reg64At o = none :=
  Option.eq_none_iff_forall_ne_some.2 fun _ hr => absurd (reg64At_le hr) h.not_ge

theorem slotAligned_beyond {o : Nat} (h : 0x70 ≤ o) : slotAligned o = .reserved := by
  have hlow : reg64At o = none := reg64At_beyond (by omega)
  have hhigh : reg64At (o - 4) = none := reg64At_beyond (by omega)
  unfold slotAligned
  split
  iterate 7 · omega
  · rw [hlow, hhigh]

theorem slotAligned_reserved {o : Nat} (h : o = 0x44 ∨ 0x70 ≤ o) : slotAligned o = .reserved := by
  rcases h with rfl | h
  · rfl
  · exact slotAligned_beyond h

/-- Settles O12: the reserved offsets are the slot that reads 0 and ignores writes. -/
theorem reservedOffsetsReadZeroIgnoreWrites : Obligations.ReservedOffsetsReadZeroIgnoreWrites := by
  unfold Obligations.ReservedOffsetsReadZeroIgnoreWrites
  intro s o v hb h4 hr
  have hslot : slot32At o = some .reserved := by
    rw [slot32At, if_pos ⟨h4, by omega⟩, slotAligned_reserved (hr.imp_right And.left)]
  rw [hostAccess_idle _ hb, hostAccess_idle _ hb]
  simp only [accessEffect, hslot]
  exact ⟨rfl, rfl⟩

/-! ### The reset state -/

/-- Settles O50: the value of each field is written in `State.resetWith`. -/
theorem resetHoldsTheStatedValues : Obligations.ResetHoldsTheStatedValues := by
  unfold Obligations.ResetHoldsTheStatedValues
  refine ⟨rfl, fun P => ?_⟩
  have hlen : (State.resetWith P).delay.length = P.nchMax := List.length_replicate
  have hzero : ∀ d ∈ (State.resetWith P).delay, d = DelayLine.zero := fun _ => List.eq_of_mem_replicate
  exact ⟨rfl, rfl, rfl, rfl, rfl, rfl, rfl, rfl, rfl, rfl, rfl, rfl, rfl, rfl, rfl, hlen, hzero,
    fun _ => ⟨rfl, rfl, rfl⟩⟩

/-- With empty memories, cleared delay lines and zero coefficients every part of the invariant holds. -/
theorem inv_resetWith (P : Params) : Inv (State.resetWith P) where
  memory :=
    { planeWf := .nil, ilvWf := .nil, outWf := .nil
      planeCells := by simp [State.resetWith]
      ilvCells := by simp [State.resetWith]
      outCells := by simp [State.resetWith] }
  filter :=
    { delayCount := List.length_replicate
      coefFinite := by simp only [State.resetWith]; decide
      unconfigured := fun _ => rfl
      centreZero := rfl
      antisymmetric := fun h => by simp [State.resetWith] at h }

/-- No stream, so no byte of one to hold. -/
theorem streamHeld_resetWith (P : Params) : StreamHeld (State.resetWith P) := fun _ hb => absurd hb (Nat.not_lt_zero _)

/-- Settles O54: `inv_resetWith` and `streamHeld_resetWith`, at every choice of parameters. -/
theorem resetMeetsTheInvariant : Obligations.ResetMeetsTheInvariant := by
  unfold Obligations.ResetMeetsTheInvariant
  exact ⟨inv_resetWith _, streamHeld_resetWith _, fun P => ⟨inv_resetWith P, streamHeld_resetWith P⟩⟩

end Machine
end Sys2Proof
end

section
/-! PROOFS. The coefficients a successful BQ_CFG holds are finite, with C[1] = +0.0 and C[2] = -C[0] (40_biquad.md R103,
R105). -/

namespace Sys2Proof.Machine

@[simp] theorem isZero_fneg (x : F64) : isZero (fneg x) = isZero x := by simp [isZero]

theorem fneg_pack (n : Bool) {m : Nat} (h : m < 2 ^ 63) : fneg (pack n m) = pack (!n) m := by
  rw [fneg_eq_pack, signBit_pack _ h, magnitude_pack _ h]

@[simp] theorem divInvalid_fneg (a b : F64) : DivInvalid (fneg a) b ↔ DivInvalid a b := by simp [DivInvalid]

/-- Negating the dividend negates a quotient that is not NaN: its magnitude does not depend on the signs. -/
theorem fdiv_fneg {a b : F64} (hn : isNan (fdiv a b) = false) : fdiv (fneg a) b = fneg (fdiv a b) := by
  have hv : ¬ DivInvalid a b := fun h => by simp [fdiv_invalid h] at hn
  have hv' : ¬ DivInvalid (fneg a) b := (divInvalid_fneg a b).not.2 hv
  by_cases hi : isInf a = true ∨ isZero b = true
  · rw [fdiv_inf hv hi, fdiv_inf hv' (by simpa using hi), fneg_pack _ (by decide), signBit_fneg, Bool.not_bne]
  by_cases hz : isZero a = true ∨ isInf b = true
  · rw [fdiv_zero hv hz, fdiv_zero hv' (by simpa using hz), fneg_pack _ (by decide), signBit_fneg, Bool.not_bne]
  · obtain ⟨ha, hb, -, -⟩ := (not_divInvalid_iff a b).1 hv
    simp only [not_or, Bool.not_eq_true] at hi hz
    obtain ⟨hia, hzb⟩ := hi
    have hfa : isFinite a = true := isFinite_of_not ha hia
    have hfb : isFinite b = true := isFinite_of_not hb hz.2
    rw [fdiv_finite hfa hfb hzb, fdiv_finite ((isFinite_fneg a).trans hfa) hfb hzb, fneg_roundUnits, signBit_fneg,
      unitsMag_fneg, Bool.not_bne]

theorem units_nonneg {x : F64} (h : signBit x = false) : 0 ≤ units x := by
  rw [units_eq_applySign, h, applySign_false]
  exact Int.natCast_nonneg _

theorem signBit_fadd_of_nonneg {a b : F64} (ha : isFinite a = true) (hb : isNan b = false) (hsa : signBit a = false)
    (hsb : signBit b = false) : signBit (fadd a b) = false := by
  rw [fadd]
  cases hi : isInf b with
  | true => rw [addWith_finite_inf ha hi, hsb]
  | false =>
    have hsum : ¬ units a + units b < 0 := Int.not_lt.2 (Int.add_nonneg (units_nonneg hsa) (units_nonneg hsb))
    rw [addWith_finite ha (isFinite_of_not hb hi)]
    split
    · rw [signBit_pack_zero, hsa, Bool.false_and]
    · rw [signBit_roundUnits, decide_eq_false hsum]

/-- A value above +0.0 is not NaN and has a clear sign bit. -/
theorem fgt_zeroF {x : F64} (h : fgt x zeroF = true) : isNan x = false ∧ signBit x = false := by
  simp only [fgt, flt, Bool.and_eq_true, Bool.not_eq_true', decide_eq_true_eq] at h
  obtain ⟨⟨-, hn⟩, hlt⟩ := h
  refine ⟨hn, Bool.eq_false_iff.2 fun hs => ?_⟩
  have hz : orderKey zeroF = 0 := by decide
  rw [hz, orderKey_eq_applySign, hs, applySign_true] at hlt
  omega

theorem coeffsFinite_iff (n : Coeffs) : coeffsFinite n = true ↔
    isFinite n.c0 = true ∧ isFinite n.c1 = true ∧ isFinite n.c2 = true ∧ isFinite n.c3 = true ∧
      isFinite n.c4 = true := by
  simp [coeffsFinite, and_assoc]

/-- +0.0 divided by a value of clear sign is +0.0, unless it is NaN. -/
theorem fdiv_zeroF {b : F64} (hn : isNan (fdiv zeroF b) = false) (hs : signBit b = false) : fdiv zeroF b = zeroF := by
  have hv : ¬ DivInvalid zeroF b := fun h => by simp [fdiv_invalid h] at hn
  rw [fdiv_zero hv (.inl (by decide)), hs]
  decide

/-- The shape that 40_biquad.md R103 gives the coefficients, for either bandpass variant. -/
theorem configureCoeffs_shape {P : Params} {f0 q fs : F64} {n : Coeffs} (h : configureCoeffs P f0 q fs = some n) :
    coeffsFinite n = true ∧ n.c1 = zeroF ∧ n.c2 = fneg n.c0 := by
  obtain ⟨-, hgt, rfl, hfin⟩ := configureCoeffs_some h
  obtain ⟨h0, h1, -⟩ := (coeffsFinite_iff _).1 hfin
  obtain ⟨hn, hs⟩ := fgt_zeroF hgt
  have ha0 : signBit (fadd oneF (design P f0 q fs).alpha) = false :=
    signBit_fadd_of_nonneg (by decide) hn (by decide) hs
  exact ⟨hfin, fdiv_zeroF (isFinite_not_nan h1) ha0, fdiv_fneg (isFinite_not_nan h0)⟩

end Sys2Proof.Machine
end

section
/-! PROOFS. What every step keeps: the invariant of the machine and every byte of the current stream (20_memory.md R50 to
R53, R63; 10_state.md R33, R40). -/

namespace Sys2Proof.Machine

/-! ### What every step keeps -/

theorem withPortOf_pollTurn (s u : State) : withPortOf s (pollTurn u) = withPortOf s u := by
  cases hb : u.busy with
  | none => rw [pollTurn_done u (.inr hb)]; rfl
  | some n =>
    cases n with
    | zero => rw [pollTurn_done u (.inl hb)]; rfl
    | succ n => rw [pollTurn_busy u n hb]; rfl

/-- A predicate that does not look at the host port and that commands, other host accesses and power-on keep is kept by
every step. -/
theorem step_keeps {Q : State → Prop} (hport : ∀ s t, Q (withPortOf s t) → Q t)
    (hill : ∀ s, Q s → Q (raiseError s .illegalCommand))
    (hexec : ∀ i s t, exec i s = .next t → Q s → Q t)
    (haccess : ∀ a s t, isCommandWrite a = false → hostAccess a s = .next t → Q s → Q t)
    (hpower : ∀ s, Q s → Q (powerOnReset s)) {s t : State} (h : step s = .next t) (hs : Q s) : Q t := by
  rcases step_cases h with ⟨-, rfl⟩ | ⟨rest, w, -, -, hw⟩ | ⟨rest, a, -, hc, ha⟩ | ⟨rest, -, rfl⟩ | ⟨rest, -, rfl⟩
  · exact hs
  · have hstart : Q (startCommand { s with pending := rest }) := hport s _ hs
    rcases commandWrite_cases w { s with pending := rest } with ⟨i, -, he⟩ | ⟨e, -, he⟩
    · exact hexec i _ t (he.symm.trans hw) hstart
    · obtain rfl := Host.Outcome.next.inj (he.symm.trans hw)
      exact hill _ hstart
  · exact haccess a _ t hc ha (hport s _ hs)
  · exact hport s _ (by rw [withPortOf_pollTurn]; exact hs)
  · exact hpower _ (hport s _ hs)

/-! ### The memories -/

theorem MemoryInv.congr {s t : State} (h : MemoryInv s) (hplane : t.plane = s.plane) (hilv : t.ilv = s.ilv)
    (hout : t.out = s.out) (hparams : t.params = s.params) : MemoryInv t where
  planeWf := by rw [hplane]; exact h.planeWf
  ilvWf := by rw [hilv]; exact h.ilvWf
  outWf := by rw [hout]; exact h.outWf
  planeCells := by rw [hplane, hparams]; exact h.planeCells
  ilvCells := by rw [hilv, hparams]; exact h.ilvCells
  outCells := by rw [hout, hparams]; exact h.outCells

theorem planeInRange_iff {s : State} {j i : Nat} :
    planeInRange s j i = true ↔ j < s.params.nchMax ∧ i < s.params.framesMax := by
  simp [planeInRange]

theorem MemoryInv.write_plane {s : State} {j i : Nat} (h : MemoryInv s) (v : F64) (hr : planeInRange s j i = true) :
    MemoryInv { s with plane := Memory.write s.plane (planeIndex j i) v } := by
  obtain ⟨hj, hi⟩ := planeInRange_iff.1 hr
  have hj' : j < 256 := hj.trans_le (Params.nchMax_le _)
  refine { h with planeWf := Memory.write_wf _ _ h.planeWf, planeCells := fun c hc => ?_ }
  rcases Memory.mem_write hc with rfl | hc
  · rw [planeIndex_mod hj', planeIndex_div hj']
    exact ⟨hj, hi⟩
  · exact h.planeCells c hc

theorem MemoryInv.write_ilv {s : State} {cells : List (Nat × F64)} (h : MemoryInv s)
    (hcells : ∀ c ∈ cells, c.1 < s.params.ilvMax) : MemoryInv { s with ilv := Memory.writeAll s.ilv cells } :=
  { h with
    ilvWf := Memory.writeAll_wf _ h.ilvWf
    ilvCells := fun c hc => (Memory.mem_writeAll hc).elim (hcells c) (h.ilvCells c) }

theorem MemoryInv.write_out {s : State} {cells : List (Nat × Byte)} (h : MemoryInv s)
    (hcells : ∀ c ∈ cells, c.1 < s.params.outMax) : MemoryInv { s with out := Memory.writeAll s.out cells } :=
  { h with
    outWf := Memory.writeAll_wf _ h.outWf
    outCells := fun c hc => (Memory.mem_writeAll hc).elim (hcells c) (h.outCells c) }

/-- The checks of ILV_RUN and WAV_ENC bound the cells they write (41_interleaver.md R141, 42_wav_encoder.md R151); no other
command writes a memory. -/
theorem exec_memoryInv {i : Instr} {s t : State} (h : exec i s = .next t) (hs : MemoryInv s) : MemoryInv t := by
  cases i with
  | bqCfg => rcases execBqCfg_cases h with ⟨n, -, rfl⟩ | ⟨-, rfl⟩ <;> exact hs.congr rfl rfl rfl rfl
  | bqRst =>
    obtain rfl := Host.Outcome.next.inj h
    exact hs.congr rfl rfl rfl rfl
  | bqProc ch =>
    rcases execBqProc_cases h with ⟨-, rfl⟩ | ⟨-, -, rfl⟩ | ⟨-, -, rfl⟩ <;> exact hs.congr rfl rfl rfl rfl
  | ilvRun =>
    rcases execIlvRun_cases s with ⟨e, -, he⟩ | ⟨-, -, he⟩ | ⟨cells, hchk, hcells, he⟩ <;> cases he.symm.trans h
    · exact hs.congr rfl rfl rfl rfl
    · obtain ⟨-, hCn, hF⟩ := ilvChecks_none.1 hchk
      have hmax : s.argNframes.toNat * s.argNch.toNat ≤ s.params.ilvMax :=
        (Nat.mul_le_mul hF hCn).trans_eq (Nat.mul_comm _ _)
      exact (hs.write_ilv fun c hc => (interleaveCells_lt hcells hc).trans_le hmax).congr rfl rfl rfl rfl
  | wavEnc =>
    rcases execWavEnc_cases s with ⟨e, -, he⟩ | ⟨-, -, he⟩ | ⟨S, -, -, -, he⟩ | ⟨S, hchk, hS, -, he⟩ <;>
      cases he.symm.trans h
    · exact hs.congr rfl rfl rfl rfl
    · exact hs.congr rfl rfl rfl rfl
    · obtain ⟨-, hN⟩ := wavChecks_none.1 hchk
      obtain ⟨hlen, -⟩ := ilvSamples_some hS
      have hmax : 44 + 2 * S.length ≤ s.params.outMax := by unfold Params.outMax; omega
      exact (hs.write_out fun c hc => (streamCells_lt hc).trans_le hmax).congr rfl rfl rfl rfl

theorem hostAccess_memoryInv {a : HostAccess} {s t : State} (hc : isCommandWrite a = false)
    (h : hostAccess a s = .next t) (hs : MemoryInv s) : MemoryInv t := by
  rcases accessEffect_cases hc (hostAccess_next_accessEffect h) with
    ⟨d, rfl⟩ | ⟨v, rfl⟩ | ⟨r, v, rfl⟩ | ⟨r, v, rfl⟩ | rfl | ⟨j, i, v, hr, rfl⟩ | ⟨k, v, hk, rfl⟩
  iterate 4 · exact hs.congr (by simp) (by simp) (by simp) (by simp)
  · exact hs
  · exact hs.write_plane v hr
  · exact hs.write_ilv (cells := [(k, v)]) (by simpa using hk)

theorem step_memoryInv {s t : State} (h : step s = .next t) (hs : MemoryInv s) : MemoryInv t :=
  step_keeps (fun _ _ hq => hq.congr rfl rfl rfl rfl) (fun _ hq => hq.congr rfl rfl rfl rfl)
    (fun _ _ _ => exec_memoryInv) (fun _ _ _ => hostAccess_memoryInv)
    (fun s _ => (inv_resetWith s.params).memory.congr rfl rfl rfl rfl) h hs

/-! ### The delay lines and the coefficients -/

theorem FilterInv.congr {s t : State} (h : FilterInv s) (hdelay : t.delay.length = s.delay.length)
    (hcoef : t.coef = s.coef) (hconf : t.configured = s.configured) (hparams : t.params = s.params) : FilterInv t := by
  obtain ⟨hcount, hfin, hunconf, hcentre, hanti⟩ := h
  constructor <;> simpa [hdelay, hcoef, hconf, hparams]

/-- BQ_CFG holds coefficients of R103's shape, BQ_RST and BQ_PROC keep the number of delay lines, and no other command
writes either. -/
theorem exec_filterInv {i : Instr} {s t : State} (h : exec i s = .next t) (hs : FilterInv s) : FilterInv t := by
  cases i with
  | bqCfg =>
    rcases execBqCfg_cases h with ⟨n, hn, rfl⟩ | ⟨-, rfl⟩
    · obtain ⟨hfin, hcentre, hanti⟩ := configureCoeffs_shape hn
      exact ⟨hs.delayCount, hfin, fun hc => Bool.noConfusion hc, hcentre, fun _ => hanti⟩
    · exact hs.congr rfl rfl rfl rfl
  | bqRst =>
    obtain rfl := Host.Outcome.next.inj h
    exact hs.congr (List.length_replicate.trans hs.delayCount.symm) rfl rfl rfl
  | bqProc ch =>
    cases exec_effect h with
    | fails _ e _ => exact hs.congr rfl rfl rfl rfl
    | processes _ d y => exact hs.congr List.length_set rfl rfl rfl
  | ilvRun => cases exec_effect h <;> exact hs.congr rfl rfl rfl rfl
  | wavEnc => cases exec_effect h <;> exact hs.congr rfl rfl rfl rfl

theorem hostAccess_filterInv {a : HostAccess} {s t : State} (hc : isCommandWrite a = false)
    (h : hostAccess a s = .next t) (hs : FilterInv s) : FilterInv t := by
  obtain ⟨-, hconf, hcoef, hdelay, -⟩ := hostAccess_keeps hc h
  exact hs.congr (congrArg _ hdelay) hcoef hconf (accessEffect_params hc (hostAccess_next_accessEffect h))

theorem step_filterInv {s t : State} (h : step s = .next t) (hs : FilterInv s) : FilterInv t :=
  step_keeps (fun _ _ hq => hq.congr rfl rfl rfl rfl) (fun _ hq => hq.congr rfl rfl rfl rfl)
    (fun _ _ _ => exec_filterInv) (fun _ _ _ => hostAccess_filterInv)
    (fun s _ => (inv_resetWith s.params).filter.congr rfl rfl rfl rfl) h hs

/-- Settles O53: every kind of step keeps the memories' part and the filter's part. -/
theorem stepKeepsTheInvariant : Obligations.StepKeepsTheInvariant := by
  unfold Obligations.StepKeepsTheInvariant
  exact fun _ _ hs h => ⟨step_memoryInv h hs.memory, step_filterInv h hs.filter⟩

/-! ### The current stream -/

theorem StreamHeld.congr {s t : State} (h : StreamHeld s) (hout : t.out = s.out) (hlen : t.outLen = s.outLen) :
    StreamHeld t := by
  unfold StreamHeld
  rwa [hout, hlen]

/-- The header and the samples cover the stream without a gap (42_wav_encoder.md R152, R156). -/
theorem streamCells_isSome {P : Params} {S : List F64} (N Cn Rate : Nat) (m : Memory Byte) {b : Nat}
    (hb : b < 44 + 2 * S.length) :
    (Memory.read (Memory.writeAll m (headerCells N Cn Rate ++ sampleCells P S)) b).isSome = true := by
  have hmem : b ∈ (headerCells N Cn Rate ++ sampleCells P S).map Prod.fst := by
    rw [streamCells_fst, List.mem_range'_1]
    omega
  exact Memory.read_writeAll_isSome _ _ _ (List.mem_map.1 hmem)

theorem outLength_toNat {s : State} {N : Nat} (h : 44 + 2 * N < 2 ^ 32) : (outLength s N).toNat = 44 + 2 * N := by
  rw [outLength, if_pos h, BitVec.toNat_ofNat, Nat.mod_eq_of_lt h]

/-- A successful WAV_ENC writes every byte below the OUT_LEN it sets, a failing one writes neither, and no other command
does (42_wav_encoder.md R157). -/
theorem exec_streamHeld {i : Instr} {s t : State} (hmax : s.params.outMax < 2 ^ 32) (h : exec i s = .next t)
    (hs : StreamHeld s) : StreamHeld t := by
  by_cases hi : i = .wavEnc
  · subst hi
    rcases execWavEnc_cases s with ⟨e, -, he⟩ | ⟨-, -, he⟩ | ⟨S, -, -, -, he⟩ | ⟨S, hchk, hS, -, he⟩ <;>
      cases he.symm.trans h
    · exact hs.congr rfl rfl
    · exact hs.congr rfl rfl
    · obtain ⟨-, hN⟩ := wavChecks_none.1 hchk
      obtain ⟨hlen, -⟩ := ilvSamples_some hS
      have hfit : 44 + 2 * s.ilvLen.toNat < 2 ^ 32 := (Nat.add_le_add_left (Nat.mul_le_mul_left 2 hN) 44).trans_lt hmax
      have hlength : (outLength s s.ilvLen.toNat).toNat = 44 + 2 * S.length := by rw [outLength_toNat hfit, hlen]
      intro b hb
      dsimp only
      exact streamCells_isSome _ _ _ _ (hb.trans_eq hlength)
  · obtain ⟨-, -, -, -, -, -, -, hkeep, -⟩ := eachPieceOfStateHasItsWriters.1 i s t h
    obtain ⟨hout, hlen⟩ := hkeep hi
    exact hs.congr hout hlen

/-- The stream is held, in an implementation whose longest stream fits OUT_LEN (log 7). -/
def FittingStreamHeld (s : State) : Prop := s.params.outMax < 2 ^ 32 ∧ StreamHeld s

theorem FittingStreamHeld.congr {s t : State} (h : FittingStreamHeld s) (hout : t.out = s.out)
    (hlen : t.outLen = s.outLen) (hparams : t.params = s.params) : FittingStreamHeld t :=
  ⟨hparams ▸ h.1, h.2.congr hout hlen⟩

theorem exec_params {i : Instr} {s t : State} (h : exec i s = .next t) : t.params = s.params := by
  obtain ⟨-, -, hp, -⟩ := exec_keeps h
  exact hp

theorem hostAccess_fittingStreamHeld {a : HostAccess} {s t : State} (hc : isCommandWrite a = false)
    (h : hostAccess a s = .next t) (hs : FittingStreamHeld s) : FittingStreamHeld t := by
  obtain ⟨-, -, -, -, -, hout, hlen⟩ := hostAccess_keeps hc h
  exact hs.congr hout hlen (accessEffect_params hc (hostAccess_next_accessEffect h))

theorem step_fittingStreamHeld {s t : State} (h : step s = .next t) (hs : FittingStreamHeld s) :
    FittingStreamHeld t :=
  step_keeps (fun _ _ hq => hq.congr rfl rfl rfl) (fun _ hq => hq.congr rfl rfl rfl)
    (fun _ _ _ he hq => ⟨exec_params he ▸ hq.1, exec_streamHeld hq.1 he hq.2⟩)
    (fun _ _ _ => hostAccess_fittingStreamHeld)
    (fun s hq => ⟨hq.1, (streamHeld_resetWith s.params).congr rfl rfl⟩) h hs

/-- Settles O55: WAV_ENC writes the whole stream in one step, and no other command writes OUT or OUT_LEN. -/
theorem stepKeepsTheStreamHeld : Obligations.StepKeepsTheStreamHeld := by
  unfold Obligations.StepKeepsTheStreamHeld
  intro s t hmax hs h
  obtain ⟨-, ht⟩ := step_fittingStreamHeld h ⟨hmax, hs⟩
  exact ht

end Sys2Proof.Machine
end

section
/-! PROOFS. The register map: which accesses are BAD_ACCESS, what each register write and read does (20_memory.md R55, R57
to R59). -/

namespace Sys2Proof.Machine

/-! ### Which offsets are admitted -/

theorem slot32At_eq_none_iff {o : Nat} : slot32At o = none ↔ ¬ (o % 4 = 0 ∧ o < 0x100) := by
  unfold slot32At
  split <;> simp [*]

/-- The offset of a 64-bit register (10_state.md R23). -/
def Reg64.offset : Reg64 → Nat
  | .argF0 => 0x08
  | .argQ => 0x10
  | .argFs => 0x18
  | .argX => 0x20
  | .resY => 0x28
  | .coefC0 => 0x48
  | .coefC1 => 0x50
  | .coefC2 => 0x58
  | .coefC3 => 0x60
  | .coefC4 => 0x68

theorem reg64At_eq_some_iff {o : Nat} {r : Reg64} : reg64At o = some r ↔ o = r.offset := by
  constructor
  · intro h
    unfold reg64At at h
    split at h <;> cases h <;> rfl
  · rintro rfl
    cases r <;> rfl

@[simp] theorem reg64At_offset (r : Reg64) : reg64At r.offset = some r := reg64At_eq_some_iff.2 rfl

@[simp] theorem slot32At_offset (r : Reg64) : slot32At r.offset = some (.low r) := by cases r <;> rfl

@[simp] theorem slot32At_offset_add (r : Reg64) : slot32At (r.offset + 4) = some (.high r) := by cases r <;> rfl

/-- The 64-bit registers stand at 0x08 to 0x28 and 0x48 to 0x68, 8 bytes apart. -/
theorem exists_offset_iff {o : Nat} :
    (∃ r : Reg64, o = r.offset) ↔ o % 8 = 0 ∧ (0x08 ≤ o ∧ o ≤ 0x28 ∨ 0x48 ≤ o ∧ o ≤ 0x68) := by
  constructor
  · rintro ⟨r, rfl⟩
    cases r <;> decide
  · intro h
    have hcases : o = 0x08 ∨ o = 0x10 ∨ o = 0x18 ∨ o = 0x20 ∨ o = 0x28 ∨ o = 0x48 ∨ o = 0x50 ∨ o = 0x58 ∨ o = 0x60 ∨
        o = 0x68 := by omega
    rcases hcases with rfl | rfl | rfl | rfl | rfl | rfl | rfl | rfl | rfl | rfl
    exacts [⟨.argF0, rfl⟩, ⟨.argQ, rfl⟩, ⟨.argFs, rfl⟩, ⟨.argX, rfl⟩, ⟨.resY, rfl⟩, ⟨.coefC0, rfl⟩, ⟨.coefC1, rfl⟩,
      ⟨.coefC2, rfl⟩, ⟨.coefC3, rfl⟩, ⟨.coefC4, rfl⟩]

theorem reg64At_eq_none_iff {o : Nat} :
    reg64At o = none ↔ ¬ (o % 8 = 0 ∧ (0x08 ≤ o ∧ o ≤ 0x28 ∨ 0x48 ≤ o ∧ o ≤ 0x68)) := by
  rw [← exists_offset_iff, Option.eq_none_iff_forall_ne_some, not_exists]
  simp only [ne_eq, reg64At_eq_some_iff]

/-! ### Register accesses outside the BUSY window -/

section
variable {s : State} {o : Nat} (hb : s.busy = none)
include hb

theorem hostAccess_regRead32 {r : Slot32} (ho : slot32At o = some r) :
    hostAccess (.regRead32 o) s = .next (slotRead s r) := by
  rw [hostAccess_idle _ hb, accessEffect, ho]

theorem hostAccess_regWrite32 {r : Slot32} (ho : slot32At o = some r) (v : Word) :
    hostAccess (.regWrite32 o v) s = slotWrite s v r := by
  rw [hostAccess_idle _ hb, accessEffect, ho]

theorem hostAccess_regRead64 {r : Reg64} (ho : reg64At o = some r) :
    hostAccess (.regRead64 o) s = .next (returnDatum s (.cell (readReg64 s r))) := by
  rw [hostAccess_idle _ hb, accessEffect, ho]

theorem hostAccess_regWrite64 {r : Reg64} (ho : reg64At o = some r) (v : F64) :
    hostAccess (.regWrite64 o v) s = .next (writeReg64 s r v) := by
  rw [hostAccess_idle _ hb, accessEffect, ho]

end

/-! ### BAD_ACCESS -/

/-- The only fault of a command is a read of a cell that holds no value (20_memory.md R62). -/
theorem exec_fault {i : Instr} {s : State} {f : Fault} (h : exec i s = .fault f) : f = .uninitRead := by
  cases i with
  | bqCfg => cases h
  | bqRst => cases h
  | bqProc ch => cases h
  | ilvRun =>
    rcases execIlvRun_cases s with ⟨e, -, he⟩ | ⟨-, -, he⟩ | ⟨cells, -, -, he⟩ <;> cases he.symm.trans h
    rfl
  | wavEnc =>
    rcases execWavEnc_cases s with ⟨e, -, he⟩ | ⟨-, -, he⟩ | ⟨S, -, -, -, he⟩ | ⟨S, -, -, -, he⟩ <;>
      cases he.symm.trans h
    rfl

theorem commandWrite_ne_badAccess (w : Word) (s : State) : commandWrite w s ≠ .fault .badAccess := by
  intro h
  rcases commandWrite_cases w s with ⟨i, -, he⟩ | ⟨e, -, he⟩
  · exact absurd (exec_fault (he.symm.trans h)) (by decide)
  · cases he.symm.trans h

theorem slotWrite_ne_badAccess (s : State) (v : Word) (r : Slot32) : slotWrite s v r ≠ .fault .badAccess := by
  cases r with
  | cmd => exact commandWrite_ne_badAccess v s
  | status | reg | low | high | reserved => exact nofun

section
variable {s : State} (hb : s.busy = none) (o : Nat)
include hb

theorem regRead32_badAccess_iff : hostAccess (.regRead32 o) s = .fault .badAccess ↔ slot32At o = none := by
  rw [hostAccess_idle _ hb, accessEffect]
  cases slot32At o <;> simp

theorem regWrite32_badAccess_iff (v : Word) :
    hostAccess (.regWrite32 o v) s = .fault .badAccess ↔ slot32At o = none := by
  rw [hostAccess_idle _ hb, accessEffect]
  cases slot32At o <;> simp [slotWrite_ne_badAccess]

theorem regRead64_badAccess_iff : hostAccess (.regRead64 o) s = .fault .badAccess ↔ reg64At o = none := by
  rw [hostAccess_idle _ hb, accessEffect]
  cases reg64At o <;> simp

theorem regWrite64_badAccess_iff (v : F64) :
    hostAccess (.regWrite64 o v) s = .fault .badAccess ↔ reg64At o = none := by
  rw [hostAccess_idle _ hb, accessEffect]
  cases reg64At o <;> simp

end

/-- Settles O11: an access is BAD_ACCESS exactly where its offset has no slot or no 64-bit register; not even a CMD write
at a slot is. -/
theorem badAccessOutsideTheRegisterRules : Obligations.BadAccessOutsideTheRegisterRules := by
  unfold Obligations.BadAccessOutsideTheRegisterRules
  intro s o hb
  rw [← slot32At_eq_none_iff, ← reg64At_eq_none_iff]
  refine ⟨regRead32_badAccess_iff hb o, fun v => (regWrite32_badAccess_iff hb o v).2, fun v ho h => ?_,
    regRead64_badAccess_iff hb o, regWrite64_badAccess_iff hb o, fun _ _ _ _ => hostAccess_idle _ hb⟩
  exact slot32At_eq_none_iff.1 ((regWrite32_badAccess_iff hb o v).1 h) ho

/-! ### Register writes -/

theorem lowHalf_toNat (x : F64) : (lowHalf x).toNat = x.toNat % 2 ^ 32 := by
  simp [lowHalf, BitVec.extractLsb'_toNat]

theorem highHalf_toNat (x : F64) : (highHalf x).toNat = x.toNat / 2 ^ 32 := by
  have := x.isLt
  simp only [highHalf, BitVec.extractLsb'_toNat, Nat.shiftRight_eq_div_pow]
  omega

theorem catHalves_toNat (hi lo : Word) : (catHalves hi lo).toNat = hi.toNat * 2 ^ 32 + lo.toNat := toNat_append_add hi lo

/-- A write of bits 31:0 keeps bits 63:32 (20_memory.md R58). -/
theorem hostAccess_writeLow {s : State} (hb : s.busy = none) (r : Reg64) (v : Word) :
    ∃ x, hostAccess (.regWrite32 r.offset v) s = .next (writeReg64 s r x) ∧
      x.toNat = (readReg64 s r).toNat / 2 ^ 32 * 2 ^ 32 + v.toNat :=
  ⟨_, hostAccess_regWrite32 hb (slot32At_offset r) v, by rw [catHalves_toNat, highHalf_toNat]⟩

/-- A write of bits 63:32 keeps bits 31:0 (20_memory.md R58). -/
theorem hostAccess_writeHigh {s : State} (hb : s.busy = none) (r : Reg64) (v : Word) :
    ∃ x, hostAccess (.regWrite32 (r.offset + 4) v) s = .next (writeReg64 s r x) ∧
      x.toNat = v.toNat * 2 ^ 32 + (readReg64 s r).toNat % 2 ^ 32 :=
  ⟨_, hostAccess_regWrite32 hb (slot32At_offset_add r) v, by rw [catHalves_toNat, lowHalf_toNat]⟩

/-- RES_Y and the coefficients: the 64-bit registers that ignore host writes (20_memory.md R58). -/
def Reg64.readOnly : Reg64 → Bool
  | .argF0 | .argQ | .argFs | .argX => false
  | .resY | .coefC0 | .coefC1 | .coefC2 | .coefC3 | .coefC4 => true

theorem writeReg64_readOnly {r : Reg64} (h : r.readOnly = true) (s : State) (v : F64) : writeReg64 s r v = s := by
  cases r with
  | argF0 | argQ | argFs | argX => cases h
  | resY | coefC0 | coefC1 | coefC2 | coefC3 | coefC4 => rfl

/-- The 32-bit accesses that ignore writes: STATUS, OUT_LEN, the halves of the read-only 64-bit registers, the reserved
offsets (20_memory.md R58). -/
def Slot32.readOnly : Slot32 → Bool
  | .cmd => false
  | .status => true
  | .reg r => decide (r = .outLen)
  | .low r => r.readOnly
  | .high r => r.readOnly
  | .reserved => true

theorem slotWrite_readOnly {r : Slot32} (h : r.readOnly = true) (s : State) (v : Word) : slotWrite s v r = .next s := by
  cases r with
  | cmd => cases h
  | status => rfl
  | reg r =>
    obtain rfl := of_decide_eq_true h
    rfl
  | low r => exact congrArg Host.Outcome.next (writeReg64_readOnly h s _)
  | high r => exact congrArg Host.Outcome.next (writeReg64_readOnly h s _)
  | reserved => rfl

theorem hostAccess_regWrite32_readOnly {s : State} {o : Nat} (hb : s.busy = none)
    (h : (slot32At o).any Slot32.readOnly = true) (v : Word) : hostAccess (.regWrite32 o v) s = .next s := by
  obtain ⟨r, ho, hr⟩ := (Option.any_eq_true _ _).1 h
  exact (hostAccess_regWrite32 hb ho v).trans (slotWrite_readOnly hr s v)

theorem hostAccess_regWrite64_readOnly {s : State} {o : Nat} (hb : s.busy = none)
    (h : (reg64At o).any Reg64.readOnly = true) (v : F64) : hostAccess (.regWrite64 o v) s = .next s := by
  obtain ⟨r, ho, hr⟩ := (Option.any_eq_true _ _).1 h
  exact (hostAccess_regWrite64 hb ho v).trans (congrArg Host.Outcome.next (writeReg64_readOnly hr s v))

/-- Settles O13: each offset is a register's, its upper half's, or read-only. -/
theorem registerWritesReachTheirRegister : Obligations.RegisterWritesReachTheirRegister := by
  unfold Obligations.RegisterWritesReachTheirRegister
  intro s hb
  have hro64 : ∀ o ∈ [0x28, 0x48, 0x50, 0x58, 0x60, 0x68], (reg64At o).any Reg64.readOnly = true := by decide
  have hro32 : ∀ o ∈ [0x04, 0x40, 0x44, 0x28, 0x2C, 0x48, 0x4C, 0x50, 0x54, 0x58, 0x5C, 0x60, 0x64, 0x68, 0x6C],
      (slot32At o).any Slot32.readOnly = true := by decide
  refine ⟨hostAccess_regWrite32 hb (r := .cmd) rfl, fun v => ?_, fun v => ?_⟩
  · exact ⟨hostAccess_regWrite64 hb (reg64At_offset .argF0) v, hostAccess_regWrite64 hb (reg64At_offset .argQ) v,
      hostAccess_regWrite64 hb (reg64At_offset .argFs) v, hostAccess_regWrite64 hb (reg64At_offset .argX) v,
      fun o ho => hostAccess_regWrite64_readOnly hb (hro64 o ho) v⟩
  · exact ⟨hostAccess_regWrite32 hb (r := .reg .argNframes) rfl v, hostAccess_regWrite32 hb (r := .reg .argNch) rfl v,
      hostAccess_regWrite32 hb (r := .reg .argRate) rfl v, hostAccess_regWrite32 hb (r := .reg .ilvLen) rfl v,
      fun o ho => hostAccess_regWrite32_readOnly hb (hro32 o ho) v,
      fun o h1 h2 h4 => (reservedOffsetsReadZeroIgnoreWrites s o v hb h4 (.inr ⟨h1, h2⟩)).2,
      hostAccess_writeLow hb .argF0 v, hostAccess_writeHigh hb .argF0 v,
      hostAccess_writeLow hb .argQ v, hostAccess_writeHigh hb .argQ v,
      hostAccess_writeLow hb .argFs v, hostAccess_writeHigh hb .argFs v,
      hostAccess_writeLow hb .argX v, hostAccess_writeHigh hb .argX v⟩

/-! ### Register reads -/

/-- The 64-bit read of a register and the 32-bit reads of its halves (20_memory.md R55, R59). -/
theorem hostAccess_reads_reg64 {s : State} (hb : s.busy = none) (r : Reg64) :
    hostAccess (.regRead64 r.offset) s = .next { s with returned := .cell (readReg64 s r) :: s.returned } ∧
    (∃ v : Word, hostAccess (.regRead32 r.offset) s = .next { s with returned := .word v :: s.returned } ∧
      v.toNat = (readReg64 s r).toNat % 2 ^ 32) ∧
    (∃ v : Word, hostAccess (.regRead32 (r.offset + 4)) s = .next { s with returned := .word v :: s.returned } ∧
      v.toNat = (readReg64 s r).toNat / 2 ^ 32) :=
  ⟨hostAccess_regRead64 hb (reg64At_offset r),
    ⟨_, hostAccess_regRead32 hb (slot32At_offset r), lowHalf_toNat _⟩,
    ⟨_, hostAccess_regRead32 hb (slot32At_offset_add r), highHalf_toNat _⟩⟩

/-- A STATUS read changes the BUSY window, the returned data and the draw counter only (20_memory.md R59). -/
theorem statusRead_keeps_block (s : State) (d : Datum) :
    { returnDatum (statusRead s).2 d with busy := s.busy, returned := s.returned, draws := s.draws } = s := by
  cases hb : s.busy with
  | none => rw [statusRead_closed s hb, ← hb]; rfl
  | some n =>
    cases n with
    | zero => rw [statusRead_last s hb, ← hb]; rfl
    | succ n => rw [statusRead_busy s n hb, ← hb]; rfl

theorem statusWord_even_iff (busy configured : Bool) (err : BitVec 8) :
    (statusWord busy configured err).toNat % 2 = 0 ↔ busy = false := by
  rw [statusWord_toNat]
  cases busy <;> cases configured <;> simp <;> omega

/-- Settles O14: `statusRead_word` for STATUS, and the register or the half that stands at each other offset. -/
theorem registerReadsReturnTheirRegister : Obligations.RegisterReadsReturnTheirRegister := by
  unfold Obligations.RegisterReadsReturnTheirRegister
  refine ⟨fun s => ?_, fun s hb => ⟨?_, ?_, fun o h1 h2 h4 => ?_⟩⟩
  · obtain ⟨e, hword, herr⟩ := statusRead_word s
    have hends : (statusRead s).2.busy = none ↔ (statusRead s).1.toNat % 2 = 0 := by
      rw [hword, statusWord_even_iff, Option.isSome_eq_false_iff, Option.isNone_iff_eq_none]
    refine ⟨_, (statusRead s).1, hostAccess_status s, by simp, hends, fun heven => ?_, statusRead_keeps_block s _⟩
    have hnone := hends.2 heven
    rw [hword, hnone, herr hnone, statusWord_toNat]
    simp only [Option.isSome_none, Bool.false_eq_true, if_false]
    omega
  · show ∀ p ∈ [Reg64.argF0, .argQ, .argFs, .argX, .resY, .coefC0, .coefC1, .coefC2, .coefC3, .coefC4].map
      (fun r => (r.offset, readReg64 s r)), _
    exact List.forall_mem_map.2 fun r _ => hostAccess_reads_reg64 hb r
  · simp only [List.forall_mem_cons]
    exact ⟨hostAccess_regRead32 hb (r := .cmd) rfl, hostAccess_regRead32 hb (r := .reg .argNframes) rfl,
      hostAccess_regRead32 hb (r := .reg .argNch) rfl, hostAccess_regRead32 hb (r := .reg .argRate) rfl,
      hostAccess_regRead32 hb (r := .reg .ilvLen) rfl, hostAccess_regRead32 hb (r := .reg .outLen) rfl,
      hostAccess_regRead32 hb (r := .reserved) rfl, nofun⟩
  · exact (reservedOffsetsReadZeroIgnoreWrites s o 0 hb h4 (.inr ⟨h1, h2⟩)).1

end Sys2Proof.Machine
end

section
/-! PROOFS. The host's accesses to PLANE, ILV and OUT, and reads of cells that hold no value (20_memory.md R60 to R62,
R69). -/

namespace Sys2Proof.Machine

/-! ### The host's memory primitives outside the BUSY window -/

theorem cellRead_badAccess_iff {s : State} {r : Bool} {d : Option Datum} :
    cellRead s r d = .fault .badAccess ↔ r = false := by
  cases r <;> cases d <;> simp [cellRead]

section
variable {s : State} (hb : s.busy = none)
include hb

theorem hostAccess_planeWrite (j i : Nat) (v : F64) : hostAccess (.planeWrite j i v) s =
    if j < s.params.nchMax ∧ i < s.params.framesMax then
      .next { s with plane := Memory.write s.plane (planeIndex j i) v }
    else .fault .badAccess := by
  rw [hostAccess_idle _ hb, accessEffect]
  simp only [planeInRange_iff]

theorem hostAccess_ilvWrite (k : Nat) (v : F64) : hostAccess (.ilvWrite k v) s =
    if k < s.params.ilvMax then .next { s with ilv := Memory.write s.ilv k v } else .fault .badAccess :=
  hostAccess_idle _ hb

theorem hostAccess_planeRead {j i : Nat} (hj : j < s.params.nchMax) (hi : i < s.params.framesMax) :
    hostAccess (.planeRead j i) s = cellRead s true ((Memory.read s.plane (planeIndex j i)).map Datum.cell) := by
  rw [hostAccess_idle _ hb, accessEffect, planeInRange_iff.2 ⟨hj, hi⟩]

theorem hostAccess_ilvRead {k : Nat} (hk : k < s.params.ilvMax) :
    hostAccess (.ilvRead k) s = cellRead s true ((Memory.read s.ilv k).map Datum.cell) := by
  rw [hostAccess_idle _ hb, accessEffect, decide_eq_true hk]

theorem hostAccess_outRead {b : Nat} (hlt : b < s.params.outMax) :
    hostAccess (.outRead b) s = cellRead s true ((Memory.read s.out b).map Datum.byte) := by
  rw [hostAccess_idle _ hb, accessEffect, decide_eq_true hlt]

theorem planeRead_badAccess_iff (j i : Nat) : hostAccess (.planeRead j i) s = .fault .badAccess ↔
    ¬ (j < s.params.nchMax ∧ i < s.params.framesMax) := by
  rw [hostAccess_idle _ hb, accessEffect, cellRead_badAccess_iff, ← planeInRange_iff, Bool.not_eq_true]

theorem ilvRead_badAccess_iff (k : Nat) : hostAccess (.ilvRead k) s = .fault .badAccess ↔ ¬ k < s.params.ilvMax := by
  rw [hostAccess_idle _ hb, accessEffect, cellRead_badAccess_iff, decide_eq_false_iff_not]

theorem outRead_badAccess_iff (b : Nat) : hostAccess (.outRead b) s = .fault .badAccess ↔ ¬ b < s.params.outMax := by
  rw [hostAccess_idle _ hb, accessEffect, cellRead_badAccess_iff, decide_eq_false_iff_not]

end

/-- Settles O15: each primitive by its own lemma; `hostAccess_keeps` for what no host access but a CMD write changes. -/
theorem memoryPrimitivesAccessTheirCell : Obligations.MemoryPrimitivesAccessTheirCell := by
  unfold Obligations.MemoryPrimitivesAccessTheirCell
  intro s j i k b v y hb
  refine ⟨hostAccess_planeWrite hb j i v, hostAccess_ilvWrite hb k v, planeRead_badAccess_iff hb j i,
    ilvRead_badAccess_iff hb k, outRead_badAccess_iff hb b, fun hj hi hv => ?_, fun hk hv => ?_, fun hlt hy => ?_,
    fun a t hc h => ?_⟩
  · rw [hostAccess_planeRead hb hj hi, hv]
    rfl
  · rw [hostAccess_ilvRead hb hk, hv]
    rfl
  · rw [hostAccess_outRead hb hlt, hy]
    rfl
  · obtain ⟨-, -, hcoef, hdelay, -, hout, -⟩ := hostAccess_keeps hc h
    exact ⟨hout, hdelay, hcoef⟩

/-- Settles O16: the cell written is read back, and another cell of PLANE has another index. -/
theorem hostCellWriteThenReads : Obligations.HostCellWriteThenReads := by
  unfold Obligations.HostCellWriteThenReads
  refine ⟨fun s j i v hb hj hi => ?_, fun s k v hb hk => ?_⟩
  · refine ⟨_, (hostAccess_planeWrite hb j i v).trans (if_pos ⟨hj, hi⟩), rfl, ?_, fun j' i' hj' hne => ?_⟩
    · rw [hostAccess_planeRead (s := { s with plane := Memory.write s.plane (planeIndex j i) v }) hb hj hi,
        Memory.read_write_same]
      rfl
    · refine Memory.read_write_other _ _ _ _ fun heq => ?_
      obtain ⟨rfl, rfl⟩ := planeIndex_inj (hj'.trans_le s.params.nchMax_le) (hj.trans_le s.params.nchMax_le) heq
      simp at hne
  · refine ⟨_, (hostAccess_ilvWrite hb k v).trans (if_pos hk), rfl, ?_, fun k' => Memory.read_write_other _ _ _ _⟩
    rw [hostAccess_ilvRead (s := { s with ilv := Memory.write s.ilv k v }) hb hk, Memory.read_write_same]
    rfl

/-! ### Cells that hold no value -/

theorem exec_ilvRun_uninit {s : State} {j i : Nat} (hCn : s.argNch.toNat ≤ s.params.nchMax)
    (hF : s.argNframes.toNat ≤ s.params.framesMax) (hj : j < s.argNch.toNat) (hi : i < s.argNframes.toNat)
    (hnone : Memory.read s.plane (planeIndex j i) = none) : exec .ilvRun s = .fault .uninitRead := by
  have hchk := ilvChecks_none.2 ⟨Nat.zero_lt_of_lt hj, hCn, hF⟩
  have hcells := interleaveCells_none.2 ⟨j, i, hj, hi, hnone⟩
  rcases execIlvRun_cases s with ⟨e, he, -⟩ | ⟨-, -, h⟩ | ⟨cells, -, hc, -⟩
  · cases hchk.symm.trans he
  · exact h
  · cases hcells.symm.trans hc

theorem exec_wavEnc_uninit {s : State} {k : Nat}
    (hchk : wavChecks s.params s.ilvLen.toNat s.argNch.toNat s.argRate.toNat = none) (hk : k < s.ilvLen.toNat)
    (hnone : Memory.read s.ilv k = none) : exec .wavEnc s = .fault .uninitRead := by
  have hS := ilvSamples_none.2 ⟨k, hk, hnone⟩
  rcases execWavEnc_cases s with ⟨e, he, -⟩ | ⟨-, -, h⟩ | ⟨S, -, hc, -, -⟩ | ⟨S, -, hc, -, -⟩
  · cases hchk.symm.trans he
  · exact h
  · cases hS.symm.trans hc
  · cases hS.symm.trans hc

/-- Settles O17: the host's reads in range, and the commands once their checks have passed. -/
theorem unwrittenCellReadFaults : Obligations.UnwrittenCellReadFaults := by
  unfold Obligations.UnwrittenCellReadFaults
  refine ⟨fun s j i hb hj hi hnone => ?_, fun s k hb hk hnone => ?_, fun s b hb hlt hnone => ?_,
    fun s j i => exec_ilvRun_uninit, fun s k hCn hRate hCn' hbytes hN hmax hk hnone => ?_⟩
  · rw [hostAccess_planeRead hb hj hi, hnone]
    rfl
  · rw [hostAccess_ilvRead hb hk, hnone]
    rfl
  · rw [hostAccess_outRead hb hlt, hnone]
    rfl
  · exact exec_wavEnc_uninit (wavChecks_none.2 ⟨⟨hCn, hRate, hCn', hbytes, hN⟩, hmax⟩) hk hnone

end Sys2Proof.Machine
end

section
/-! PROOFS. The command word: decoding against encoding, the CMD write and the pseudo-instructions (30_encoding.md R81
to R90). -/

namespace Sys2Proof

open Machine

/-! ### Decoding and encoding -/

/-- With RSVD = 0 a word is made of its CH and its OP (30_encoding.md R82). -/
theorem commandWord_fields {w : Word} (h : rsvdField w = 0) : commandWord (chField w) (opField w) = w := by
  have hrsvd : w.toNat / 65536 = 0 := by rw [← rsvdField_toNat, h]; rfl
  apply BitVec.eq_of_toNat_eq
  rw [commandWord_toNat, chField_toNat, opField_toNat]
  omega

/-- Each test of the decode fixes the fields that the encoding of its command writes (30_encoding.md R82, R85). -/
theorem decode_ok_fields {w : Word} {i : Instr} (h : decode w = .ok i) :
    rsvdField w = 0 ∧ i.wellFormed = true ∧ encode i = commandWord (chField w) (opField w) := by
  unfold decode at h
  split_ifs at h with hrsvd hproc hch hcfg hrst hilv henc <;> obtain rfl := Except.ok.inj h <;>
    refine ⟨not_not.1 hrsvd, ?_⟩
  · have hle : (chField w).toNat ≤ 255 := Nat.le_of_lt_succ (chField w).isLt
    exact ⟨decide_eq_true hle, by rw [encode, BitVec.ofNat_toNat, BitVec.setWidth_eq, hproc]⟩
  · exact ⟨rfl, by rw [not_not.1 hch, hcfg]; rfl⟩
  · exact ⟨rfl, by rw [not_not.1 hch, hrst]; rfl⟩
  · exact ⟨rfl, by rw [not_not.1 hch, hilv]; rfl⟩
  · exact ⟨rfl, by rw [not_not.1 hch, henc]; rfl⟩

/-- The illegal encodings of 30_encoding.md R86. -/
theorem decode_illegal {w : Word} (h : w.toNat / 65536 ≠ 0 ∨ w.toNat % 256 ∉ [0x01, 0x02, 0x03, 0x10, 0x20] ∨
    (w.toNat % 256 ≠ 0x03 ∧ w.toNat / 256 % 256 ≠ 0)) : ∃ e, decode w = .error e := by
  rw [decode_eq_numeric]
  rcases h with hrsvd | hop | ⟨hop, hch⟩
  · exact ⟨_, if_pos hrsvd⟩
  · simp only [List.mem_cons, List.not_mem_nil, or_false, not_or] at hop
    obtain ⟨hcfg, hrst, hproc, hilv, henc⟩ := hop
    rw [if_neg hproc, if_neg hcfg, if_neg hrst, if_neg hilv, if_neg henc]
    split_ifs <;> exact ⟨_, rfl⟩
  · rw [if_neg hop, if_pos hch]
    split_ifs <;> exact ⟨_, rfl⟩

/-- Settles O1: the fields of each command's word select its own test. -/
theorem decodeOfEncodeIsTheCommand : Obligations.DecodeOfEncodeIsTheCommand := by
  unfold Obligations.DecodeOfEncodeIsTheCommand
  exact fun _ => decode_encode

/-- Settles O2: the tests fix every field of the word, and a word is its fields. -/
theorem decodedWordIsTheCommandsOwnWord : Obligations.DecodedWordIsTheCommandsOwnWord := by
  unfold Obligations.DecodedWordIsTheCommandsOwnWord
  intro w i h
  obtain ⟨hrsvd, hwf, hword⟩ := decode_ok_fields h
  exact ⟨hwf, hword.trans (commandWord_fields hrsvd)⟩

/-- Settles O3: the nine words decode by evaluation. -/
theorem writtenOutWordsDecode : Obligations.WrittenOutWordsDecode := by
  unfold Obligations.WrittenOutWordsDecode
  decide

namespace Machine

/-! ### The CMD write -/

theorem hostAccess_illegalWord {s : State} {w : Word} {e : DecodeError} (hb : s.busy = none)
    (hd : decode w = .error e) :
    hostAccess (.regWrite32 0x00 w) s = .next (raiseError (startCommand s) .illegalCommand) := by
  rw [hostAccess_idle _ hb]
  show commandWrite w s = _
  rw [commandWrite, hd]

/-- Settles O4: the tests of the decode on the numeric fields, each with the CMD write of a command or of an illegal
word. -/
theorem cmdWritePerformsTheDecodedCommand : Obligations.CmdWritePerformsTheDecodedCommand := by
  unfold Obligations.CmdWritePerformsTheDecodedCommand
  intro s w hb op ch
  refine ⟨startCommand s, rfl, rfl, ?_⟩
  have hd := decode_eq_numeric w
  split_ifs at hd ⊢ with hrsvd hproc hch hcfg hrst hilv henc
  · exact hostAccess_illegalWord hb hd
  · exact hostAccess_cmdWrite hb hd
  · exact hostAccess_illegalWord hb hd
  · exact hostAccess_cmdWrite hb hd
  · exact hostAccess_cmdWrite hb hd
  · exact hostAccess_cmdWrite hb hd
  · exact hostAccess_cmdWrite hb hd
  · exact hostAccess_illegalWord hb hd

/-- Settles O5: an illegal word decodes to an error, and its CMD write opens the window and sets ERR. -/
theorem illegalWordOnlySetsErrSeven : Obligations.IllegalWordOnlySetsErrSeven := by
  unfold Obligations.IllegalWordOnlySetsErrSeven
  refine ⟨rfl, decode_illegal (by decide), fun s w hb hw => ?_⟩
  obtain ⟨e, hd⟩ := decode_illegal hw
  exact ⟨_, hostAccess_illegalWord hb hd, rfl, rfl, rfl⟩

/-! ### Pseudo-instructions -/

/-- The shifted CH and the OP have no bit in common, so their disjunction is BQ_PROC's word (30_encoding.md R90). -/
theorem bqProcWord_eq_encode {ch : Nat} (h : ch ≤ 255) :
    (BitVec.ofNat 32 ch <<< 8) ||| 0x03#32 = encode (.bqProc ch) := by
  have hshift : (BitVec.ofNat 32 ch <<< 8).toNat = ch <<< 8 := by
    rw [BitVec.toNat_shiftLeft, BitVec.toNat_ofNat, Nat.shiftLeft_eq, Nat.shiftLeft_eq]
    omega
  have hch : (BitVec.ofNat 8 ch).toNat = ch := Nat.mod_eq_of_lt (Nat.lt_succ_of_le h)
  have hsum : ch <<< 8 ||| 0x03 = ch * 256 + 0x03 := by
    rw [← Nat.shiftLeft_add_eq_or_of_lt (by decide), Nat.shiftLeft_eq]
  apply BitVec.eq_of_toNat_eq
  rw [BitVec.toNat_or, hshift, encode, commandWord_toNat, hch]
  exact hsum

theorem pseudoBqProc_eq {ch : Nat} (h : ch ≤ 255) : pseudoBqProc ch = wr32 0x00 (encode (.bqProc ch)) :=
  congrArg (wr32 0x00) (bqProcWord_eq_encode h)

/-- Settles O57: the written-out words are the encodings, and with a channel `pseudoBqProc_eq`. -/
theorem pseudoInstructionsWriteTheirCommandWord : Obligations.PseudoInstructionsWriteTheirCommandWord := by
  unfold Obligations.PseudoInstructionsWriteTheirCommandWord
  refine ⟨rfl, rfl, rfl, rfl, fun _ => pseudoBqProc_eq, fun _ _ _ => rfl, rfl, fun ch x hch => ?_, fun _ _ => rfl,
    fun _ _ => rfl⟩
  rw [pseudoProc, pseudoBqProc_eq hch]

end Machine

end Sys2Proof
end

section
/-! PROOFS. BQ_CFG: the checks and the coefficients, and what they depend on (40_biquad.md R101 to R105, R112). -/

namespace Sys2Proof.Machine

/-! ### When the coefficients of `configure` exist -/

theorem paramsPass_iff {f0 q fs : F64} : paramsPass f0 q fs = true ↔
    isFinite f0 = true ∧ isFinite q = true ∧ isFinite fs = true ∧ fgt q zeroF = true ∧ fgt f0 zeroF = true ∧
      fgt fs (fmul twoF f0) = true := by
  simp [paramsPass, and_assoc]

/-- The checks of 40_biquad.md R105 all pass exactly where `configure` has coefficients, and these are the quotients. -/
theorem configureCoeffs_eq_some_iff {P : Params} {f0 q fs : F64} {n : Coeffs} : configureCoeffs P f0 q fs = some n ↔
    paramsPass f0 q fs = true ∧ fgt (design P f0 q fs).alpha zeroF = true ∧
      n = normalised (unnormalised P q (design P f0 q fs).alpha (design P f0 q fs).c) ∧ coeffsFinite n = true := by
  refine ⟨configureCoeffs_some, ?_⟩
  rintro ⟨hpass, hgt, rfl, hfin⟩
  simp [configureCoeffs, hpass, hgt, hfin]

theorem configureCoeffs_eq_none_iff {P : Params} {f0 q fs : F64} : configureCoeffs P f0 q fs = none ↔
    paramsPass f0 q fs = false ∨ fgt (design P f0 q fs).alpha zeroF = false ∨
      coeffsFinite (normalised (unnormalised P q (design P f0 q fs).alpha (design P f0 q fs).c)) = false := by
  unfold configureCoeffs
  dsimp only
  split_ifs with hpass hgt hfin <;> simp [*]

/-- 40_biquad.md R102 in one formula for both variants. -/
theorem unnormalised_eq (P : Params) (q alpha c : F64) : unnormalised P q alpha c =
    let b0 := if P.bpVariant = .peak0dB then alpha else fmul q alpha
    ⟨b0, zeroF, fneg b0, fadd oneF alpha, fmul negTwoF c, fsub oneF alpha⟩ := by
  unfold unnormalised
  cases P.bpVariant <;> simp

theorem exec_bqCfg_of_some {s : State} {n : Coeffs} (h : configureCoeffs s.params s.argF0 s.argQ s.argFs = some n) :
    exec .bqCfg s = .next { s with coef := n, configured := true, err := .ok } := by
  simp only [exec, execBqCfg, h]
  rfl

theorem exec_bqCfg_of_none {s : State} (h : configureCoeffs s.params s.argF0 s.argQ s.argFs = none) :
    exec .bqCfg s = .next { s with err := .invalidFilterParameters } := by
  simp only [exec, execBqCfg, h]
  rfl

/-- Settles O22: the checks pass, so `configure` has the quotients, which are R103's for either variant. -/
theorem bqCfgHoldsTheNormalisedCoefficients : Obligations.BqCfgHoldsTheNormalisedCoefficients := by
  unfold Obligations.BqCfgHoldsTheNormalisedCoefficients
  intro s f0 q fs w c alpha b0 a0 a1 a2 n hf0 hq hfs hqpos hf0pos hnyquist halpha h0 h1 h2 h3 h4
  have hn : n = normalised (unnormalised s.params q alpha c) := by
    rw [unnormalised_eq]
    rfl
  exact exec_bqCfg_of_some (configureCoeffs_eq_some_iff.2
    ⟨paramsPass_iff.2 ⟨hf0, hq, hfs, hqpos, hf0pos, hnyquist⟩, halpha, hn, (coeffsFinite_iff n).2 ⟨h0, h1, h2, h3, h4⟩⟩)

/-! ### The sign of fs -/

theorem fgt_iff {a b : F64} (ha : isNan a = false) (hb : isNan b = false) :
    fgt a b = true ↔ orderKey b < orderKey a :=
  flt_iff hb ha

theorem not_isNan_of_fgt {a b : F64} (h : fgt a b = true) : isNan a = false ∧ isNan b = false := by
  simp only [fgt, flt, Bool.and_eq_true, Bool.not_eq_true'] at h
  obtain ⟨⟨hb, ha⟩, -⟩ := h
  exact ⟨ha, hb⟩

theorem orderKey_zeroF : orderKey zeroF = 0 := by decide

theorem orderKey_nonneg {x : F64} (h : signBit x = false) : 0 ≤ orderKey x := by
  rw [orderKey_eq_applySign, h, applySign_false]
  exact Int.natCast_nonneg _

/-- What lies above a value of clear sign lies above +0.0. -/
theorem fgt_zeroF_of_fgt {a b : F64} (h : fgt a b = true) (hs : signBit b = false) : fgt a zeroF = true := by
  obtain ⟨ha, hb⟩ := not_isNan_of_fgt h
  rw [fgt_iff ha (by decide), orderKey_zeroF]
  exact (orderKey_nonneg hs).trans_lt ((fgt_iff ha hb).1 h)

/-- Settles O23: (a) to (f) are the conjuncts of the model's checks, and `2 × f0` has the sign of f0. -/
theorem bqCfgRejectsExactlyTheBadParameters : Obligations.BqCfgRejectsExactlyTheBadParameters := by
  unfold Obligations.BqCfgRejectsExactlyTheBadParameters
  refine ⟨rfl, fun s => ?_, fun f0 fs _ _ hf0 hfs => ?_⟩
  · intro f0 q fs d n bad
    have hbad : bad ↔ configureCoeffs s.params s.argF0 s.argQ s.argFs = none := by
      rw [configureCoeffs_eq_none_iff]
      simp only [paramsPass, coeffsFinite, Bool.and_eq_false_iff, or_assoc]
      rfl
    refine ⟨fun h => exec_bqCfg_of_none (hbad.1 h), fun h => ?_⟩
    obtain ⟨n, hn⟩ := Option.ne_none_iff_exists'.1 (hbad.not.1 h)
    exact ⟨_, exec_bqCfg_of_some hn, rfl, rfl⟩
  · obtain ⟨-, hnan⟩ := not_isNan_of_fgt hfs
    obtain ⟨-, hsign⟩ := fgt_zeroF hf0
    have hvalid : ¬ MulInvalid twoF f0 := fun h => Bool.eq_false_iff.1 hnan (fmul_invalid h)
    have hdouble : signBit (fmul twoF f0) = false := by
      rw [(fmul_valid hvalid).2, hsign]
      decide
    exact fgt_zeroF_of_fgt hfs hdouble

/-- Settles O24: the shape of `configure`'s coefficients, since a failing BQ_CFG leaves ERR other than 0. -/
theorem configuredCoefficientsAreAntisymmetric : Obligations.ConfiguredCoefficientsAreAntisymmetric := by
  unfold Obligations.ConfiguredCoefficientsAreAntisymmetric
  intro s t h hok
  rcases execBqCfg_cases h with ⟨n, hn, rfl⟩ | ⟨-, rfl⟩
  · obtain ⟨-, hcentre, hanti⟩ := configureCoeffs_shape hn
    exact ⟨hcentre, hanti⟩
  · cases hok

/-! ### What the coefficients depend on -/

theorem design_congr {P P' : Params} (h : P.trig = P'.trig) (f0 q fs : F64) : design P f0 q fs = design P' f0 q fs := by
  simp only [design, sinOf, cosOf, trigPoint, h]

theorem configureCoeffs_congr {P P' : Params} (hv : P.bpVariant = P'.bpVariant) (ht : P.trig = P'.trig)
    (f0 q fs : F64) : configureCoeffs P f0 q fs = configureCoeffs P' f0 q fs := by
  simp only [configureCoeffs, design_congr ht, unnormalised_eq, hv]

theorem magnitude_of_isInf {x : F64} (h : isInf x = true) : magnitude x = infMagnitude := of_decide_eq_true h

/-- 1.0 is a neutral factor: the exact product is representable, so its rounding is exact. -/
theorem fmul_oneF {x : F64} (h : isNan x = false) : fmul oneF x = x := by
  have hunits : unitsMag oneF = 2 ^ 1074 := by
    rw [unitsMag_of_magnitude (k := 1022) (m := 2 ^ 52) (by decide) (by decide) (by decide), ← Nat.pow_add]
  have hsign : (signBit oneF != signBit x) = signBit x := Bool.false_bne _
  cases hi : isInf x with
  | true =>
    have hvalid : ¬ MulInvalid oneF x := (not_mulInvalid_iff _ _).2
      ⟨by decide, h, fun hone => absurd hone (by decide), fun hone => absurd hone (by decide)⟩
    rw [fmul_inf hvalid (.inr hi), hsign, ← magnitude_of_isInf hi, pack_signBit_magnitude]
  | false =>
    have hfin : isFinite x = true := isFinite_of_not h hi
    rw [fmul_finite (by decide) hfin, hsign, hunits, Nat.mul_comm,
      roundUnits_exact _ (by positivity) hfin, pack_signBit_magnitude]

theorem unnormalised_unitQ (P : Params) {alpha : F64} (h : isNan alpha = false) (c : F64) :
    unnormalised P oneF alpha c = ⟨alpha, zeroF, fneg alpha, fadd oneF alpha, fmul negTwoF c, fsub oneF alpha⟩ := by
  rw [unnormalised_eq, fmul_oneF h, ite_self]

/-- With Q = 1.0 the variant does not matter: where α passes its check, Q·α is α (40_biquad.md R102). -/
theorem configureCoeffs_unitQ {P P' : Params} (ht : P.trig = P'.trig) (f0 fs : F64) :
    configureCoeffs P f0 oneF fs = configureCoeffs P' f0 oneF fs := by
  unfold configureCoeffs
  rw [design_congr ht]
  cases halpha : fgt (design P' f0 oneF fs).alpha zeroF with
  | true =>
    obtain ⟨hnan, -⟩ := fgt_zeroF halpha
    simp only [unnormalised_unitQ _ hnan]
  | false => simp only [halpha, Bool.false_eq_true, if_false]

/-- Two completions of BQ_CFG with the same result of `configure` agree in ERR, and in the rest of what they write as
far as the states did or both succeed. -/
theorem exec_bqCfg_agree {s s' t t' : State}
    (hc : configureCoeffs s.params s.argF0 s.argQ s.argFs = configureCoeffs s'.params s'.argF0 s'.argQ s'.argFs)
    (h : exec .bqCfg s = .next t) (h' : exec .bqCfg s' = .next t') :
    t.err = t'.err ∧ (t.err = .ok ∨ s.coef = s'.coef → t.coef = t'.coef) ∧
      (t.err = .ok ∨ s.configured = s'.configured → t.configured = t'.configured) := by
  cases hn : configureCoeffs s.params s.argF0 s.argQ s.argFs with
  | some n =>
    obtain rfl := Host.Outcome.next.inj ((exec_bqCfg_of_some hn).symm.trans h)
    obtain rfl := Host.Outcome.next.inj ((exec_bqCfg_of_some (hc.symm.trans hn)).symm.trans h')
    exact ⟨rfl, fun _ => rfl, fun _ => rfl⟩
  | none =>
    obtain rfl := Host.Outcome.next.inj ((exec_bqCfg_of_none hn).symm.trans h)
    obtain rfl := Host.Outcome.next.inj ((exec_bqCfg_of_none (hc.symm.trans hn)).symm.trans h')
    exact ⟨rfl, Or.rec nofun id, Or.rec nofun id⟩

/-- Settles O25: the two states have the same result of `configure`, and agree in what a failing BQ_CFG leaves. -/
theorem unitQMakesTheVariantsAgree : Obligations.UnitQMakesTheVariantsAgree := by
  unfold Obligations.UnitQMakesTheVariantsAgree
  intro s t u hq ht hu
  have hc : configureCoeffs { s.params with bpVariant := .peak0dB } s.argF0 s.argQ s.argFs =
      configureCoeffs { s.params with bpVariant := .skirt } s.argF0 s.argQ s.argFs :=
    hq.symm ▸ configureCoeffs_unitQ (by rfl) s.argF0 s.argFs
  obtain ⟨herr, hcoef, hconf⟩ := exec_bqCfg_agree hc ht hu
  exact ⟨hcoef (.inr rfl), hconf (.inr rfl), herr⟩

end Sys2Proof.Machine
end

section
/-! PROOFS. BQ_RST and BQ_PROC: the difference equation, the history of a channel, and what they depend on
(40_biquad.md R107 to R113). -/

namespace Sys2Proof.Machine

/-! ### BQ_RST -/

/-- The delay lines of `n` channels after BQ_RST (40_biquad.md R107). -/
theorem getElem?_replicate_zero {n ch : Nat} (h : ch < n) :
    (List.replicate n DelayLine.zero)[ch]? = some DelayLine.zero := by
  rw [List.getElem?_replicate, if_pos h]

/-- Settles O26: the next state is written in `execBqRst_eq`, and its delay lines are all cleared. -/
theorem bqRstClearsEveryDelayLine : Obligations.BqRstClearsEveryDelayLine := by
  unfold Obligations.BqRstClearsEveryDelayLine
  exact fun s => ⟨_, execBqRst_eq s, rfl, fun _ => getElem?_replicate_zero, rfl⟩

/-! ### BQ_PROC -/

theorem exec_bqProc_of_ge {s : State} {ch : Nat} (h : s.params.nchMax ≤ ch) :
    exec (.bqProc ch) s = .next { s with err := .channelRange } :=
  congrArg Host.Outcome.next (if_pos h)

theorem exec_bqProc_of_unconfigured {s : State} {ch : Nat} (h : ch < s.params.nchMax) (hc : s.configured = false) :
    exec (.bqProc ch) s = .next { s with err := .notConfigured } :=
  congrArg Host.Outcome.next ((if_neg h.not_ge).trans (if_pos hc))

theorem exec_bqProc_of_configured {s : State} {ch : Nat} (h : ch < s.params.nchMax) (hc : s.configured = true) :
    exec (.bqProc ch) s = .next (processSample s ch) :=
  congrArg Host.Outcome.next ((if_neg h.not_ge).trans (if_neg (ne_false_of_eq_true hc)))

/-- Settles O28: the two failing branches of BQ_PROC. -/
theorem bqProcErrorsInOrder : Obligations.BqProcErrorsInOrder := by
  unfold Obligations.BqProcErrorsInOrder
  exact ⟨rfl, rfl, fun _ _ => ⟨exec_bqProc_of_ge, exec_bqProc_of_unconfigured⟩⟩

/-- The output y of 40_biquad.md R109 for the sample `x` on the history `d`. -/
def outputOf (n : Coeffs) (d : DelayLine) (x : F64) : F64 := biquadEval n x d.x1 d.x2 d.y1 d.y2

/-- The history after the sample `x` (40_biquad.md R110). -/
def historyAfter (n : Coeffs) (d : DelayLine) (x : F64) : DelayLine := delayUpdate d x (outputOf n d x)

/-- A configured stage with coefficients `n`, whose channel `ch` exists and has the history `d`. -/
structure ChannelHolds (ch : Nat) (n : Coeffs) (d : DelayLine) (s : State) : Prop where
  channel : ch < s.params.nchMax
  configured : s.configured = true
  coef : s.coef = n
  history : s.delay[ch]? = some d

theorem ChannelHolds.withArgX {ch : Nat} {n : Coeffs} {d : DelayLine} {s : State} (h : ChannelHolds ch n d s)
    (x : F64) : ChannelHolds ch n d { s with argX := x } :=
  ⟨h.channel, h.configured, h.coef, h.history⟩

/-- On such a channel BQ_PROC gives the output and shifts the history. -/
theorem ChannelHolds.exec_bqProc {ch : Nat} {n : Coeffs} {d : DelayLine} {s : State} (h : ChannelHolds ch n d s) :
    exec (.bqProc ch) s = .next { s with
      resY := outputOf n d s.argX, delay := s.delay.set ch (historyAfter n d s.argX), err := .ok } := by
  obtain ⟨hch, hconf, rfl, hd⟩ := h
  obtain rfl := readDelay_of_getElem? hd
  exact exec_bqProc_of_configured hch hconf

theorem ChannelHolds.after_own_sample {ch : Nat} {n : Coeffs} {d : DelayLine} {s t : State}
    (h : ChannelHolds ch n d s) (ht : exec (.bqProc ch) s = .next t) :
    ChannelHolds ch n (historyAfter n d s.argX) t := by
  obtain rfl := Host.Outcome.next.inj (h.exec_bqProc.symm.trans ht)
  exact ⟨h.channel, h.configured, h.coef, by rw [List.getElem?_set_self', h.history]; rfl⟩

/-- BQ_PROC on another channel, whether that exists or not, leaves this one as it is. -/
theorem ChannelHolds.after_other_channel {ch c : Nat} {n : Coeffs} {d : DelayLine} {s t : State}
    (h : ChannelHolds ch n d s) (hc : c ≠ ch) (ht : exec (.bqProc c) s = .next t) : ChannelHolds ch n d t := by
  cases exec_effect ht with
  | fails _ e _ => exact ⟨h.channel, h.configured, h.coef, h.history⟩
  | processes _ d' y => exact ⟨h.channel, h.configured, h.coef, (List.getElem?_set_ne hc).trans h.history⟩

/-- Settles O27: `ChannelHolds.exec_bqProc`, with the list of delay lines changed at the channel only. -/
theorem bqProcComputesTheDifferenceEquation : Obligations.BqProcComputesTheDifferenceEquation := by
  unfold Obligations.BqProcComputesTheDifferenceEquation
  intro s ch d hch hconf hd y
  have hs : ChannelHolds ch s.coef d s := ⟨hch, hconf, rfl, hd⟩
  exact ⟨_, hs.exec_bqProc, rfl, rfl, (hs.after_own_sample hs.exec_bqProc).history,
    fun c hc => List.getElem?_set_ne hc.symm, rfl⟩

/-! ### NaN (40_biquad.md R111) -/

/-- Every product reaches the output through sums and differences, and these keep NaN. -/
theorem isNan_outputOf_of_product {n : Coeffs} {d : DelayLine} {x : F64}
    (h : isNan (fmul n.c0 x) = true ∨ isNan (fmul n.c1 d.x1) = true ∨ isNan (fmul n.c2 d.x2) = true ∨
      isNan (fmul n.c3 d.y1) = true ∨ isNan (fmul n.c4 d.y2) = true) : isNan (outputOf n d x) = true := by
  rw [outputOf, biquadEval]
  rcases h with h | h | h | h | h
  · exact isNan_fsub (.inl (isNan_fsub (.inl (isNan_fadd (.inl (isNan_fadd (.inl h)))))))
  · exact isNan_fsub (.inl (isNan_fsub (.inl (isNan_fadd (.inl (isNan_fadd (.inr h)))))))
  · exact isNan_fsub (.inl (isNan_fsub (.inl (isNan_fadd (.inr h)))))
  · exact isNan_fsub (.inl (isNan_fsub (.inr h)))
  · exact isNan_fsub (.inr h)

theorem isNan_fmul_right (a : F64) {b : F64} (h : isNan b = true) : isNan (fmul a b) = true := isNan_fmul (.inr h)

theorem isNan_outputOf (n : Coeffs) {d : DelayLine} {x : F64}
    (h : isNan x = true ∨ isNan d.x1 = true ∨ isNan d.x2 = true ∨ isNan d.y1 = true ∨ isNan d.y2 = true) :
    isNan (outputOf n d x) = true :=
  isNan_outputOf_of_product (h.imp (isNan_fmul_right _) (.imp (isNan_fmul_right _) (.imp (isNan_fmul_right _)
    (.imp (isNan_fmul_right _) (isNan_fmul_right _)))))

/-- Settles O29: the NaN output stands in Y1, from where it reaches the next output. -/
theorem nanPoisonsItsChannel : Obligations.NanPoisonsItsChannel := by
  unfold Obligations.NanPoisonsItsChannel
  intro s ch d hch hconf hd hnan
  have hs : ChannelHolds ch s.coef d s := ⟨hch, hconf, rfl, hd⟩
  have ht := hs.after_own_sample hs.exec_bqProc
  have hy : isNan (outputOf s.coef d s.argX) = true := isNan_outputOf s.coef hnan
  refine ⟨_, _, hs.exec_bqProc, hy, ht.history, hy, fun x => ⟨_, (ht.withArgX x).exec_bqProc, ?_⟩⟩
  exact isNan_outputOf _ (.inr (.inr (.inr (.inl hy))))

/-! ### A pass over several channels (40_biquad.md R113) -/

/-- The outputs of one channel for its own samples, from the coefficients and its history alone. -/
def filterRun (n : Coeffs) : DelayLine → List F64 → List F64
  | _, [] => []
  | d, x :: xs => outputOf n d x :: filterRun n (historyAfter n d x) xs

/-- The samples that a list of (channel, sample) pairs gives to the channel `ch`, oldest first. -/
def samplesOf (ch : Nat) (l : List (Nat × F64)) : List F64 := (l.filter (fun p => decide (p.1 = ch))).map Prod.snd

theorem samplesOf_cons_own (ch : Nat) (x : F64) (l : List (Nat × F64)) :
    samplesOf ch ((ch, x) :: l) = x :: samplesOf ch l := by
  simp [samplesOf]

theorem samplesOf_cons_other {ch c : Nat} (h : c ≠ ch) (x : F64) (l : List (Nat × F64)) :
    samplesOf ch ((c, x) :: l) = samplesOf ch l := by
  simp [samplesOf, h]

theorem exec_bqProc_completes (ch : Nat) (s : State) : ∃ t, exec (.bqProc ch) s = .next t := ⟨_, rfl⟩

theorem feedSample_of_exec {s t : State} {p : Nat × F64} (h : exec (.bqProc p.1) { s with argX := p.2 } = .next t) :
    feedSample s p = t := by
  rw [feedSample, h]

/-- Whatever else the state holds and whatever is fed to other channels, the outputs of a channel are its own run. -/
theorem outputsOn_eq_filterRun {ch : Nat} {n : Coeffs} {d : DelayLine} {s : State} (l : List (Nat × F64))
    (h : ChannelHolds ch n d s) : outputsOn ch l s = filterRun n d (samplesOf ch l) := by
  induction l generalizing d s with
  | nil => rfl
  | cons p l ih =>
    obtain ⟨c, x⟩ := p
    have hx : ChannelHolds ch n d { s with argX := x } := h.withArgX x
    obtain ⟨t, ht⟩ := exec_bqProc_completes c { s with argX := x }
    have hfeed : feedSample s (c, x) = t := feedSample_of_exec ht
    by_cases hc : c = ch
    · subst hc
      have hy : t.resY = outputOf n d x := by
        obtain rfl := Host.Outcome.next.inj (hx.exec_bqProc.symm.trans ht)
        rfl
      simp [outputsOn, hfeed, hy, ih (hx.after_own_sample ht), samplesOf_cons_own, filterRun]
    · simp [outputsOn, hfeed, ih (hx.after_other_channel hc ht), samplesOf_cons_other, hc]

/-- Settles O30: either list gives the channel the same samples. -/
theorem channelOutputsIgnoreOtherChannels : Obligations.ChannelOutputsIgnoreOtherChannels := by
  unfold Obligations.ChannelOutputsIgnoreOtherChannels
  intro s ch l hlen hconf hch
  have hs : ChannelHolds ch s.coef s.delay[ch] s := ⟨hch, hconf, rfl, List.getElem?_eq_getElem (by omega)⟩
  have hsamples : samplesOf ch (l.filter (fun p => decide (p.1 = ch))) = samplesOf ch l := by
    simp only [samplesOf, List.filter_filter, Bool.and_self]
  rw [outputsOn_eq_filterRun l hs, outputsOn_eq_filterRun _ hs, hsamples]

/-! ### No hidden state (40_biquad.md R112) -/

/-- A BQ_PROC that leaves ERR 0 has processed its sample. -/
theorem exec_bqProc_ok {s t : State} {ch : Nat} (h : exec (.bqProc ch) s = .next t) (hok : t.err = .ok) :
    t = processSample s ch := by
  rcases execBqProc_cases h with ⟨-, rfl⟩ | ⟨-, -, rfl⟩ | ⟨-, -, rfl⟩
  · cases hok
  · cases hok
  · rfl

theorem processSample_congr {s s' : State} {ch : Nat} (hx : s.argX = s'.argX) (hn : s.coef = s'.coef)
    (hd : s.delay[ch]? = s'.delay[ch]?) : (processSample s ch).resY = (processSample s' ch).resY ∧
      (processSample s ch).delay[ch]? = (processSample s' ch).delay[ch]? := by
  have hread : readDelay s ch = readDelay s' ch := by simp only [readDelay, List.getD_eq_getElem?_getD, hd]
  simp [processSample, List.getElem?_set_self', hx, hn, hd, hread]

/-- The checks of BQ_PROC look at CONFIGURED and NCH_MAX only (40_biquad.md R108). -/
theorem exec_bqProc_err {s t : State} {ch : Nat} (h : exec (.bqProc ch) s = .next t) :
    t.err = if s.params.nchMax ≤ ch then .channelRange else if s.configured = false then .notConfigured else .ok := by
  rcases execBqProc_cases h with ⟨hch, rfl⟩ | ⟨hch, hconf, rfl⟩ | ⟨hch, hconf, rfl⟩
  · rw [if_pos hch]
  · rw [if_neg hch.not_ge, if_pos hconf]
  · rw [if_neg hch.not_ge, if_neg (ne_false_of_eq_true hconf)]
    rfl

/-- Settles O31: `configure` looks at its operands, SIN, COS and the variant, a processed sample at what
`processSample_congr` names, and the checks of BQ_PROC at CONFIGURED and NCH_MAX. -/
theorem filterResultsHaveNoHiddenState : Obligations.FilterResultsHaveNoHiddenState := by
  unfold Obligations.FilterResultsHaveNoHiddenState
  refine ⟨fun s s' t t' hf0 hq hfs hv htrig ht ht' => ?_, fun s s' ch t t' hx hn hd ht ht' hok hok' => ?_,
    fun s s' ch t t' hconf hmax ht ht' => ?_⟩
  · have hc : configureCoeffs s.params s.argF0 s.argQ s.argFs =
        configureCoeffs s'.params s'.argF0 s'.argQ s'.argFs := by
      rw [hf0, hq, hfs, configureCoeffs_congr hv htrig]
    obtain ⟨herr, hcoef, -⟩ := exec_bqCfg_agree hc ht ht'
    exact ⟨herr, fun hok => hcoef (.inl hok)⟩
  · obtain rfl := exec_bqProc_ok ht hok
    obtain rfl := exec_bqProc_ok ht' hok'
    exact processSample_congr hx hn hd
  · rw [exec_bqProc_err ht, exec_bqProc_err ht', hconf, hmax]

/-- Settles O32: before either BQ_PROC the stage has the same coefficients and the channel a clear history. -/
theorem rstMakesThePassRepeat : Obligations.RstMakesThePassRepeat := by
  unfold Obligations.RstMakesThePassRepeat
  intro s ch hch hconf
  have hclear : (List.replicate s.params.nchMax DelayLine.zero)[ch]? = some DelayLine.zero :=
    getElem?_replicate_zero hch
  exact ⟨_, _, _, _, execBqRst_eq s, ChannelHolds.exec_bqProc ⟨hch, hconf, rfl, hclear⟩, execBqRst_eq _,
    ChannelHolds.exec_bqProc ⟨hch, hconf, rfl, hclear⟩, rfl, rfl⟩

/-! ### Signed zero and infinite input (40_biquad.md R111) -/

/-- A finite coefficient times either zero is a zero. -/
theorem isZero_fmul {a b : F64} (ha : isFinite a = true) (hb : isZero b = true) : isZero (fmul a b) = true := by
  rw [fmul_isZero ha hb, isZero_pack_zero]

theorem eq_pack_of_isZero {z : F64} (h : isZero z = true) : z = pack (signBit z) 0 := by
  have hmag : magnitude z = 0 := of_decide_eq_true h
  rw [← hmag, pack_signBit_magnitude]

theorem fadd_isZero_zeroF {z : F64} (h : isZero z = true) : fadd z zeroF = zeroF := by
  rw [eq_pack_of_isZero h]
  cases signBit z <;> decide

theorem fadd_zeroF_isZero {z : F64} (h : isZero z = true) : fadd zeroF z = zeroF := by
  rw [eq_pack_of_isZero h]
  cases signBit z <;> decide

theorem fsub_zeroF_isZero {z : F64} (h : isZero z = true) : fsub zeroF z = zeroF := by
  rw [eq_pack_of_isZero h]
  cases signBit z <;> decide

theorem fadd_inf_isZero {a z : F64} (ha : isInf a = true) (hz : isZero z = true) : fadd a z = a :=
  addWith_inf_finite _ ha (isZero_finite hz)

theorem fsub_inf_isZero {a z : F64} (ha : isInf a = true) (hz : isZero z = true) : fsub a z = a :=
  addWith_inf_finite _ ha ((isFinite_fneg z).trans (isZero_finite hz))

theorem isZero_of_fgt_zeroF {x : F64} (h : fgt x zeroF = true) : isZero x = false := by
  obtain ⟨hnan, hsign⟩ := fgt_zeroF h
  rw [fgt_iff hnan (by decide), orderKey_zeroF, orderKey_eq_applySign, hsign, applySign_false] at h
  exact decide_eq_false (by omega)

/-- A value above +0.0 times an infinity is that infinity. -/
theorem fmul_of_fgt_zeroF_isInf {a x : F64} (ha : fgt a zeroF = true) (hx : isInf x = true) : fmul a x = x := by
  obtain ⟨hnan, hsign⟩ := fgt_zeroF ha
  have hvalid : ¬ MulInvalid a x := (not_mulInvalid_iff a x).2
    ⟨hnan, isInf_not_nan hx, fun _ => isInf_not_zero hx, fun hz => by simp [isZero_of_fgt_zeroF ha] at hz⟩
  rw [fmul_inf hvalid (.inr hx), hsign, Bool.false_bne, ← magnitude_of_isInf hx, pack_signBit_magnitude]

section
variable {n : Coeffs} (hfin : coeffsFinite n = true) {x : F64}
include hfin

/-- On a clear history the products but the first are zeros, the second of them +0.0, so a first product that is a
zero leaves +0.0. -/
theorem outputOf_zero_of_isZero (hcentre : n.c1 = zeroF) (hx : isZero x = true) :
    outputOf n DelayLine.zero x = zeroF := by
  obtain ⟨h0, -, h2, h3, h4⟩ := (coeffsFinite_iff n).1 hfin
  have hz : isZero zeroF = true := by decide
  have h1 : fmul zeroF zeroF = zeroF := by
    rw [fmul_isZero (by decide) hz]
    decide
  simp only [outputOf, biquadEval, DelayLine.zero, hcentre, h1]
  rw [fadd_isZero_zeroF (isZero_fmul h0 hx), fadd_zeroF_isZero (isZero_fmul h2 hz),
    fsub_zeroF_isZero (isZero_fmul h3 hz), fsub_zeroF_isZero (isZero_fmul h4 hz)]

/-- A first product that is an infinity absorbs the zeros. -/
theorem outputOf_zero_of_isInf (hpos : fgt n.c0 zeroF = true) (hx : isInf x = true) :
    outputOf n DelayLine.zero x = x := by
  obtain ⟨-, h1, h2, h3, h4⟩ := (coeffsFinite_iff n).1 hfin
  have hz : isZero zeroF = true := by decide
  simp only [outputOf, biquadEval, DelayLine.zero]
  rw [fmul_of_fgt_zeroF_isInf hpos hx, fadd_inf_isZero hx (isZero_fmul h1 hz), fadd_inf_isZero hx (isZero_fmul h2 hz),
    fsub_inf_isZero hx (isZero_fmul h3 hz), fsub_inf_isZero hx (isZero_fmul h4 hz)]

end

/-- An infinity in X1 meets C[1] = +0.0, whatever the input. -/
theorem isNan_outputOf_of_isInf_x1 {n : Coeffs} {d : DelayLine} (hcentre : n.c1 = zeroF) (h : isInf d.x1 = true)
    (x : F64) : isNan (outputOf n d x) = true := by
  have hz : isZero n.c1 = true := by rw [hcentre]; decide
  exact isNan_outputOf_of_product (.inr (.inl (fmul_invalid (.inr (.inr (.inr ⟨hz, h⟩))))))

/-- Settles O60: the output on a clear history, and after an infinite input the infinity in X1. -/
theorem signedZeroAndInfiniteInputs : Obligations.SignedZeroAndInfiniteInputs := by
  unfold Obligations.SignedZeroAndInfiniteInputs
  intro s ch hch hconf hd hfin hcentre
  have hs : ChannelHolds ch s.coef DelayLine.zero s := ⟨hch, hconf, rfl, hd⟩
  refine ⟨fun hx => ⟨_, hs.exec_bqProc, outputOf_zero_of_isZero hfin hcentre hx⟩, fun hx hpos => ?_⟩
  have ht := hs.after_own_sample hs.exec_bqProc
  exact ⟨_, hs.exec_bqProc, outputOf_zero_of_isInf hfin hpos hx, fun x =>
    ⟨_, (ht.withArgX x).exec_bqProc, isNan_outputOf_of_isInf_x1 hcentre hx x⟩⟩

end Sys2Proof.Machine
end

section
/-! PROOFS. The channel interleaver: the checks of ILV_RUN in their order, and the cells it writes (41_interleaver.md R140
to R143). -/

namespace Sys2Proof.Machine

/-! ### The checks -/

theorem ilvChecks_no_channels (P : Params) (F : Nat) : ilvChecks P F 0 = some .invalidAudioFormat := if_pos rfl

theorem ilvChecks_channels {P : Params} {Cn : Nat} (F : Nat) (hpos : 0 < Cn) (hCn : P.nchMax < Cn) :
    ilvChecks P F Cn = some .capacity := by
  rw [ilvChecks, if_neg hpos.ne', if_pos hCn]

theorem ilvChecks_frames {P : Params} {F Cn : Nat} (hpos : 0 < Cn) (hCn : Cn ≤ P.nchMax) (hF : P.framesMax < F) :
    ilvChecks P F Cn = some .capacity := by
  rw [ilvChecks, if_neg hpos.ne', if_neg hCn.not_gt, if_pos hF]

/-- The bounds on both operands bound the number of ILV cells, so that `u32(F * Cn)` is defined (R141). -/
theorem interleave_length_le_ilvMax {P : Params} {F Cn : Nat} (hCn : Cn ≤ P.nchMax) (hF : F ≤ P.framesMax) :
    F * Cn ≤ P.ilvMax :=
  (Nat.mul_le_mul hF hCn).trans_eq (Nat.mul_comm _ _)

/-! ### The command behind a failing and a passing check -/

theorem exec_ilvRun_of_check_fails {s : State} {e : ErrCode}
    (hchk : ilvChecks s.params s.argNframes.toNat s.argNch.toNat = some e) :
    exec .ilvRun s = .next { s with err := e } := by
  rcases execIlvRun_cases s with ⟨e', he, h⟩ | ⟨he, -, -⟩ | ⟨-, he, -, -⟩ <;> cases hchk.symm.trans he
  exact h

theorem exec_ilvRun_of_cells {s : State} {cells : List (Nat × F64)}
    (hchk : ilvChecks s.params s.argNframes.toNat s.argNch.toNat = none)
    (hcells : interleaveCells s.plane s.argNframes.toNat s.argNch.toNat = some cells) :
    exec .ilvRun s = .next { s with
      ilv := Memory.writeAll s.ilv cells
      ilvLen := BitVec.ofNat 32 (s.argNframes.toNat * s.argNch.toNat)
      err := .ok } := by
  rcases execIlvRun_cases s with ⟨e, he, -⟩ | ⟨-, hc, -⟩ | ⟨cells', -, hc, h⟩
  · cases hchk.symm.trans he
  · cases hcells.symm.trans hc
  · cases hcells.symm.trans hc
    exact h

/-- A run that passes its checks faults or succeeds. -/
theorem exec_ilvRun_err_ok {s t : State} (hchk : ilvChecks s.params s.argNframes.toNat s.argNch.toNat = none)
    (h : exec .ilvRun s = .next t) : t.err = .ok := by
  rcases execIlvRun_cases s with ⟨e, he, -⟩ | ⟨-, -, he⟩ | ⟨cells, -, -, he⟩
  · cases hchk.symm.trans he
  · cases he.symm.trans h
  · cases he.symm.trans h
    rfl

/-- Settles O34: one failing check per clause; F = 0 passes them and has no turn of the loop. -/
theorem ilvRunChecksInOrder : Obligations.IlvRunChecksInOrder := by
  unfold Obligations.IlvRunChecksInOrder
  refine ⟨rfl, rfl, fun s => ⟨fun hCn => ?_, fun hpos hCn => ?_, fun hpos hCn hF => ?_, fun hpos hCn hF => ?_,
    fun hpos hCn hF => ?_⟩⟩
  · exact exec_ilvRun_of_check_fails (hCn ▸ ilvChecks_no_channels _ _)
  · exact exec_ilvRun_of_check_fails (ilvChecks_channels _ hpos hCn)
  · exact exec_ilvRun_of_check_fails (ilvChecks_frames hpos hCn hF)
  · have hchk := ilvChecks_none.2 ⟨hpos, hCn, hF.trans_le (Nat.zero_le _)⟩
    have hcells : interleaveCells s.plane s.argNframes.toNat s.argNch.toNat = some [] := by rw [hF]; rfl
    rw [exec_ilvRun_of_cells hchk hcells, hF, Nat.zero_mul, Memory.writeAll_nil]
  · exact ⟨interleave_length_le_ilvMax hCn hF, s.params.ilvMax_le,
      fun t => exec_ilvRun_err_ok (ilvChecks_none.2 ⟨hpos, hCn, hF⟩)⟩

/-! ### The cells -/

theorem interleaveCells_isSome {plane : Memory F64} {F Cn : Nat}
    (h : ∀ j i, j < Cn → i < F → Memory.read plane (planeIndex j i) ≠ none) :
    ∃ cells, interleaveCells plane F Cn = some cells :=
  Option.ne_none_iff_exists'.1 fun hnone =>
    have ⟨j, i, hj, hi, hread⟩ := interleaveCells_none.1 hnone
    h j i hj hi hread

/-- The loop names each ILV cell once, so the cell of channel j of frame i keeps the value its own turn wrote (R142). -/
theorem read_interleaved {plane ilv : Memory F64} {F Cn i j : Nat} {cells : List (Nat × F64)}
    (h : interleaveCells plane F Cn = some cells) (hi : i < F) (hj : j < Cn) :
    Memory.read (Memory.writeAll ilv cells) (i * Cn + j) = Memory.read plane (planeIndex j i) := by
  obtain ⟨v, hv, hmem⟩ := interleaveCells_covers h hj hi
  have hnodup : (cells.map Prod.fst).Nodup := by rw [interleaveCells_fst h]; exact List.nodup_range'
  rw [Memory.read_writeAll_mem _ _ _ _ hnodup hmem, hv]

theorem read_beyond_interleaved {plane ilv : Memory F64} {F Cn k : Nat} {cells : List (Nat × F64)}
    (h : interleaveCells plane F Cn = some cells) (hk : F * Cn ≤ k) :
    Memory.read (Memory.writeAll ilv cells) k = Memory.read ilv k :=
  Memory.read_writeAll_other _ _ _ fun _ hc => ((interleaveCells_lt h hc).trans_le hk).ne

/-- Settles O33: the cells named by the loop, read back; the checks keep F × Cn within 32 bits. -/
theorem ilvRunInterleavesThePlanes : Obligations.IlvRunInterleavesThePlanes := by
  unfold Obligations.IlvRunInterleavesThePlanes
  intro s F Cn hpos hCn hF hheld
  obtain ⟨cells, hcells⟩ := interleaveCells_isSome hheld
  have hlen : F * Cn < 2 ^ 32 :=
    ((interleave_length_le_ilvMax hCn hF).trans s.params.ilvMax_le).trans_lt (by decide)
  exact ⟨_, exec_ilvRun_of_cells (ilvChecks_none.2 ⟨hpos, hCn, hF⟩) hcells, rfl,
    (BitVec.toNat_ofNat _ _).trans (Nat.mod_eq_of_lt hlen),
    fun i j => read_interleaved hcells, fun k => read_beyond_interleaved hcells, rfl⟩

end Sys2Proof.Machine
end

section
/-! PROOFS. WAV_ENC: its checks in their order, the stream that a passing run writes, and the same stream again
(42_wav_encoder.md R151 to R160). -/

namespace Sys2Proof.Machine

/-! ### The checks -/

/-- Checks 1 to 4 answer alike, so together they ask for one format (R151). -/
theorem wavChecks_format {P : Params} {N Cn Rate : Nat}
    (h : ¬ (0 < Cn ∧ 0 < Rate ∧ Cn ≤ 32767 ∧ Rate * Cn * 2 ≤ 2 ^ 32 - 1 ∧ N % Cn = 0)) :
    wavChecks P N Cn Rate = some .invalidAudioFormat := by
  unfold wavChecks
  split_ifs with hzero hchannels hbytes hframe
  case pos | pos | pos | pos => rfl
  all_goals exact absurd ⟨by omega, by omega, by omega, by omega, by omega⟩ h

theorem wavChecks_capacity {P : Params} {N Cn Rate : Nat}
    (h : 0 < Cn ∧ 0 < Rate ∧ Cn ≤ 32767 ∧ Rate * Cn * 2 ≤ 2 ^ 32 - 1 ∧ N % Cn = 0) (hN : P.ilvMax < N) :
    wavChecks P N Cn Rate = some .capacity := by
  obtain ⟨hCn, hRate, hchannels, hbytes, hframe⟩ := h
  rw [wavChecks, if_neg (by omega), if_neg hchannels.not_gt, if_neg hbytes.not_gt, if_neg (not_not.2 hframe), if_pos hN]

/-! ### The samples -/

theorem ilvSamples_isSome {ilv : Memory F64} {N : Nat} (h : ∀ k, k < N → Memory.read ilv k ≠ none) :
    ∃ S, ilvSamples ilv N = some S :=
  Option.ne_none_iff_exists'.1 fun hnone =>
    have ⟨k, hk, hread⟩ := ilvSamples_none.1 hnone
    h k hk hread

theorem getElem_of_ilvSamples {ilv : Memory F64} {N k : Nat} {S : List F64} {v : F64} (hS : ilvSamples ilv N = some S)
    (hk : k < N) (hv : Memory.read ilv k = some v) : ∃ hk' : k < S.length, S[k] = v := by
  obtain ⟨rfl, hread⟩ := ilvSamples_some hS
  exact ⟨hk, Option.some.inj ((hread k hk).symm.trans hv)⟩

/-- Check 7 looks at ILV[0] to ILV[N - 1] and no further (R160: a NaN at index N or above is never read). -/
theorem any_isNan_ilvSamples_iff {ilv : Memory F64} {N : Nat} {S : List F64} (hS : ilvSamples ilv N = some S) :
    S.any isNan = true ↔ ∃ k v, k < N ∧ Memory.read ilv k = some v ∧ isNan v = true := by
  rw [List.any_eq_true]
  constructor
  · rintro ⟨v, hv, hnan⟩
    obtain ⟨rfl, hread⟩ := ilvSamples_some hS
    obtain ⟨k, hk, rfl⟩ := List.getElem_of_mem hv
    exact ⟨k, _, hk, hread k hk, hnan⟩
  · rintro ⟨k, v, hk, hv, hnan⟩
    obtain ⟨hk', rfl⟩ := getElem_of_ilvSamples hS hk hv
    exact ⟨_, List.getElem_mem hk', hnan⟩

/-! ### The command behind a failing and a passing check -/

/-- The samples `S` pass every check of R151 in state `s`. -/
structure WavPasses (s : State) (S : List F64) : Prop where
  checks : wavChecks s.params s.ilvLen.toNat s.argNch.toNat s.argRate.toNat = none
  samples : ilvSamples s.ilv s.ilvLen.toNat = some S
  noNan : S.any isNan = false

/-- The state in which a WAV_ENC of the samples `S` ends: the header, then the samples, over what OUT held (R153, R156 to
R158). -/
def encodedState (s : State) (S : List F64) : State :=
  { s with
    out := Memory.writeAll s.out
      (headerCells s.ilvLen.toNat s.argNch.toNat s.argRate.toNat ++ sampleCells s.params S)
    outLen := outLength s s.ilvLen.toNat
    err := .ok }

/-- Rewriting with this equation keeps the unifier from evaluating the list of cells. -/
theorem encodedState_out (s : State) (S : List F64) :
    (encodedState s S).out = Memory.writeAll s.out
      (headerCells s.ilvLen.toNat s.argNch.toNat s.argRate.toNat ++ sampleCells s.params S) := by
  rw [encodedState]

theorem exists_wavPasses {s : State}
    (hchk : (0 < s.argNch.toNat ∧ 0 < s.argRate.toNat ∧ s.argNch.toNat ≤ 32767 ∧
      s.argRate.toNat * s.argNch.toNat * 2 ≤ 2 ^ 32 - 1 ∧ s.ilvLen.toNat % s.argNch.toNat = 0) ∧
      s.ilvLen.toNat ≤ s.params.ilvMax)
    (hheld : ∀ k, k < s.ilvLen.toNat → ∃ v, Memory.read s.ilv k = some v ∧ isNan v = false) : ∃ S, WavPasses s S := by
  obtain ⟨S, hS⟩ := ilvSamples_isSome fun k hk hnone => by
    obtain ⟨v, hv, -⟩ := hheld k hk
    cases hnone.symm.trans hv
  refine ⟨S, wavChecks_none.2 hchk, hS, ?_⟩
  rw [Bool.eq_false_iff, Ne, any_isNan_ilvSamples_iff hS]
  rintro ⟨k, v, hk, hv, hnan⟩
  obtain ⟨w, hw, hnum⟩ := hheld k hk
  cases hw.symm.trans hv
  cases hnum.symm.trans hnan

theorem exec_wavEnc_of_check_fails {s : State} {e : ErrCode}
    (hchk : wavChecks s.params s.ilvLen.toNat s.argNch.toNat s.argRate.toNat = some e) :
    exec .wavEnc s = .next { s with err := e } := by
  rcases execWavEnc_cases s with ⟨e', he, h⟩ | ⟨he, -, -⟩ | ⟨-, he, -, -, -⟩ | ⟨-, he, -, -, -⟩ <;>
    cases hchk.symm.trans he
  exact h

theorem exec_wavEnc_of_nan {s : State} {S : List F64}
    (hchk : wavChecks s.params s.ilvLen.toNat s.argNch.toNat s.argRate.toNat = none)
    (hS : ilvSamples s.ilv s.ilvLen.toNat = some S) (hnan : S.any isNan = true) :
    exec .wavEnc s = .next { s with err := .invalidSample } := by
  rcases execWavEnc_cases s with ⟨e, he, -⟩ | ⟨-, hS', -⟩ | ⟨S', -, -, -, h⟩ | ⟨S', -, hS', hno, -⟩
  · cases hchk.symm.trans he
  · cases hS.symm.trans hS'
  · exact h
  · cases hS.symm.trans hS'
    cases hnan.symm.trans hno

theorem WavPasses.exec_wavEnc {s : State} {S : List F64} (h : WavPasses s S) :
    exec .wavEnc s = .next (encodedState s S) := by
  obtain ⟨hchk, hS, hno⟩ := h
  rcases execWavEnc_cases s with ⟨e, he, -⟩ | ⟨-, hS', -⟩ | ⟨S', -, hS', hnan, -⟩ | ⟨S', -, hS', -, he⟩
  · cases hchk.symm.trans he
  · cases hS.symm.trans hS'
  · cases hS.symm.trans hS'
    cases hno.symm.trans hnan
  · cases hS.symm.trans hS'
    exact he

/-- A run that ends with ERR 0 passed every check. -/
theorem exec_wavEnc_ok {s t : State} (h : exec .wavEnc s = .next t) (hok : t.err = .ok) :
    ∃ S, WavPasses s S ∧ t = encodedState s S := by
  rcases execWavEnc_cases s with ⟨e, hchk, he⟩ | ⟨-, -, he⟩ | ⟨S, -, -, -, he⟩ | ⟨S, hchk, hS, hno, he⟩ <;>
    cases he.symm.trans h
  · exact absurd hok (wavChecks_ne_ok hchk)
  · cases hok
  · exact ⟨S, ⟨hchk, hS, hno⟩, rfl⟩

/-- Settles O35: one failing check per clause; with N = 0 there is no sample to fail. -/
theorem wavEncChecksInOrder : Obligations.WavEncChecksInOrder := by
  unfold Obligations.WavEncChecksInOrder
  refine ⟨rfl, rfl, rfl, fun s => ⟨fun hformat => ?_, fun hformat hN => ?_, fun hformat hN hnone => ?_,
    fun hformat hN hheld hnan => ?_, fun hCn hRate hchannels hbytes hN => ?_⟩⟩
  · exact exec_wavEnc_of_check_fails (wavChecks_format hformat)
  · exact exec_wavEnc_of_check_fails (wavChecks_capacity hformat hN)
  · obtain ⟨k, hk, hread⟩ := hnone
    exact exec_wavEnc_uninit (wavChecks_none.2 ⟨hformat, hN⟩) hk hread
  · obtain ⟨S, hS⟩ := ilvSamples_isSome hheld
    exact exec_wavEnc_of_nan (wavChecks_none.2 ⟨hformat, hN⟩) hS ((any_isNan_ilvSamples_iff hS).2 hnan)
  · obtain ⟨S, hpass⟩ := exists_wavPasses
      ⟨⟨hCn, hRate, hchannels, hbytes, by rw [hN, Nat.zero_mod]⟩, hN.trans_le (Nat.zero_le _)⟩
      fun k hk => absurd hk (hN ▸ k.not_lt_zero)
    exact ⟨_, hpass.exec_wavEnc, rfl⟩

/-! ### The bytes of the stream -/

/-- A header field reads back as its value. -/
theorem readLE_headerField {s : State} {S : List F64} {b n v : Nat}
    (hf : (b, n, v) ∈ headerFields s.ilvLen.toNat s.argNch.toNat s.argRate.toNat) (hv : v < 2 ^ (8 * n)) :
    readLE (encodedState s S).out b n = some v := by
  rw [encodedState_out, readLE_of_bytes fun _ => headerField_bytes s.out hf, Nat.mod_eq_of_lt hv]

/-- A four-character tag stands in text order (R152, R153). -/
theorem read_headerTag {s : State} {S : List F64} {b v : Nat}
    (hf : (b, 4, v) ∈ headerFields s.ilvLen.toNat s.argNch.toNat s.argRate.toNat) :
    (List.range 4).map (fun i => Memory.read (encodedState s S).out (b + i)) =
      (List.range 4).map (fun i => some (BitVec.ofNat 8 (v / 2 ^ (8 * i)))) := by
  rw [encodedState_out]
  exact List.map_congr_left fun _ hi => headerField_bytes s.out hf (List.mem_range.1 hi)

theorem s16_toNat (q : Int) : (s16 q).toNat = (q % 2 ^ 16).toNat := by
  rw [s16, BitVec.toNat_ofInt]
  rfl

/-- Sample k reads back as the two's complement of its quantised value (R156). -/
theorem readLE_sample {s : State} {S : List F64} {k : Nat} (hk : k < S.length) :
    readLE (encodedState s S).out (44 + 2 * k) 2 = some (quantize s.params S[k] % 2 ^ 16).toNat := by
  rw [encodedState_out, readLE_of_bytes fun _ => sample_bytes s.out hk, Nat.mod_eq_of_lt (s16 _).isLt, s16_toNat]

theorem read_beyond_stream {s : State} {S : List F64} {b : Nat} (hb : 44 + 2 * S.length ≤ b) :
    Memory.read (encodedState s S).out b = Memory.read s.out b := by
  rw [encodedState_out]
  exact Memory.read_writeAll_other _ _ _ fun _ hc => ((streamCells_lt hc).trans_le hb).ne

/-- Settles O36: each field of the header and each sample read back, in the state that passing checks lead to; the checks
and the bound on ILV_MAX keep every field within its bytes. -/
theorem wavEncWritesTheStream : Obligations.WavEncWritesTheStream := by
  unfold Obligations.WavEncWritesTheStream
  intro s N Cn Rate hCn hRate hchannels hbytes hframe hmax hheld
  obtain ⟨S, hpass⟩ := exists_wavPasses ⟨⟨hCn, hRate, hchannels, hbytes, hframe⟩, hmax⟩ hheld
  obtain ⟨hlen, -⟩ := ilvSamples_some hpass.samples
  have hN : N ≤ 2147483629 := hmax.trans s.params.ilvMax_le
  refine ⟨_, hpass.exec_wavEnc, rfl, read_headerTag (b := 0) (v := 0x46464952) ?_, readLE_headerField ?_ (by omega),
    read_headerTag (b := 8) (v := 0x45564157) ?_, read_headerTag (b := 12) (v := 0x20746D66) ?_,
    readLE_headerField ?_ (by omega), readLE_headerField ?_ (by omega), readLE_headerField ?_ (by omega),
    readLE_headerField ?_ (by omega), readLE_headerField ?_ (by omega), readLE_headerField ?_ (by omega),
    readLE_headerField ?_ (by omega), read_headerTag (b := 36) (v := 0x61746164) ?_, readLE_headerField ?_ (by omega),
    fun k v hk hv => ?sample, fun b hb => ?beyond, outLength_toNat, rfl⟩
  case sample =>
    obtain ⟨hk', rfl⟩ := getElem_of_ilvSamples hpass.samples hk hv
    exact readLE_sample hk'
  case beyond => exact read_beyond_stream (hlen ▸ hb)
  all_goals simp [headerFields, N, Cn, Rate]

/-- Settles O37: the two size fields are 36 + 2N and 2N, and OUT_LEN is 44 + 2N. -/
theorem headerSizesMatchTheStreamLength : Obligations.HeaderSizesMatchTheStreamLength := by
  unfold Obligations.HeaderSizesMatchTheStreamLength
  intro s t h hok hfit
  obtain ⟨S, -, rfl⟩ := exec_wavEnc_ok h hok
  have hlen : (encodedState s S).outLen.toNat = 44 + 2 * s.ilvLen.toNat := outLength_toNat hfit
  rw [hlen]
  refine ⟨?_, ?_, by omega⟩
  · rw [show 44 + 2 * s.ilvLen.toNat - 8 = 36 + 2 * s.ilvLen.toNat by omega]
    exact readLE_headerField (by simp [headerFields]) (by omega)
  · rw [Nat.add_sub_cancel_left]
    exact readLE_headerField (by simp [headerFields]) (by omega)

/-! ### The same stream again -/

/-- Writing the same cells again changes no cell. -/
theorem Memory.read_writeAll_twice {α : Type} (m : Memory α) (l : List (Nat × α)) (a : Nat) :
    Memory.read (Memory.writeAll (Memory.writeAll m l) l) a = Memory.read (Memory.writeAll m l) a := by
  by_cases h : ∃ c ∈ l, c.1 = a
  · exact Memory.read_writeAll_congr _ _ _ _ h
  · exact Memory.read_writeAll_other _ _ _ fun c hc hca => h ⟨c, hc, hca⟩

/-- WAV_ENC writes nothing that it reads. -/
theorem WavPasses.again {s : State} {S : List F64} (h : WavPasses s S) : WavPasses (encodedState s S) S :=
  ⟨h.checks, h.samples, h.noNan⟩

/-- Settles O38: the second run passes the same checks and writes the same cells. -/
theorem repeatedWavEncWritesTheSameBytes : Obligations.RepeatedWavEncWritesTheSameBytes := by
  unfold Obligations.RepeatedWavEncWritesTheSameBytes
  intro s t h hok
  obtain ⟨S, hpass, rfl⟩ := exec_wavEnc_ok h hok
  refine ⟨_, hpass.again.exec_wavEnc, rfl, ?_⟩
  rw [encodedState_out (encodedState s S), encodedState_out s]
  exact Memory.read_writeAll_twice _ _

end Sys2Proof.Machine
end

section
/-! PROOFS. The sample conversion: the clamp, the product t = fmul(clamp(s), 32767.0), its nearest integer and the bound on
the error (42_wav_encoder.md R154, R155, R161). -/

namespace Sys2Proof.Machine

/-! ### The clamp -/

theorem clamp_of_fgt {s : F64} (h : fgt s oneF = true) : clamp s = oneF := if_pos h

theorem clamp_of_within {s : F64} (hhi : fgt s oneF = false) (hlo : flt s negOneF = false) : clamp s = s := by
  simp [clamp, hhi, hlo]

theorem fgt_oneF_eq_false_of_flt {s : F64} (h : flt s negOneF = true) : fgt s oneF = false := by
  have hone : orderKey negOneF < orderKey oneF := by decide
  simp only [fgt, flt, Bool.and_eq_true, Bool.and_eq_false_iff, decide_eq_true_eq, decide_eq_false_iff_not] at h ⊢
  exact .inr (by omega)

theorem clamp_of_flt {s : F64} (h : flt s negOneF = true) : clamp s = negOneF := by
  simp [clamp, fgt_oneF_eq_false_of_flt h, h]

theorem orderKey_clamp {s : F64} (h : isNan s = false) :
    orderKey negOneF ≤ orderKey (clamp s) ∧ orderKey (clamp s) ≤ orderKey oneF := by
  cases hhi : fgt s oneF with
  | true => rw [clamp_of_fgt hhi]; decide
  | false =>
    cases hlo : flt s negOneF with
    | true => rw [clamp_of_flt hlo]; decide
    | false =>
      have hle := (fgt_iff h (by decide)).not.1 (Bool.eq_false_iff.1 hhi)
      have hge := (flt_iff h (by decide)).not.1 (Bool.eq_false_iff.1 hlo)
      rw [clamp_of_within hhi hlo]
      exact ⟨not_lt.1 hge, not_lt.1 hle⟩

theorem natAbs_orderKey (x : F64) : (orderKey x).natAbs = magnitude x := natAbs_applySign _ _

theorem isFinite_clamp {s : F64} (h : isNan s = false) : isFinite (clamp s) = true := by
  obtain ⟨hlo, hhi⟩ := orderKey_clamp h
  have hone : orderKey oneF = 0x3FF0000000000000 := by decide
  have hneg : orderKey negOneF = -0x3FF0000000000000 := by decide
  have hmag := natAbs_orderKey (clamp s)
  have hinf := infMagnitude_eq
  exact decide_eq_true (by omega)

theorem two_pow_1074_cast : ((2 ^ 1074 : Nat) : Int) = 2 ^ 1074 := Nat.cast_pow 2 1074

theorem units_oneF : units oneF = 2 ^ 1074 := by
  have hsign : signBit oneF = false := by decide
  have hmag : unitsMag oneF = 2 ^ 1074 := by
    rw [unitsMag_of_magnitude (k := 1022) (m := 2 ^ 52) (by decide) (by decide) (by decide),
      show 1074 = 52 + 1022 by rfl, pow_add]
  rw [units_eq_applySign, hmag, hsign, applySign_false]
  exact two_pow_1074_cast

theorem units_negOneF : units negOneF = -2 ^ 1074 := by
  rw [show negOneF = fneg oneF by decide, units_fneg, units_oneF]

theorem units_clamp {s : F64} (h : isNan s = false) :
    -(2 : Int) ^ 1074 ≤ units (clamp s) ∧ units (clamp s) ≤ 2 ^ 1074 := by
  obtain ⟨hlo, hhi⟩ := orderKey_clamp h
  rw [← units_negOneF, ← units_oneF]
  exact ⟨not_lt.1 ((units_lt_iff _ _).not.2 hlo.not_gt), not_lt.1 ((units_lt_iff _ _).not.2 hhi.not_gt)⟩

theorem clamp_of_units {s : F64} (h : isNan s = false) (hlo : -(2 : Int) ^ 1074 ≤ units s) (hhi : units s ≤ 2 ^ 1074) :
    clamp s = s := by
  rw [← units_negOneF] at hlo
  rw [← units_oneF] at hhi
  apply clamp_of_within
  · rw [Bool.eq_false_iff, Ne, fgt_iff h (by decide), ← units_lt_iff]
    exact hhi.not_gt
  · rw [Bool.eq_false_iff, Ne, flt_iff h (by decide), ← units_lt_iff]
    exact hlo.not_gt

/-- Settles O39: the three branches of the clamp, which order the sample against 1.0 and -1.0, and the keys of those two as
bounds on every result. -/
theorem clampBringsSamplesIntoRange : Obligations.ClampBringsSamplesIntoRange := by
  unfold Obligations.ClampBringsSamplesIntoRange
  exact ⟨fun s _ => ⟨clamp_of_fgt, clamp_of_flt, clamp_of_within⟩, by decide, by decide, by decide, by decide,
    fun s h => ⟨isFinite_clamp h, units_clamp h⟩⟩

/-! ### Rounding to an integer -/

theorem roundInt_below_half (mode : TieMode) {t : Int} (h : 2 * (t % 2 ^ 1074) < 2 ^ 1074) :
    roundInt mode t = t / 2 ^ 1074 := by
  unfold roundInt
  exact if_pos h

theorem roundInt_above_half (mode : TieMode) {t : Int} (h : 2 ^ 1074 < 2 * (t % 2 ^ 1074)) :
    roundInt mode t = t / 2 ^ 1074 + 1 := by
  unfold roundInt
  exact (if_neg h.not_gt).trans (if_pos h)

section
variable {t : Int} (htie : 2 * (t % 2 ^ 1074) = 2 ^ 1074)
include htie

theorem roundInt_tie_away : roundInt .away t = if 0 < t then t / 2 ^ 1074 + 1 else t / 2 ^ 1074 := by
  rw [roundInt, if_neg htie.not_lt, if_neg htie.not_gt]

theorem roundInt_tie_posInf : roundInt .posInf t = t / 2 ^ 1074 + 1 := by
  rw [roundInt, if_neg htie.not_lt, if_neg htie.not_gt]

theorem roundInt_tie_even :
    roundInt .even t = if t / 2 ^ 1074 % 2 = 0 then t / 2 ^ 1074 else t / 2 ^ 1074 + 1 := by
  rw [roundInt, if_neg htie.not_lt, if_neg htie.not_gt]

end

/-- Whatever the mode, the result is the floor up to the half and the next integer from the half on. -/
theorem roundInt_eq_floor_or_succ (mode : TieMode) (t : Int) :
    roundInt mode t = t / 2 ^ 1074 ∧ 2 * (t % 2 ^ 1074) ≤ 2 ^ 1074 ∨
    roundInt mode t = t / 2 ^ 1074 + 1 ∧ 2 ^ 1074 ≤ 2 * (t % 2 ^ 1074) := by
  rcases lt_trichotomy (2 * (t % 2 ^ 1074)) (2 ^ 1074) with hlt | htie | hgt
  · exact .inl ⟨roundInt_below_half mode hlt, hlt.le⟩
  · cases mode with
    | away =>
      rw [roundInt_tie_away htie]
      split_ifs
      · exact .inr ⟨rfl, htie.ge⟩
      · exact .inl ⟨rfl, htie.le⟩
    | posInf => exact .inr ⟨roundInt_tie_posInf htie, htie.ge⟩
    | even =>
      rw [roundInt_tie_even htie]
      split_ifs
      · exact .inl ⟨rfl, htie.le⟩
      · exact .inr ⟨rfl, htie.ge⟩
  · exact .inr ⟨roundInt_above_half mode hgt, hgt.le⟩

theorem roundInt_nearest (mode : TieMode) (t : Int) :
    2 * (roundInt mode t * 2 ^ 1074 - t).natAbs ≤ 2 ^ 1074 ∧
    (2 * (roundInt mode t * 2 ^ 1074 - t).natAbs = 2 ^ 1074 → 2 * (t % 2 ^ 1074) = 2 ^ 1074) := by
  have hU := two_pow_1074_cast
  have hdiv := Int.ediv_mul_add_emod t (2 ^ 1074)
  rcases roundInt_eq_floor_or_succ mode t with ⟨hq, hd⟩ | ⟨hq, hd⟩ <;> rw [hq]
  · have hnn := Int.emod_nonneg t (by positivity : (2 : Int) ^ 1074 ≠ 0)
    generalize (2 : Int) ^ 1074 = U at *
    generalize (2 : Nat) ^ 1074 = V at *
    omega
  · have hlt := Int.emod_lt_of_pos t (by positivity : (0 : Int) < 2 ^ 1074)
    rw [Int.add_mul, Int.one_mul]
    generalize (2 : Int) ^ 1074 = U at *
    generalize (2 : Nat) ^ 1074 = V at *
    omega

/-- What each mode asks of the result `q` of a tie (R155). -/
def TieRule (mode : TieMode) (t q : Int) : Prop :=
  match mode with
  | .away => t.natAbs < (q * 2 ^ 1074).natAbs
  | .posInf => t < q * 2 ^ 1074
  | .even => q % 2 = 0

theorem roundInt_tie (mode : TieMode) {t : Int} (htie : 2 * (t % 2 ^ 1074) = 2 ^ 1074) :
    TieRule mode t (roundInt mode t) := by
  have hU : (0 : Int) < 2 ^ 1074 := by positivity
  have hdiv := Int.ediv_mul_add_emod t (2 ^ 1074)
  have hsucc := Int.add_mul (t / 2 ^ 1074) 1 (2 ^ 1074)
  cases mode with
  | away =>
    rw [roundInt_tie_away htie, TieRule]
    generalize (2 : Int) ^ 1074 = U at *
    split_ifs <;> omega
  | posInf =>
    rw [roundInt_tie_posInf htie, TieRule]
    generalize (2 : Int) ^ 1074 = U at *
    omega
  | even =>
    rw [roundInt_tie_even htie, TieRule]
    generalize t / 2 ^ 1074 = m
    split_ifs <;> omega

/-- A whole bound on t bounds its nearest integer too. -/
theorem natAbs_roundInt_le (mode : TieMode) {t : Int} {n : Nat} (h : t.natAbs ≤ n * 2 ^ 1074) :
    (roundInt mode t).natAbs ≤ n := by
  obtain ⟨hnear, -⟩ := roundInt_nearest mode t
  have hU : 0 < 2 ^ 1074 := by positivity
  have hcast := two_pow_1074_cast
  have hmul : (roundInt mode t * 2 ^ 1074).natAbs = (roundInt mode t).natAbs * 2 ^ 1074 := by
    rw [Int.natAbs_mul, ← hcast, Int.natAbs_natCast]
  generalize (2 : Int) ^ 1074 = U at *
  by_contra hgt
  have hbig := Nat.mul_le_mul_right (2 ^ 1074) (not_le.1 hgt)
  rw [Nat.succ_mul] at hbig
  generalize (2 : Nat) ^ 1074 = V at *
  omega

theorem roundInt_zero (mode : TieMode) : roundInt mode 0 = 0 := by
  have h := natAbs_roundInt_le mode (t := 0) (n := 0) (Nat.zero_le _)
  exact Int.natAbs_eq_zero.1 (Nat.le_zero.1 h)

/-! ### The product t -/

theorem unitsMag_scaleF : unitsMag scaleF = 32767 * 2 ^ 1074 := by
  rw [unitsMag_of_magnitude (k := 1036) (m := 32767 * 2 ^ 38) (by decide) (by decide) (by decide),
    show 1074 = 38 + 1036 by rfl, pow_add, Nat.mul_assoc]

theorem signBit_scaleF : signBit scaleF = false := by decide

theorem units_scaleF : units scaleF = unitsMag scaleF := by
  rw [units_eq_applySign, signBit_scaleF, applySign_false]

/-- One rounding errs by half a unit at most, or by at most the part 2^-53 of the exact result. -/
theorem roundUnits_error (neg : Bool) {num den : Nat} (hd : 0 < den) (h : num < overflowUnits * den) :
    2 * ((unitsMag (roundUnits neg num den) : Int) * den - num).natAbs ≤ den ∨
    2 ^ 53 * ((unitsMag (roundUnits neg num den) : Int) * den - num).natAbs ≤ num := by
  obtain ⟨sh, m, m', r, -, -, hu, hn, hr, hk, hcase⟩ := roundUnits_finite_spec neg num den hd h
  have hval : ((m' * 2 ^ sh : Nat) : Int) * den = ((m' * (den * 2 ^ sh) : Nat) : Int) := by push_cast; ring
  have herr : 2 * (((m' * (den * 2 ^ sh) : Nat) : Int) - num).natAbs ≤ den * 2 ^ sh := by
    rcases hcase with ⟨rfl, hle, -⟩ | ⟨rfl, hle, -⟩
    · omega
    · rw [Nat.add_mul, Nat.one_mul]
      generalize den * 2 ^ sh = D at *
      omega
  rw [hu, hval]
  rcases hk with rfl | h52
  · exact .inl (by simpa using herr)
  · have hmul := Nat.mul_le_mul_right (den * 2 ^ sh) h52
    exact .inr (by omega)

theorem fmul_scaleF {c : F64} (hc : isFinite c = true) :
    fmul c scaleF = roundUnits (signBit c) (unitsMag c * (32767 * 2 ^ 1074)) (2 ^ 1074) := by
  rw [fmul_finite hc (by decide), unitsMag_scaleF, signBit_scaleF, Bool.bne_false]

/-- The largest product is far below the overflow bound. -/
theorem product_lt_overflow {n : Nat} (h : n ≤ 2 ^ 1074) : n * (32767 * 2 ^ 1074) < overflowUnits * 2 ^ 1074 := by
  have hover : 32767 * 2 ^ 1074 < overflowUnits := by
    have hpow : 2 ^ 1074 ≤ 2 ^ 2044 := pow_le_pow_right₀ one_le_two (by decide)
    have hpos : 0 < 2 ^ 2044 := by positivity
    rw [overflowUnits]
    generalize 2 ^ 2044 = W at *
    generalize 2 ^ 1074 = V at *
    omega
  have hpos : 0 < 2 ^ 1074 := by positivity
  generalize 2 ^ 1074 = V at *
  calc n * (32767 * V) ≤ V * (32767 * V) := Nat.mul_le_mul_right _ h
    _ < V * overflowUnits := Nat.mul_lt_mul_of_pos_left hover hpos
    _ = overflowUnits * V := Nat.mul_comm _ _

/-- The error bound of one rounding, cleared of the denominator `V`. -/
theorem natAbs_sub_le_of_scaled_error {a b V W : Nat} (hV : 0 < V) (hVW : V = 2 ^ 53 * W) (hb : b ≤ V)
    (herr : 2 * ((a : Int) * V - (b * (32767 * V) : Nat)).natAbs ≤ V ∨
      2 ^ 53 * ((a : Int) * V - (b * (32767 * V) : Nat)).natAbs ≤ b * (32767 * V)) :
    ((a : Int) - 32767 * b).natAbs ≤ 32767 * W := by
  have hfactor : (a : Int) * V - (b * (32767 * V) : Nat) = ((a : Int) - 32767 * b) * V := by push_cast; ring
  rw [hfactor, Int.natAbs_mul, Int.natAbs_natCast] at herr
  generalize ((a : Int) - 32767 * b).natAbs = e at *
  rcases herr with hhalf | hpart
  · have hzero : e = 0 := by
      by_contra hne
      have := Nat.le_mul_of_pos_left V (Nat.pos_of_ne_zero hne)
      omega
    omega
  · have hpart' : 2 ^ 53 * e ≤ b * 32767 :=
      Nat.le_of_mul_le_mul_right (by rwa [Nat.mul_assoc, Nat.mul_assoc]) hV
    omega

theorem signBit_fmul_scaleF {c : F64} (hc : isFinite c = true) : signBit (fmul c scaleF) = signBit c := by
  rw [fmul_scaleF hc, signBit_roundUnits]

section
variable {c : F64} (hc : isFinite c = true) (hle : unitsMag c ≤ 2 ^ 1074)
include hc hle

/-- 32767.0 is a value, so no product rounds to beyond it. -/
theorem unitsMag_fmul_scaleF_le : unitsMag (fmul c scaleF) ≤ 32767 * 2 ^ 1074 := by
  obtain ⟨hnear, -⟩ := roundUnits_nearest (signBit c) _ (2 ^ 1074) (by positivity) (product_lt_overflow hle) scaleF
  rw [← fmul_scaleF hc, units_scaleF, unitsMag_scaleF, ← Nat.cast_mul, ← Nat.cast_mul] at hnear
  have hnum := Nat.mul_le_mul_left (32767 * 2 ^ 1074) hle
  rw [Nat.mul_comm _ (unitsMag c)] at hnum
  refine Nat.le_of_mul_le_mul_right ?_ (by positivity : 0 < 2 ^ 1074)
  omega

theorem unitsMag_fmul_scaleF_error :
    ((unitsMag (fmul c scaleF) : Int) - 32767 * unitsMag c).natAbs ≤ 32767 * 2 ^ 1021 := by
  have hpow : 2 ^ 1074 = 2 ^ 53 * 2 ^ 1021 := by rw [show 1074 = 53 + 1021 by rfl, pow_add]
  rw [fmul_scaleF hc]
  exact natAbs_sub_le_of_scaled_error (by positivity) hpow hle
    (roundUnits_error (signBit c) (by positivity) (product_lt_overflow hle))

/-- The product errs by at most 32767 × 2^-53. -/
theorem fmul_scaleF_error : (units (fmul c scaleF) - 32767 * units c).natAbs ≤ 32767 * 2 ^ 1021 := by
  have herr := unitsMag_fmul_scaleF_error hc hle
  rw [units_eq_applySign, units_eq_applySign, signBit_fmul_scaleF hc]
  generalize unitsMag (fmul c scaleF) = a at *
  generalize 32767 * 2 ^ 1021 = W at *
  cases signBit c <;> simp only [applySign_true, applySign_false] <;> omega

end

/-! ### The conversion -/

theorem unitsMag_clamp {s : F64} (h : isNan s = false) : unitsMag (clamp s) ≤ 2 ^ 1074 := by
  obtain ⟨hlo, hhi⟩ := units_clamp h
  rw [← natAbs_units]
  rw [← two_pow_1074_cast] at hlo hhi
  omega

theorem natAbs_quantize_le (P : Params) {s : F64} (h : isNan s = false) : (quantize P s).natAbs ≤ 32767 := by
  rw [quantize]
  apply natAbs_roundInt_le
  rw [natAbs_units]
  exact unitsMag_fmul_scaleF_le (isFinite_clamp h) (unitsMag_clamp h)

theorem quantize_isZero (P : Params) {s : F64} (h : isZero s = true) (hclamp : clamp s = s) : quantize P s = 0 := by
  have ht : units (fmul s scaleF) = 0 := by
    rw [fmul_scaleF (isZero_finite h), units_roundUnits, unitsMag_of_isZero h, Nat.zero_mul, roundUnits_zero,
      unitsMag_of_isZero (isZero_pack_zero _), applySign_zero]
  rw [quantize, hclamp, ht, roundInt_zero]

/-- Settles O40: t is at most 32767.0 in size, `roundInt` takes it to a nearest integer, and at a tie it keeps the rule
of the mode. -/
theorem quantizeRoundsToNearestByTieMode : Obligations.QuantizeRoundsToNearestByTieMode := by
  unfold Obligations.QuantizeRoundsToNearestByTieMode
  intro P s h t q
  obtain ⟨hnear, htie⟩ := roundInt_nearest P.tieMode t
  have hrange := natAbs_quantize_le P h
  exact ⟨by omega, hnear, fun he => roundInt_tie P.tieMode (htie he), quantize_isZero P (by decide) (by decide),
    quantize_isZero P (by decide) (by decide)⟩

theorem quantize_error (P : Params) {s : F64} (h : isNan s = false) :
    (quantize P s * 2 ^ 1074 - 32767 * units (clamp s)).natAbs ≤ 2 ^ 1073 + 32767 * 2 ^ 1021 := by
  obtain ⟨hround, -⟩ := roundInt_nearest P.tieMode (units (fmul (clamp s) scaleF))
  have hproduct := fmul_scaleF_error (isFinite_clamp h) (unitsMag_clamp h)
  have hhalf : 2 ^ 1074 = 2 * 2 ^ 1073 := by rw [show 1074 = 1073 + 1 by rfl, pow_succ']
  rw [← quantize] at hround
  rw [hhalf] at hround
  generalize quantize P s * 2 ^ 1074 = q at *
  omega

/-- Settles O41: half a unit from the rounding to an integer and the error of the product; within [-1.0, 1.0] the clamp
keeps the sample. -/
theorem quantizationErrorIsBounded : Obligations.QuantizationErrorIsBounded := by
  unfold Obligations.QuantizationErrorIsBounded
  intro P s h
  refine ⟨quantize_error P h, fun _ hlo hhi => ?_⟩
  have herr := quantize_error P h
  rwa [clamp_of_units h hlo hhi] at herr

end Sys2Proof.Machine
end

section
/-! PROOFS. How a command ends: the codes each can leave in STATUS.ERR, what a code other than 0 changes, and the one
model fault a command can reach (60_exceptions.md R181 to R183, R186, R187; 30_encoding.md R85). -/

namespace Sys2Proof.Machine

/-! ### The state after an error -/

/-- Settles O42: of the effects of a command, the only one that leaves ERR at another code than 0 writes ERR alone. -/
theorem errorsChangeOnlyStatusErr : Obligations.ErrorsChangeOnlyStatusErr := by
  unfold Obligations.ErrorsChangeOnlyStatusErr
  intro i s t h herr
  cases exec_effect h with
  | fails _ e _ => rfl
  | configures | clears | processes | interleaves | encodes => exact absurd rfl herr

/-! ### The codes of each command -/

theorem ilvChecks_code {P : Params} {F Cn : Nat} {e : ErrCode} (h : ilvChecks P F Cn = some e) :
    e = .invalidAudioFormat ∨ e = .capacity := by
  unfold ilvChecks at h
  split_ifs at h <;> cases h <;> decide

theorem wavChecks_code {P : Params} {N Cn Rate : Nat} {e : ErrCode} (h : wavChecks P N Cn Rate = some e) :
    e = .invalidAudioFormat ∨ e = .capacity := by
  unfold wavChecks at h
  split_ifs at h <;> cases h <;> decide

theorem exec_bqCfg_err {s t : State} (h : exec .bqCfg s = .next t) :
    t.err = .ok ∨ t.err = .invalidFilterParameters := by
  rcases execBqCfg_cases h with ⟨n, -, rfl⟩ | ⟨-, rfl⟩
  · exact .inl rfl
  · exact .inr rfl

theorem exec_bqRst_err {s t : State} (h : exec .bqRst s = .next t) : t.err = .ok := by
  obtain rfl := Host.Outcome.next.inj ((execBqRst_eq s).symm.trans h)
  rfl

theorem exec_ilvRun_err {s t : State} (h : exec .ilvRun s = .next t) :
    t.err = .ok ∨ t.err = .invalidAudioFormat ∨ t.err = .capacity := by
  rcases execIlvRun_cases s with ⟨e, hchk, he⟩ | ⟨-, -, he⟩ | ⟨cells, -, -, he⟩ <;> cases he.symm.trans h
  · exact .inr (ilvChecks_code hchk)
  · exact .inl rfl

theorem exec_wavEnc_err {s t : State} (h : exec .wavEnc s = .next t) :
    t.err = .ok ∨ t.err = .invalidAudioFormat ∨ t.err = .capacity ∨ t.err = .invalidSample := by
  rcases execWavEnc_cases s with ⟨e, hchk, he⟩ | ⟨-, -, he⟩ | ⟨S, -, -, -, he⟩ | ⟨S, -, -, -, he⟩ <;>
    cases he.symm.trans h
  · exact .inr ((wavChecks_code hchk).imp_right .inl)
  · exact .inr (.inr (.inr rfl))
  · exact .inl rfl

/-- Settles O44: the codes by their definition, then the lemma on each command. -/
theorem eachCommandRaisesOnlyItsCodes : Obligations.EachCommandRaisesOnlyItsCodes := by
  unfold Obligations.EachCommandRaisesOnlyItsCodes
  refine ⟨rfl, fun s t => ⟨fun h => ?_, exec_bqRst_err, fun ch h => ?_, fun h => ?_, fun h => ?_⟩⟩
  · simpa using exec_bqCfg_err h
  · rw [exec_bqProc_err h]
    split_ifs <;> simp
  · simpa using exec_ilvRun_err h
  · simpa using exec_wavEnc_err h

/-! ### Model faults -/

/-- A command completes, or it is ILV_RUN or WAV_ENC and meets a cell that holds no value (60_exceptions.md R187). -/
theorem exec_completes_or_uninitRead (i : Instr) (s : State) :
    (∃ t, exec i s = .next t) ∨ (exec i s = .fault .uninitRead ∧ (i = .ilvRun ∨ i = .wavEnc)) := by
  cases i with
  | bqCfg => exact .inl ⟨_, rfl⟩
  | bqRst => exact .inl ⟨_, rfl⟩
  | bqProc ch => exact .inl (exec_bqProc_completes ch s)
  | ilvRun =>
    rcases execIlvRun_cases s with ⟨e, -, he⟩ | ⟨-, -, he⟩ | ⟨cells, -, -, he⟩
    · exact .inl ⟨_, he⟩
    · exact .inr ⟨he, .inl rfl⟩
    · exact .inl ⟨_, he⟩
  | wavEnc =>
    rcases execWavEnc_cases s with ⟨e, -, he⟩ | ⟨-, -, he⟩ | ⟨S, -, -, -, he⟩ | ⟨S, -, -, -, he⟩
    · exact .inl ⟨_, he⟩
    · exact .inr ⟨he, .inr rfl⟩
    · exact .inl ⟨_, he⟩
    · exact .inl ⟨_, he⟩

/-- Settles O49: neither of the two ways a command can end is a refusal, and one of them is this fault. -/
theorem commandsFaultOnlyOnUnwrittenCells : Obligations.CommandsFaultOnlyOnUnwrittenCells := by
  unfold Obligations.CommandsFaultOnlyOnUnwrittenCells
  intro i s
  rcases exec_completes_or_uninitRead i s with ⟨t, ht⟩ | ⟨hfault, hi⟩
  · simp [ht]
  · simpa [hfault] using hi

end Sys2Proof.Machine
end

section
/-! PROOFS. The BUSY window, power-on and what follows it (70_reset_and_hazards.md R200, R201, R203, R207). -/

namespace Sys2Proof.Machine

/-! ### The BUSY window -/

theorem isStatusRead_iff {a : HostAccess} : isStatusRead a = true ↔ a = .regRead32 0x04 := by
  cases a <;> simp [isStatusRead]

/-- In the BUSY window the hazard comes before the rules of the access itself (70_reset_and_hazards.md R207; log 11). -/
theorem hostAccess_hazard {a : HostAccess} {s : State} (hb : s.busy.isSome = true) (ha : a ≠ .regRead32 0x04) :
    hostAccess a s = .fault .hostHazard := by
  have hs : isStatusRead a = false := Bool.eq_false_iff.2 (mt isStatusRead_iff.1 ha)
  simp [hostAccess, hb, hs]

theorem hostAccess_cmdWrite_busy {w : Word} {s t : State} (hb : s.busy = none)
    (h : hostAccess (.regWrite32 0x00 w) s = .next t) : t.busy.isSome = true :=
  commandWrite_busy ((hostAccess_idle _ hb).symm.trans h)

/-- Bit 0 of the word that a STATUS read returns says whether it leaves the window open (10_state.md R25, R26). -/
theorem statusRead_closes_iff (s : State) : (statusRead s).2.busy = none ↔ (statusRead s).1.toNat % 2 = 0 := by
  obtain ⟨e, hword, -⟩ := statusRead_word s
  rw [hword, statusWord_even_iff, Option.isSome_eq_false_iff, Option.isNone_iff_eq_none]

/-- Settles O8: the CMD write opens the window, every access but a STATUS read meets the hazard, and bit 0 of STATUS tells
whether the window goes on. -/
theorem busyWindowAdmitsOnlyStatusReads : Obligations.BusyWindowAdmitsOnlyStatusReads := by
  unfold Obligations.BusyWindowAdmitsOnlyStatusReads
  refine ⟨fun s w hb => ⟨fun i hd => ?_, fun t => hostAccess_cmdWrite_busy hb⟩, fun s a => hostAccess_hazard,
    fun s => ?_⟩
  · exact ⟨startCommand s, rfl, hostAccess_cmdWrite hb hd⟩
  · exact ⟨_, (statusRead s).1, hostAccess_status s, by simp, statusRead_closes_iff s⟩

/-! ### Power-on -/

theorem step_powerOn {s : State} {rest : List Event} (h : s.pending = .powerOn :: rest) :
    step s = .next (powerOnReset { s with pending := rest }) := step_of_pending h

theorem step_idle {s : State} (h : s.pending = []) : step s = .next s := by
  unfold step takeEvent
  rw [h]

/-- Settles O51: the fields of `powerOnReset` are those of `State.resetWith`, but for what lies outside the block. -/
theorem powerOnResetSetsEveryValue : Obligations.PowerOnResetSetsEveryValue := by
  unfold Obligations.PowerOnResetSetsEveryValue
  refine ⟨fun s rest hp => ⟨_, step_powerOn hp, ?_⟩, fun _ => step_idle, step_powerOn rfl⟩
  have hlen : (powerOnReset { s with pending := rest }).delay.length = s.params.nchMax := List.length_replicate
  have hzero : ∀ d ∈ (powerOnReset { s with pending := rest }).delay, d = DelayLine.zero :=
    fun _ => List.eq_of_mem_replicate
  exact ⟨rfl, rfl, rfl, rfl, rfl, rfl, rfl, rfl, rfl, rfl, rfl, rfl, rfl, rfl, hlen, hzero, fun _ => ⟨rfl, rfl, rfl⟩,
    rfl, rfl, rfl, rfl⟩

/-! ### BQ_PROC and the operands at reset -/

/-- 2.0 × 2000.0 = 4000.0, the Nyquist bound of the reset ARG_F0. -/
theorem fmul_twoF_resetF0 : fmul twoF 0x409F400000000000#64 = 0x40AF400000000000#64 := by decide +kernel

/-- Settles O52: CONFIGURED is clear at reset, and the operands there are 2000.0, 1.0 and 16000.0. -/
theorem resetLeavesTheFilterUnconfigured : Obligations.ResetLeavesTheFilterUnconfigured := by
  unfold Obligations.ResetLeavesTheFilterUnconfigured
  refine fun P ch => ⟨fun hch => exec_bqProc_of_unconfigured hch rfl, rfl, rfl, rfl, rfl, rfl, ?_⟩
  show fgt 0x40CF400000000000#64 (fmul twoF 0x409F400000000000#64) = true
  rw [fmul_twoF_resetF0]
  decide

end Sys2Proof.Machine
end
